-- ==== Sys2Proof/Word.lean ====
section
/-! DEFINITION. The words and the names of the machine's parts: the 32-bit word, the Stream Word record, the two
channels, the agents and the kernel's phases. -/

namespace Sys2Proof

/-- `bits32`: a register value, a payload, a storage cell (00_scope.md R6). -/
abbrev Word := BitVec 32

/-- A byte of host memory (10_state.md R41). -/
abbrev Byte := BitVec 8

/-- The six fields of a Stream Word (30_encoding.md R91); a word is kept as a record of them (R92). -/
structure StreamWord where
  data : BitVec 32
  keep : BitVec 4
  user : BitVec 4
  id   : BitVec 5
  dest : BitVec 5
  last : Bool
  deriving DecidableEq, Repr

/-- The two channels of the controller, one per transfer direction (43_transfer_engine.md R190). -/
inductive Chan where
  | tx
  | rx
  deriving DecidableEq, Repr

/-- The four agents that take steps (00_scope.md R8). -/
inductive Agent where
  | host
  | tx
  | rx
  | kernel
  deriving DecidableEq, Repr, Inhabited

/-- What a step of the whole machine is: a step of an agent, or the platform's reset (70_reset_and_hazards.md R290), which
comes from outside at any time. -/
inductive Turn where
  | agent (a : Agent)
  | reset
  deriving DecidableEq, Repr

/-- The kernel's phases (10_state.md R21). -/
inductive Phase where
  | loadA
  | loadB
  | compute
  | store
  deriving DecidableEq, Repr

end Sys2Proof
end

