-- ==== Sys2Proof/Config.lean ====
section
/-! DEFINITION. What a build and its platform fix (00_scope.md R5, 10_state.md R42), as plain data that a state carries and
no step writes, and the free values of the model: constants with no body, of which nothing can be proved. -/

namespace Sys2Proof

/-- How one accumulation step rounds (41_fp_numerics.md R136). -/
inductive MacMode where
  | separate
  | fused
  deriving DecidableEq, Repr

/-- Which NaN an arithmetic operation returns (41_fp_numerics.md R132). -/
inductive NanPolicy where
  | canonical
  | anyQuiet
  deriving DecidableEq, Repr

/-- The capacity of a stream (10_state.md R30): unbounded, or `extra + 1` words, so at least one word by its form. -/
inductive Depth where
  | unbounded
  | bounded (extra : Nat)
  deriving DecidableEq, Repr, Inhabited

/-- `size` bytes of host memory from byte address `base`; the predicate `mapped` is a list of them (20_memory.md R67). -/
structure Region where
  base : Nat
  size : Nat
  deriving DecidableEq, Repr, Inhabited

/-- The parameters of the step relation. The register block starts at byte address `64 * btcBlock`, so that `BTC_BASE` is
64-byte aligned by its form (20_memory.md R67). -/
structure Config where
  dim        : Nat
  macMode    : MacMode
  nanPolicy  : NanPolicy
  inDepth    : Depth
  outDepth   : Depth
  btcBlock   : BitVec 26
  regions    : List Region
  busFaults  : List (Chan × Nat)
  sgMode     : Bool
  btcPresent : Bool
  deriving DecidableEq, Repr

/-- `N = DIM * DIM`, the elements of a matrix (00_scope.md R5). -/
def Config.n (c : Config) : Nat := c.dim * c.dim

/-- `PART_FACTOR = DIM / 2` (00_scope.md R5, 10_state.md R27); no value depends on it. -/
def Config.partFactor (c : Config) : Nat := c.dim / 2

/-- OPEN (00_scope.md R5, D12): the depth of `IN`. -/
opaque Config.openInDepth : Depth

/-- OPEN (00_scope.md R5, D12): the depth of `OUT`. -/
opaque Config.openOutDepth : Depth

/-- OPEN (00_scope.md R5, D20): the 64-byte block of the controller's registers. -/
opaque Config.openBtcBlock : BitVec 26

/-- OPEN (00_scope.md R5, D37): the host memory the controller can reach. -/
opaque Config.openRegions : List Region

/-- The `n`-th stretch of the free schedule (00_scope.md R8, U7), of one agent and any more: a free value. Every schedule in
which each agent has a turn again and again is a sequence of such stretches (R10; log 2). -/
opaque Config.schedule : Nat → Agent × List Agent

/-- The `n`-th NaN draw under `NAN_POLICY = any_quiet` (41_fp_numerics.md R132, U5): a free value, of which the sign and the
low 22 bits are used. -/
opaque Config.nanDraw : Nat → Word

/-- This hardware's configuration (00_scope.md R5): the decided parameters at their values, the OPEN ones at free values,
`bus_fault` at its default (never). -/
def Config.thisHardware : Config where
  dim := 32
  macMode := .separate
  nanPolicy := .canonical
  inDepth := Config.openInDepth
  outDepth := Config.openOutDepth
  btcBlock := Config.openBtcBlock
  regions := Config.openRegions
  busFaults := []
  sgMode := false
  btcPresent := true

end Sys2Proof
end

