-- ==== Sys2Proof/Syntax.lean ====
section
/-! DEFINITION. The operations of the hardware, one constructor per row of spec/opcode_table.json (30_encoding.md R102),
and the packed forms that select them (R90, R103). -/

namespace Sys2Proof

/-- Every operation of the operation map, with its operands. -/
inductive Instr where
  -- Word Codec (format SW)
  | encode (v : Word) (l : Bool)
  | decode (w : StreamWord)
  -- arithmetic primitives (format PRIM)
  | fmul32 (a b : Word)
  | fadd32 (a b : Word)
  | fma32 (a b c : Word)
  | mac (acc a b : Word)
  -- kernel steps (format KSTEP)
  | kLoadA
  | kLoadB
  | kCell
  | kStore
  -- register reads (format BUS)
  | rdTxCtrl
  | rdTxStatus
  | rdTxAddr
  | rdTxLen
  | rdTxXfer
  | rdRxCtrl
  | rdRxStatus
  | rdRxAddr
  | rdRxLen
  | rdRxXfer
  -- register writes (format BUS)
  | wrTxCtrl (v : Word)
  | wrTxStatus (v : Word)
  | wrTxAddr (v : Word)
  | wrTxLen (v : Word)
  | wrTxXfer (v : Word)
  | wrRxCtrl (v : Word)
  | wrRxStatus (v : Word)
  | wrRxAddr (v : Word)
  | wrRxLen (v : Word)
  | wrRxXfer (v : Word)
  -- reserved offsets (format BUS)
  | rdRsvd14
  | wrRsvd14 (v : Word)
  | rdRsvd18
  | wrRsvd18 (v : Word)
  | rdRsvd1C
  | wrRsvd1C (v : Word)
  | rdRsvd34
  | wrRsvd34 (v : Word)
  | rdRsvd38
  | wrRsvd38 (v : Word)
  | rdRsvd3C
  | wrRsvd3C (v : Word)
  -- channel steps (format CHSTEP)
  | txBeat
  | rxBeat
  -- host procedures (format PSEUDO)
  | init
  | isSg
  | disableIrq (dir : Chan)
  | transmit (addr len : Word)
  | receive (addr len : Word)
  | offload (inbuf outbuf : Word)
  deriving DecidableEq, Repr

/-- Which codec function a stream word stands for: the words `ENCODE` produces, the words `DECODE` accepts
(30_encoding.md R102). -/
inductive CodecUse where
  | produced
  | accepted
  deriving DecidableEq, Repr

/-- The primitives that have no selector bits and are called by name (30_encoding.md R90, format PRIM). -/
inductive Prim where
  | fmul32
  | fadd32
  | fma32
  | mac
  deriving DecidableEq, Repr

/-- The host procedures, called by name (30_encoding.md R101, format PSEUDO). -/
inductive Proc where
  | init
  | isSg
  | disableIrq
  | transmit
  | receive
  | offload
  deriving DecidableEq, Repr

/-- What selects an operation, one constructor per format of the opcode table (30_encoding.md R90, R92, R96, R98): the
packed stream word, the packed register transaction, the kernel's phase code, a channel's `BUSY` bit; by name, with the
list of operand words, for the two formats that have no selector bits (DISABLE_IRQ's direction is the operand word 0 for
TX and 1 for RX). -/
inductive OpWord where
  | sw (use : CodecUse) (bits : BitVec 51)
  | bus (bits : BitVec 39)
  | kstep (code : BitVec 2)
  | chstep (c : Chan) (busy : BitVec 1)
  | prim (p : Prim) (args : List Word)
  | pseudo (p : Proc) (args : List Word)
  deriving DecidableEq, Repr

/-- A value of the host notation, "a number or a name bound earlier" (30_encoding.md R101); a name is a number (log 23). -/
inductive Value where
  | num (v : Word)
  | name (x : Nat)
  deriving DecidableEq, Repr

/-- The condition of an `IF` line: the controller is absent, or `(v and mask) = want` (30_encoding.md R101; the tests of
44_host_procedures.md R241, R244 are of these forms). -/
inductive Cond where
  | absent
  | masked (v mask want : Value)
  deriving DecidableEq, Repr

/-- The error kind of an `IF` line (44_host_procedures.md R250); a transfer error has the code of a status word, bits 6:4. -/
inductive FailKind where
  | configurationError
  | transferError (status : Value)
  deriving DecidableEq, Repr

/-- One operation of the host (44_host_procedures.md R240): an operation of the opcode table by its packed form, or a line
of the notation of 30_encoding.md R101, a register by the offset its name stands for (10_state.md R32). The byte forms are
the narrower views of host memory (20_memory.md R60, R77). -/
inductive HostOp where
  | op (w : OpWord)
  | wr (reg : BitVec 6) (v : Value)
  | rd (x : Nat) (reg : BitVec 6)
  | poll (x : Nat) (reg : BitVec 6) (mask want : Value)
  | st (addr v : Value)
  | ld (x : Nat) (addr : Value)
  | stByte (addr v : Value)
  | ldByte (x : Nat) (addr : Value)
  | call (p : Proc) (args : List Value)
  | failIf (c : Cond) (kind : FailKind)
  deriving DecidableEq, Repr

end Sys2Proof
end

