-- ==== Sys2Proof/WellFormed.lean ====
section
/-! DEFINITION. Well-formedness: of a configuration (00_scope.md R5, U13), of a packed form (30_encoding.md R96, R98, R103)
and of an instruction. -/

namespace Sys2Proof

/-- `DIM` is even and at least 2 (00_scope.md R5, U13), and the `8*N` bytes of an input buffer have a 32-bit length
(20_memory.md R68, 10_state.md R36). -/
def Config.wellFormed (c : Config) : Bool :=
  decide (2 ≤ c.dim) && decide (c.dim % 2 = 0) && decide (8 * c.n < 2 ^ 32)

/-- The canonical side fields of a produced word: bits 49:32 are `dest 0, id 0, user 0, keep 0xF` (30_encoding.md R93). -/
def canonicalSide (bits : BitVec 51) : Bool :=
  bits.extractLsb' 32 18 == 0x0000F#18

/-- How many operand words a primitive takes (opcode_table.json, PRIM rows). -/
def Prim.arity : Prim → Nat
  | .fmul32 => 2
  | .fadd32 => 2
  | .fma32  => 3
  | .mac    => 3

/-- How many operand words a procedure takes (opcode_table.json, PSEUDO rows). -/
def Proc.arity : Proc → Nat
  | .init       => 0
  | .isSg       => 0
  | .disableIrq => 1
  | .transmit   => 2
  | .receive    => 2
  | .offload    => 2

/-- A packed form that selects an operation: a produced stream word is canonical (R93); a register offset is word aligned
(R96); a channel steps only while `BUSY = 1` (R98); a named operation has its operands; a direction is TX (0) or RX (1). -/
def OpWord.wellFormed : OpWord → Bool
  | .sw .produced bits => canonicalSide bits
  | .sw .accepted _    => true
  | .bus bits          => bits.extractLsb' 32 2 == 0#2
  | .kstep _           => true
  | .chstep _ busy     => busy == 1#1
  | .prim p args       => args.length == p.arity
  | .pseudo p args     =>
    args.length == p.arity && (p != .disableIrq || args.all fun a => a == 0#32 || a == 1#32)

/-- An instruction is well formed when its operands fit their fields. The operand types carry the widths of the table
(32-bit words, the six fields of a Stream Word, one end-of-frame bit, one direction), so every instruction is. -/
def Instr.wellFormed : Instr → Bool
  | .encode _ _ | .decode _ => true
  | .fmul32 _ _ | .fadd32 _ _ | .fma32 _ _ _ | .mac _ _ _ => true
  | .kLoadA | .kLoadB | .kCell | .kStore => true
  | .rdTxCtrl | .rdTxStatus | .rdTxAddr | .rdTxLen | .rdTxXfer => true
  | .rdRxCtrl | .rdRxStatus | .rdRxAddr | .rdRxLen | .rdRxXfer => true
  | .wrTxCtrl _ | .wrTxStatus _ | .wrTxAddr _ | .wrTxLen _ | .wrTxXfer _ => true
  | .wrRxCtrl _ | .wrRxStatus _ | .wrRxAddr _ | .wrRxLen _ | .wrRxXfer _ => true
  | .rdRsvd14 | .wrRsvd14 _ | .rdRsvd18 | .wrRsvd18 _ | .rdRsvd1C | .wrRsvd1C _ => true
  | .rdRsvd34 | .wrRsvd34 _ | .rdRsvd38 | .wrRsvd38 _ | .rdRsvd3C | .wrRsvd3C _ => true
  | .txBeat | .rxBeat => true
  | .init | .isSg | .disableIrq _ | .transmit _ _ | .receive _ _ | .offload _ _ => true

end Sys2Proof
end

