-- ==== Sys2Proof/Decode.lean ====
section
/-! DEFINITION. Decoding: from a packed form to an operation, total, rejecting by name (30_encoding.md R90 to R103), and the
encoder written from the same tables. -/

namespace Sys2Proof

/-- Why a packed form selects no operation. -/
inductive DecodeError where
  /-- A produced stream word whose side fields are not the constants of R93. -/
  | sideFieldsNotCanonical
  /-- A register transaction whose offset is not a multiple of 4 (10_state.md R38, U9). -/
  | misalignedOffset
  /-- A channel with `BUSY = 0` has no step (30_encoding.md R98). -/
  | channelHasNoStep
  /-- A named operation with a wrong number of operand words, or a direction that is neither TX nor RX. -/
  | badOperands
  deriving DecidableEq, Repr

/-- The packed form of a Stream Word, `last ++ dest ++ id ++ user ++ keep ++ data` (30_encoding.md R92). -/
def packStream (w : StreamWord) : BitVec 51 :=
  (BitVec.ofBool w.last ++ w.dest ++ w.id ++ w.user ++ w.keep ++ w.data).cast (by decide)

/-- The six fields of a packed Stream Word (30_encoding.md R91). -/
def unpackStream (bits : BitVec 51) : StreamWord where
  data := bits.extractLsb' 0 32
  keep := bits.extractLsb' 32 4
  user := bits.extractLsb' 36 4
  id   := bits.extractLsb' 40 5
  dest := bits.extractLsb' 45 5
  last := bits.getLsbD 50

/-- The packed form of a register transaction, `rw ++ offset ++ wdata` (30_encoding.md R96). -/
def packBus (rw : Bool) (offset : BitVec 6) (wdata : Word) : BitVec 39 :=
  (BitVec.ofBool rw ++ offset ++ wdata).cast (by decide)

/-- The read that the offset selects (10_state.md R32, 43_transfer_engine.md R191, R197). -/
def decodeRead (offset : BitVec 6) : Except DecodeError Instr :=
  match offset with
  | 0x00#6 => .ok .rdTxCtrl
  | 0x04#6 => .ok .rdTxStatus
  | 0x08#6 => .ok .rdTxAddr
  | 0x0C#6 => .ok .rdTxLen
  | 0x10#6 => .ok .rdTxXfer
  | 0x14#6 => .ok .rdRsvd14
  | 0x18#6 => .ok .rdRsvd18
  | 0x1C#6 => .ok .rdRsvd1C
  | 0x20#6 => .ok .rdRxCtrl
  | 0x24#6 => .ok .rdRxStatus
  | 0x28#6 => .ok .rdRxAddr
  | 0x2C#6 => .ok .rdRxLen
  | 0x30#6 => .ok .rdRxXfer
  | 0x34#6 => .ok .rdRsvd34
  | 0x38#6 => .ok .rdRsvd38
  | 0x3C#6 => .ok .rdRsvd3C
  | _      => .error .misalignedOffset

/-- The write that the offset selects (10_state.md R32, 43_transfer_engine.md R192 to R197). -/
def decodeWrite (offset : BitVec 6) (v : Word) : Except DecodeError Instr :=
  match offset with
  | 0x00#6 => .ok (.wrTxCtrl v)
  | 0x04#6 => .ok (.wrTxStatus v)
  | 0x08#6 => .ok (.wrTxAddr v)
  | 0x0C#6 => .ok (.wrTxLen v)
  | 0x10#6 => .ok (.wrTxXfer v)
  | 0x14#6 => .ok (.wrRsvd14 v)
  | 0x18#6 => .ok (.wrRsvd18 v)
  | 0x1C#6 => .ok (.wrRsvd1C v)
  | 0x20#6 => .ok (.wrRxCtrl v)
  | 0x24#6 => .ok (.wrRxStatus v)
  | 0x28#6 => .ok (.wrRxAddr v)
  | 0x2C#6 => .ok (.wrRxLen v)
  | 0x30#6 => .ok (.wrRxXfer v)
  | 0x34#6 => .ok (.wrRsvd34 v)
  | 0x38#6 => .ok (.wrRsvd38 v)
  | 0x3C#6 => .ok (.wrRsvd3C v)
  | _      => .error .misalignedOffset

/-- A register transaction is selected by `rw` and `offset` alone; a read has no data (30_encoding.md R96). -/
def decodeBus (bits : BitVec 39) : Except DecodeError Instr :=
  if bits.getLsbD 38 then decodeWrite (bits.extractLsb' 32 6) (bits.extractLsb' 0 32)
  else decodeRead (bits.extractLsb' 32 6)

/-- A stream word: the words `ENCODE` produces are the canonical ones, `DECODE` accepts every word (30_encoding.md R99,
R102). -/
def decodeSw (use : CodecUse) (bits : BitVec 51) : Except DecodeError Instr :=
  match use with
  | .produced =>
    if canonicalSide bits then .ok (.encode (bits.extractLsb' 0 32) (bits.getLsbD 50)) else .error .sideFieldsNotCanonical
  | .accepted => .ok (.decode (unpackStream bits))

/-- The kernel's step by `K.phase` (30_encoding.md R98). -/
def decodeKstep (code : BitVec 2) : Instr :=
  match code with
  | 0#2 => .kLoadA
  | 1#2 => .kLoadB
  | 2#2 => .kCell
  | 3#2 => .kStore

/-- A channel's step by `c.BUSY` (30_encoding.md R98). -/
def decodeChstep (c : Chan) (busy : BitVec 1) : Except DecodeError Instr :=
  if busy = 1#1 then
    match c with
    | .tx => .ok .txBeat
    | .rx => .ok .rxBeat
  else .error .channelHasNoStep

/-- A primitive by name and operands (30_encoding.md R90). -/
def decodePrim (p : Prim) (args : List Word) : Except DecodeError Instr :=
  match p, args with
  | .fmul32, [a, b]    => .ok (.fmul32 a b)
  | .fadd32, [a, b]    => .ok (.fadd32 a b)
  | .fma32, [a, b, c]  => .ok (.fma32 a b c)
  | .mac, [acc, a, b]  => .ok (.mac acc a b)
  | _, _               => .error .badOperands

/-- A procedure by name and operands (30_encoding.md R101). -/
def decodePseudo (p : Proc) (args : List Word) : Except DecodeError Instr :=
  match p, args with
  | .init, []                 => .ok .init
  | .isSg, []                 => .ok .isSg
  | .disableIrq, [dir]        =>
    if dir = 0#32 then .ok (.disableIrq .tx) else if dir = 1#32 then .ok (.disableIrq .rx) else .error .badOperands
  | .transmit, [addr, len]    => .ok (.transmit addr len)
  | .receive, [addr, len]     => .ok (.receive addr len)
  | .offload, [inbuf, outbuf] => .ok (.offload inbuf outbuf)
  | _, _                      => .error .badOperands

/-- The operation a packed form selects (30_encoding.md R90, R102). -/
def decode : OpWord → Except DecodeError Instr
  | .sw use bits   => decodeSw use bits
  | .bus bits      => decodeBus bits
  | .kstep code    => .ok (decodeKstep code)
  | .chstep c busy => decodeChstep c busy
  | .prim p args   => decodePrim p args
  | .pseudo p args => decodePseudo p args

/-- A read transaction; `wdata` is absent and packed as 0 (30_encoding.md R96). -/
def encodeRead (offset : BitVec 6) : OpWord := .bus (packBus false offset 0#32)

/-- A write transaction (30_encoding.md R96). -/
def encodeWrite (offset : BitVec 6) (v : Word) : OpWord := .bus (packBus true offset v)

/-- The packed form of an operation (30_encoding.md R92, R93, R96, R98, R102). -/
def encode : Instr → OpWord
  | .encode v l             => .sw .produced (packStream ⟨v, 0xF#4, 0#4, 0#5, 0#5, l⟩)
  | .decode w               => .sw .accepted (packStream w)
  | .fmul32 a b             => .prim .fmul32 [a, b]
  | .fadd32 a b             => .prim .fadd32 [a, b]
  | .fma32 a b c            => .prim .fma32 [a, b, c]
  | .mac acc a b            => .prim .mac [acc, a, b]
  | .kLoadA                 => .kstep 0#2
  | .kLoadB                 => .kstep 1#2
  | .kCell                  => .kstep 2#2
  | .kStore                 => .kstep 3#2
  | .rdTxCtrl               => encodeRead 0x00#6
  | .rdTxStatus             => encodeRead 0x04#6
  | .rdTxAddr               => encodeRead 0x08#6
  | .rdTxLen                => encodeRead 0x0C#6
  | .rdTxXfer               => encodeRead 0x10#6
  | .rdRxCtrl               => encodeRead 0x20#6
  | .rdRxStatus             => encodeRead 0x24#6
  | .rdRxAddr               => encodeRead 0x28#6
  | .rdRxLen                => encodeRead 0x2C#6
  | .rdRxXfer               => encodeRead 0x30#6
  | .wrTxCtrl v             => encodeWrite 0x00#6 v
  | .wrTxStatus v           => encodeWrite 0x04#6 v
  | .wrTxAddr v             => encodeWrite 0x08#6 v
  | .wrTxLen v              => encodeWrite 0x0C#6 v
  | .wrTxXfer v             => encodeWrite 0x10#6 v
  | .wrRxCtrl v             => encodeWrite 0x20#6 v
  | .wrRxStatus v           => encodeWrite 0x24#6 v
  | .wrRxAddr v             => encodeWrite 0x28#6 v
  | .wrRxLen v              => encodeWrite 0x2C#6 v
  | .wrRxXfer v             => encodeWrite 0x30#6 v
  | .rdRsvd14               => encodeRead 0x14#6
  | .wrRsvd14 v             => encodeWrite 0x14#6 v
  | .rdRsvd18               => encodeRead 0x18#6
  | .wrRsvd18 v             => encodeWrite 0x18#6 v
  | .rdRsvd1C               => encodeRead 0x1C#6
  | .wrRsvd1C v             => encodeWrite 0x1C#6 v
  | .rdRsvd34               => encodeRead 0x34#6
  | .wrRsvd34 v             => encodeWrite 0x34#6 v
  | .rdRsvd38               => encodeRead 0x38#6
  | .wrRsvd38 v             => encodeWrite 0x38#6 v
  | .rdRsvd3C               => encodeRead 0x3C#6
  | .wrRsvd3C v             => encodeWrite 0x3C#6 v
  | .txBeat                 => .chstep .tx 1#1
  | .rxBeat                 => .chstep .rx 1#1
  | .init                   => .pseudo .init []
  | .isSg                   => .pseudo .isSg []
  | .disableIrq .tx         => .pseudo .disableIrq [0#32]
  | .disableIrq .rx         => .pseudo .disableIrq [1#32]
  | .transmit addr len      => .pseudo .transmit [addr, len]
  | .receive addr len       => .pseudo .receive [addr, len]
  | .offload inbuf outbuf   => .pseudo .offload [inbuf, outbuf]

/-- The packed form behind `nbits` table bits with value `w` (30_encoding.md R103): 39 bits are a register transaction, 51 a
stream word (a canonical one as `ENCODE` produces it, any other as `DECODE` accepts it), 2 the kernel's phase, 1 a channel's
`BUSY`. One byte holds a KSTEP row as well as a CHSTEP row: it is read as the kernel's phase (log 9). PRIM and PSEUDO rows
have no selector bits, so no word stands for them. -/
def tableOpWord (nbits w : Nat) : Option OpWord :=
  if nbits = 0 then none
  else if nbits = 1 then (if w < 2 then some (.chstep .tx (BitVec.ofNat 1 w)) else none)
  else if nbits ≤ 8 then (if w < 4 then some (.kstep (BitVec.ofNat 2 w)) else none)
  else if nbits ≤ 40 then (if w < 2 ^ 39 then some (.bus (BitVec.ofNat 39 w)) else none)
  else if nbits ≤ 56 then
    if w < 2 ^ 51 then
      let bits := BitVec.ofNat 51 w
      some (.sw (if canonicalSide bits then .produced else .accepted) bits)
    else none
  else none

/-- The operation the decoder reads from a word of the opcode table. -/
def decodeTableWord (nbits w : Nat) : Option Instr :=
  match tableOpWord nbits w with
  | some op => (decode op).toOption
  | none    => none

end Sys2Proof
end

