-- ==== Sys2Proof/Machine/State.lean ====
section
/-! DEFINITION. The state of the machine (10_state.md R20 to R44) as plain data, its reasons to stop, and the state after
reset (10_state.md R43, 70_reset_and_hazards.md R291). -/

namespace Sys2Proof.Machine

/-- Kernel storage, `DIM x DIM` cells of `bits32` (10_state.md R23 to R25), by row-major index `i*DIM + j` (00_scope.md R12): the
cells written since reset, indexes strictly rising. A cell not listed has not been written (R43). -/
abbrev Cells := List (Nat × Word)

/-- The Compute Kernel (10_state.md R21 to R25). -/
structure Kernel where
  phase : Phase
  idx   : Nat
  a     : Cells
  b     : Cells
  out   : Cells
  deriving DecidableEq, Repr

/-- One channel of the controller (10_state.md R31). -/
structure Channel where
  ieDone  : Bool
  ieErr   : Bool
  busy    : Bool
  done    : Bool
  err     : Bool
  errcode : BitVec 3
  addr    : Word
  len     : Word
  xfer    : Word
  deriving DecidableEq, Repr

/-- What a host procedure gave back (44_host_procedures.md R240, R250). -/
inductive Ret where
  /-- No procedure has returned yet. -/
  | nothing
  | ok
  | bool (b : Bool)
  | configurationError
  | transferError (code : BitVec 3)
  deriving DecidableEq, Repr

/-- The host as an agent (44_host_procedures.md R240). MODEL's own: the operations still to perform, in program order; how
many of its register accesses the procedure at the head has made; the last value read; the names bound so far
(30_encoding.md R101), names strictly rising; the last word `ENCODE` gave; what the last procedure returned. -/
structure HostSide where
  queue : List HostOp
  pos   : Nat
  x     : Word
  env   : List (Nat × Word)
  word  : StreamWord
  ret   : Ret
  deriving DecidableEq, Repr

/-- The whole state: R20's tuple, the parameters a step reads and never writes (R42), and the MODEL's own host and schedule. -/
structure State where
  /-- The parameters of the step relation (00_scope.md R5). -/
  cfg   : Config
  /-- `K` (R21 to R25). -/
  k     : Kernel
  /-- `IN`, head first (R30). -/
  inq   : List StreamWord
  /-- `OUT`, head first (R30). -/
  outq  : List StreamWord
  /-- `TX` (R31). -/
  tx    : Channel
  /-- `RX` (R31). -/
  rx    : Channel
  /-- `MEM` (R41), in the canonical form of `Memory.wf`. -/
  mem   : List Host.Cell
  /-- The host (MODEL's own). -/
  host  : HostSide
  /-- The steps to come as far as they are decided (MODEL's own; 00_scope.md R8). -/
  sched : List Turn
  /-- How many stretches of the free schedule were taken (MODEL's own). -/
  tick  : Nat
  /-- How many free NaN values were drawn (MODEL's own; 41_fp_numerics.md R132). -/
  draws : Nat
  deriving DecidableEq, Repr

/-- Why the machine stops with a fault. -/
inductive Fault where
  /-- Raised by `K.CELL` and `K.STORE` on a storage cell that no step has written since reset (70_reset_and_hazards.md R292). Safe. -/
  | unwrittenCell
  /-- Raised by a host load or store (`LD`, `ST`, byte forms) outside host memory and outside the register block
  (10_state.md R41). Safe. -/
  | hostAccessOutsideMemory (addr : Word)
  deriving DecidableEq, Repr

/-- Why an operation has no meaning. -/
inductive Refusal where
  /-- Raised by `exec` for an instruction without a meaning. Safe. -/
  | notModelled (mnemonic : String)
  /-- Raised by `WR c_ADDR` and `WR c_LEN` (also inside `TRANSMIT`, `RECEIVE`, `OFFLOAD`) on a build with `SG_MODE = 1`
  (43_transfer_engine.md R205, U4). Safe. -/
  | scatterGatherBuild (c : Chan)
  /-- Raised by a host access to the register block that is not a naturally aligned 32-bit access (10_state.md R38, U9). Safe. -/
  | registerAccessForm
  /-- Raised by the host's step on a line that needs the value of a name no line before has bound (30_encoding.md R101); not for
  a name in the kind of an `IF` line whose condition is false (log 23). Safe. -/
  | unboundName
  /-- Raised by the host's step on a packed word that selects no operation. Safe. -/
  | selectsNothing (e : DecodeError)
  /-- Raised by the host's step on an operation that only a kernel or a channel performs (44_host_procedures.md R240). Safe. -/
  | notAHostOperation
  deriving DecidableEq, Repr

/-- A channel after reset (R43). -/
def Channel.reset : Channel where
  ieDone := false
  ieErr := false
  busy := false
  done := false
  err := false
  errcode := 0#3
  addr := 0#32
  len := 0#32
  xfer := 0#32

/-- The kernel after reset: at `(LOAD_A, 0)`, no storage cell written (R43). -/
def Kernel.reset : Kernel where
  phase := .loadA
  idx := 0
  a := []
  b := []
  out := []

/-- The host before its first operation (MODEL's own, log 3 and log 6). -/
def HostSide.reset : HostSide where
  queue := []
  pos := 0
  x := 0#32
  env := []
  word := ⟨0#32, 0#4, 0#4, 0#5, 0#5, false⟩
  ret := .nothing

/-- The state after reset of a build with parameters `c` (R43, R291). -/
def State.resetOf (c : Config) : State where
  cfg := c
  k := Kernel.reset
  inq := []
  outq := []
  tx := Channel.reset
  rx := Channel.reset
  mem := []
  host := HostSide.reset
  sched := []
  tick := 0
  draws := 0

/-- This hardware right after reset (R43, R291). -/
def State.reset : State := State.resetOf Config.thisHardware

end Sys2Proof.Machine
end

