-- ==== Sys2Proof/Machine/Ops.lean ====
section
/-! DEFINITION. The named operations over memory, storage, streams, channels and the host: every meaning reaches the state
through them. Entering a channel's error state (60_exceptions.md R265) and the reset that leaves it (R267, R290) stand here. -/

namespace Sys2Proof.Machine

/-- The three outcomes of an operation of this machine. -/
abbrev Result := Host.Outcome State Fault Refusal

/-- Go on with `f` where `r` gives a next state. -/
def andThen (r : Result) (f : State → Result) : Result :=
  match r with
  | .next s    => f s
  | .fault e   => .fault e
  | .refused e => .refused e

/-! ### Lists of keyed entries, keys strictly rising -/

/-- The entry at key `k`. -/
def lookup {α : Type} (k : Nat) : List (Nat × α) → Option α
  | []           => none
  | (j, v) :: l  => if j = k then some v else lookup k l

/-- The list with the entry at `k` being `v`. -/
def insertAt {α : Type} (k : Nat) (v : α) : List (Nat × α) → List (Nat × α)
  | []           => [(k, v)]
  | (j, w) :: l  => if k < j then (k, v) :: (j, w) :: l else if k = j then (k, v) :: l else (j, w) :: insertAt k v l

/-- The list with no entry at `k`. -/
def removeAt {α : Type} (k : Nat) : List (Nat × α) → List (Nat × α)
  | []           => []
  | (j, w) :: l  => if j = k then l else (j, w) :: removeAt k l

/-- Keys strictly rising. -/
def rising {α : Type} : List (Nat × α) → Bool
  | []                      => true
  | [_]                     => true
  | (i, _) :: (j, w) :: l   => decide (i < j) && rising ((j, w) :: l)

/-! ### Host memory -/

/-- What a byte of host memory that nothing has written reads as (DESIGN CHOICE, log 4). -/
def Memory.unlisted : Byte := 0#8

/-- One byte of host memory. -/
def Memory.readByte (m : List Host.Cell) (a : Nat) : Byte := (lookup a m).getD Memory.unlisted

/-- One byte of host memory written; the canonical form lists no byte that reads as unlisted. -/
def Memory.writeByte (m : List Host.Cell) (a : Nat) (v : Byte) : List Host.Cell :=
  if v = Memory.unlisted then removeAt a m else insertAt a v m

/-- The canonical form: addresses strictly rising, no entry equal to what an unlisted address reads as. -/
def Memory.wf (m : List Host.Cell) : Bool := rising m && m.all fun e => e.2 != Memory.unlisted

/-- `MemRead(a, 4)`: little-endian, `MEM[a]` is bits 7:0 (20_memory.md R61). -/
def Memory.readWord (m : List Host.Cell) (a : Nat) : Word :=
  (readByte m (a + 3) ++ readByte m (a + 2) ++ readByte m (a + 1) ++ readByte m a).cast (by decide)

/-- `MemWrite(a, 4, v)`: `v[7:0]` at `a` up to `v[31:24]` at `a+3` (20_memory.md R61). -/
def Memory.writeWord (m : List Host.Cell) (a : Nat) (v : Word) : List Host.Cell :=
  writeByte (writeByte (writeByte (writeByte m a (v.extractLsb' 0 8)) (a + 1) (v.extractLsb' 8 8))
    (a + 2) (v.extractLsb' 16 8)) (a + 3) (v.extractLsb' 24 8)

/-- `BTC_BASE`, 64-byte aligned (20_memory.md R67). -/
def btcBase (c : Config) : Nat := 64 * c.btcBlock.toNat

/-- Byte address `a` lies in the controller's 0x40-byte register block (10_state.md R32). -/
def inRegisterBlock (c : Config) (a : Nat) : Bool := decide (btcBase c ≤ a) && decide (a < btcBase c + 0x40)

/-- The four bytes at `a` touch the register block. -/
def touchesRegisterBlock (c : Config) (a : Nat) : Bool :=
  inRegisterBlock c a || inRegisterBlock c (a + 1) || inRegisterBlock c (a + 2) || inRegisterBlock c (a + 3)

/-- Byte address `a` lies in region `r`. -/
def inRegion (a : Nat) (r : Region) : Bool := decide (r.base ≤ a) && decide (a < r.base + r.size)

/-- `mapped(a)`: an address of the 32-bit space in one of the platform's regions, false on the register block
(20_memory.md R67). -/
def mapped (c : Config) (a : Nat) : Bool :=
  decide (a < 2 ^ 32) && c.regions.any (inRegion a) && !inRegisterBlock c a

/-- All four bytes of a beat are mapped (43_transfer_engine.md R198). -/
def mappedWord (c : Config) (a : Nat) : Bool :=
  mapped c a && mapped c (a + 1) && mapped c (a + 2) && mapped c (a + 3)

/-- `bus_fault(dir, a)`: the memory answers this beat with an error (43_transfer_engine.md R203). -/
def busFault (c : Config) (dir : Chan) (a : Nat) : Bool := c.busFaults.contains (dir, a)

/-! ### Streams -/

/-- `len < depth`: there is room for one more word (10_state.md R30). -/
def hasRoom : List StreamWord → Depth → Bool
  | _, .unbounded                => true
  | [], .bounded _               => true
  | _ :: _, .bounded 0           => false
  | _ :: q, .bounded (extra + 1) => hasRoom q (.bounded extra)

/-! ### Channels -/

/-- The channel `c`. -/
def State.chan (s : State) : Chan → Channel
  | .tx => s.tx
  | .rx => s.rx

/-- The state with channel `c` being `ch`. -/
def State.setChan (s : State) (c : Chan) (ch : Channel) : State :=
  match c with
  | .tx => { s with tx := ch }
  | .rx => { s with rx := ch }

/-- `raise <code> on channel c` (60_exceptions.md R265): `BUSY`, `ERR` and `ERRCODE`, nothing else. -/
def raiseError (c : Chan) (code : BitVec 3) (s : State) : State :=
  s.setChan c { s.chan c with busy := false, err := true, errcode := code }

/-- The end of a transfer without error: `BUSY <- 0; DONE <- 1` (43_transfer_engine.md R198, R199). -/
def complete (c : Chan) (s : State) : State :=
  s.setChan c { s.chan c with busy := false, done := true }

/-- `c.XFER <- c.XFER + 4` (43_transfer_engine.md R198, R199). -/
def countBeat (c : Chan) (s : State) : State :=
  s.setChan c { s.chan c with xfer := (s.chan c).xfer + 4#32 }

/-- The hardware reset (70_reset_and_hazards.md R290): kernel, both streams and the controller at once; host memory is not
reset. It is the only way out of a channel's error state (60_exceptions.md R267). -/
def hardReset (s : State) : State :=
  { s with k := Kernel.reset, inq := [], outq := [], tx := Channel.reset, rx := Channel.reset }

/-! ### The host -/

/-- `x <- v`: the host binds a value (30_encoding.md R101). -/
def State.bind (s : State) (v : Word) : State := { s with host := { s.host with x := v } }

/-- The value last read becomes the value of name `x` (30_encoding.md R101). -/
def State.bindName (s : State) (x : Nat) : State :=
  { s with host := { s.host with env := insertAt x s.host.x s.host.env } }

/-- The procedure the host's program is stops and returns `r` (`FAIL`, 30_encoding.md R101): no operation is left. -/
def State.failWith (s : State) (r : Ret) : State := { s with host := { s.host with queue := [], pos := 0, ret := r } }

/-- The host holds a stream word. -/
def State.bindWord (s : State) (w : StreamWord) : State := { s with host := { s.host with word := w } }

/-- The procedure has made `n` of its register accesses. -/
def State.atPos (s : State) (n : Nat) : State := { s with host := { s.host with pos := n } }

/-- The procedure returns `r`. -/
def State.ret (s : State) (r : Ret) : State := { s with host := { s.host with pos := 0, ret := r } }

end Sys2Proof.Machine
end

