-- ==== Sys2Proof/Machine/Codec.lean ====
section
/-! DEFINITION. The Word Codec (40_word_codec.md R120 to R126). -/

namespace Sys2Proof.Machine

/-- `ID_CONST` (30_encoding.md R93). -/
def idConst : BitVec 5 := 0#5

/-- `DEST_CONST` (30_encoding.md R93). -/
def destConst : BitVec 5 := 0#5

/-- `encode(v, l)` (R120): all bytes present, side fields constant, end-of-frame `l`. -/
def encodeWord (v : Word) (l : Bool) : StreamWord :=
  { data := v, keep := 0xF#4, user := 0#4, id := idConst, dest := destConst, last := l }

/-- `decode(w)` (R121): the payload; the side fields never alter it. -/
def decodeWord (w : StreamWord) : Word := w.data

/-- A word as this hardware produces it (30_encoding.md R93). -/
def canonicalWord (w : StreamWord) : Bool := w == encodeWord w.data w.last

/-- `ENCODE` as an operation (R120; log 8): the host holds the word. -/
def execEncode (v : Word) (l : Bool) (s : State) : Result := .next (s.bindWord (encodeWord v l))

/-- `DECODE` as an operation (R121; log 8): the host binds the payload. -/
def execDecode (w : StreamWord) (s : State) : Result := .next (s.bind (decodeWord w))

end Sys2Proof.Machine
end

