-- ==== Sys2Proof/Machine/Operands.lean ====
section
/-! DEFINITION. Operand assembly (30_encoding.md R97): addresses, counts, positions; all unsigned. -/

namespace Sys2Proof.Machine

/-- Address of the next beat, `c.ADDR + c.XFER` without wrap (20_memory.md R76). -/
def beatAddr (ch : Channel) : Nat := ch.addr.toNat + ch.xfer.toNat

/-- The next beat is the transfer's last: `c.XFER + 4 = c.LEN` (30_encoding.md R97). -/
def lastBeat (ch : Channel) : Bool := decide (ch.xfer.toNat + 4 = ch.len.toNat)

/-- Word count of a transfer (30_encoding.md R97). -/
def wordCount (ch : Channel) : Nat := ch.len.toNat / 4

/-- Row of a sequencer index (30_encoding.md R97). -/
def rowOf (c : Config) (idx : Nat) : Nat := idx / c.dim

/-- Column of a sequencer index (30_encoding.md R97). -/
def colOf (c : Config) (idx : Nat) : Nat := idx % c.dim

/-- Row-major index of element `[row][col]` (00_scope.md R12). -/
def cellIndex (c : Config) (row col : Nat) : Nat := row * c.dim + col

/-- The sequencer is at the phase's last element, `N - 1` (42_compute_kernel.md R161). -/
def lastIndex (c : Config) (idx : Nat) : Bool := decide (idx + 1 = c.n)

/-- Byte length of an input buffer, `8*N` (20_memory.md R68). -/
def inputLen (c : Config) : Word := BitVec.ofNat 32 (8 * c.n)

/-- Byte length of an output buffer, `4*N` (20_memory.md R68). -/
def outputLen (c : Config) : Word := BitVec.ofNat 32 (4 * c.n)

/-- The bank of operand storage that holds contraction index `k`, `k div 2`: not observable (10_state.md R27). -/
def bankOf (k : Nat) : Nat := k / 2

end Sys2Proof.Machine
end

