-- ==== Sys2Proof/Machine/Flags.lean ====
section
/-! DEFINITION. The controller's flags: the register views of them, the start checks, the interrupt lines (10_state.md R33 to R40,
60_exceptions.md R261 to R264). -/

namespace Sys2Proof.Machine

/-- `ERRCODE` 1, `LEN` (60_exceptions.md R261). -/
def errLen : BitVec 3 := 1#3

/-- `ERRCODE` 2, `ALIGN`. -/
def errAlign : BitVec 3 := 2#3

/-- `ERRCODE` 3, `DEC`. -/
def errDec : BitVec 3 := 3#3

/-- `ERRCODE` 4, `SLV`. -/
def errSlv : BitVec 3 := 4#3

/-- `ERRCODE` 5, `OVERRUN`. -/
def errOverrun : BitVec 3 := 5#3

/-- `c_CTRL`: bit 0 `IE_DONE`, bit 1 `IE_ERR`, the rest 0 (10_state.md R33). -/
def ctrlWord (ch : Channel) : Word :=
  (BitVec.ofBool ch.ieErr ++ BitVec.ofBool ch.ieDone).setWidth 32

/-- `c_STATUS`: bit 8 `SG`, 6:4 `ERRCODE`, 2 `ERR`, 1 `DONE`, 0 `BUSY`, the rest 0 (10_state.md R34,
43_transfer_engine.md R191). -/
def statusWord (sgMode : Bool) (ch : Channel) : Word :=
  (BitVec.ofBool sgMode ++ 0#1 ++ ch.errcode ++ 0#1 ++ BitVec.ofBool ch.err ++ BitVec.ofBool ch.done
    ++ BitVec.ofBool ch.busy).setWidth 32

/-- `BUSY` of a status word. -/
def statusBusy (v : Word) : Bool := v.getLsbD 0

/-- `ERR` of a status word. -/
def statusErr (v : Word) : Bool := v.getLsbD 2

/-- `ERRCODE` of a status word. -/
def statusCode (v : Word) : BitVec 3 := v.extractLsb' 4 3

/-- `SG` of a status word. -/
def statusSg (v : Word) : Bool := v.getLsbD 8

/-- A channel takes a start or an address: neither `BUSY` nor `ERR` (43_transfer_engine.md R194, R195). -/
def accepts (ch : Channel) : Bool := !ch.busy && !ch.err

/-- The start checks in their order, first match wins; `none` is an accepted start (43_transfer_engine.md R195,
60_exceptions.md R264). -/
def startError (addr len : Word) : Option (BitVec 3) :=
  if len = 0#32 ∨ len.toNat % 4 ≠ 0 then some errLen
  else if addr.toNat % 4 ≠ 0 then some errAlign
  else if addr.toNat + len.toNat > 2 ^ 32 then some errDec
  else none

/-- The beat checks in their order: `DEC`, then `SLV` (43_transfer_engine.md R198, R199, 60_exceptions.md R264). -/
def beatError (c : Config) (dir : Chan) (a : Nat) : Option (BitVec 3) :=
  if !mappedWord c a then some errDec
  else if busFault c dir a then some errSlv
  else none

/-- `c.irq` (10_state.md R40): a level, a pure function of the state. -/
def irq (ch : Channel) : Bool := (ch.ieDone && ch.done) || (ch.ieErr && ch.err)

end Sys2Proof.Machine
end

