-- ==== Sys2Proof/Machine/Beats.lean ====
section
/-! DEFINITION. The channel steps `TX.BEAT` and `RX.BEAT` (43_transfer_engine.md R198 to R203). A step that is not selected or
not enabled leaves the state unchanged (00_scope.md R9). -/

namespace Sys2Proof.Machine

/-- `TX.BEAT` (R198): enabled iff `TX.BUSY = 1` and `IN` has room. -/
def execTxBeat (s : State) : Result :=
  if s.tx.busy && hasRoom s.inq s.cfg.inDepth then
    let a := beatAddr s.tx
    match beatError s.cfg .tx a with
    | some code => .next (raiseError .tx code s)
    | none      =>
      let l := lastBeat s.tx
      let t := countBeat .tx { s with inq := s.inq ++ [encodeWord (Memory.readWord s.mem a) l] }
      .next (if l then complete .tx t else t)
  else .next s

/-- `RX.BEAT` (R199): enabled iff `RX.BUSY = 1` and `OUT` is not empty; `last` is tested before the byte count (R264). -/
def execRxBeat (s : State) : Result :=
  if s.rx.busy then
    match s.outq with
    | []     => .next s
    | w :: q =>
      let a := beatAddr s.rx
      match beatError s.cfg .rx a with
      | some code => .next (raiseError .rx code s)
      | none      =>
        let t := countBeat .rx { s with outq := q, mem := Memory.writeWord s.mem a (decodeWord w) }
        .next
          (if w.last then complete .rx t
           else if lastBeat s.rx then raiseError .rx errOverrun t
           else t)
  else .next s

end Sys2Proof.Machine
end

