-- ==== Sys2Proof/Machine/Fp.lean ====
section
/-! DEFINITION. Single-precision arithmetic of the accumulation pipeline (41_fp_numerics.md R130 to R138). Every real value in it
is a whole multiple of `2^-149` (an operand) or of `2^-298` (a product, a sum with a product), so exact values are
integers counted in those units. -/

namespace Sys2Proof.Machine

/-! ### Format (R130) -/

/-- Sign bit. -/
def fpSign (w : Word) : Bool := w.getLsbD 31

/-- Biased exponent `w[30:23]`. -/
def fpExp (w : Word) : Nat := (w.extractLsb' 23 8).toNat

/-- Fraction `w[22:0]`. -/
def fpFrac (w : Word) : Nat := (w.extractLsb' 0 23).toNat

/-- A NaN, quiet or signalling. -/
def isNaN (w : Word) : Bool := decide (fpExp w = 255) && decide (fpFrac w ≠ 0)

/-- An infinity of either sign. -/
def isInf (w : Word) : Bool := decide (fpExp w = 255) && decide (fpFrac w = 0)

/-- A zero of either sign. -/
def isZero (w : Word) : Bool := decide (fpExp w = 0) && decide (fpFrac w = 0)

/-- `|val(w)|` in units of `2^-149`: `f` of a subnormal, `(2^23 + f) * 2^(e-1)` of a normal word. -/
def fpMag (w : Word) : Nat :=
  if fpExp w = 0 then fpFrac w else (2 ^ 23 + fpFrac w) * 2 ^ (fpExp w - 1)

/-- `val(w)` in units of `2^-149`, of a zero, subnormal or normal word. -/
def fpVal (w : Word) : Int := if fpSign w then -(fpMag w : Int) else (fpMag w : Int)

/-- The word `s ++ e ++ f`. -/
def fpPack (s : Bool) (e : BitVec 8) (f : BitVec 23) : Word := (BitVec.ofBool s ++ e ++ f).cast (by decide)

/-- The infinity of sign `s`. -/
def fpInf (s : Bool) : Word := fpPack s 0xFF#8 0#23

/-- The zero of sign `s`. -/
def fpZero (s : Bool) : Word := fpPack s 0#8 0#23

/-! ### Rounding (R131) -/

/-- `m / 2^sh` rounded to the nearest integer, a tie to the even one. -/
def nearestEven (m sh : Nat) : Nat :=
  let q := m / 2 ^ sh
  let twice := 2 * (m % 2 ^ sh)
  if twice > 2 ^ sh then q + 1 else if twice = 2 ^ sh ∧ q % 2 = 1 then q + 1 else q

/-- `round32(x, zs)` for `x` in units of `2^-298`. With `top = max(floor(log2 |x|), -126) + 298`, the clamped binade counted in
those units, `ulp = 2^(top - 23)` units and the biased exponent of a normal result is `top - 171`. -/
def round32 (x : Int) (zs : Bool) : Word :=
  if x = 0 then fpZero zs
  else
    let s := decide (x < 0)
    let top := max x.natAbs.log2 172
    let n := nearestEven x.natAbs (top - 23)
    if n * 2 ^ (top - 23) ≥ 2 ^ 426 then fpInf s
    else if n = 2 ^ 24 then fpPack s (BitVec.ofNat 8 (top - 170)) 0#23
    else if n < 2 ^ 23 then fpPack s 0#8 (BitVec.ofNat 23 n)
    else fpPack s (BitVec.ofNat 8 (top - 171)) (BitVec.ofNat 23 n)

/-! ### Primitives on values; `none` where the rule says "returns NaN" -/

/-- `fmul32` (R133). -/
def fmulVal (a b : Word) : Option Word :=
  let s := xor (fpSign a) (fpSign b)
  if isNaN a || isNaN b then none
  else if (isInf a && isZero b) || (isZero a && isInf b) then none
  else if isInf a || isInf b then some (fpInf s)
  else some (round32 (fpVal a * fpVal b) s)

/-- `fadd32` (R134). -/
def faddVal (a b : Word) : Option Word :=
  if isNaN a || isNaN b then none
  else if isInf a && isInf b then (if fpSign a = fpSign b then some a else none)
  else if isInf a then some a
  else if isInf b then some b
  else
    let x := fpVal a + fpVal b
    if x = 0 then
      if isZero a && isZero b then some (fpZero (fpSign a && fpSign b)) else some 0x00000000#32
    else some (round32 (x * 2 ^ 149) false)

/-- `fma32` (R135). -/
def fmaVal (a b c : Word) : Option Word :=
  let s := xor (fpSign a) (fpSign b)
  if isNaN a || isNaN b || isNaN c then none
  else if (isInf a && isZero b) || (isZero a && isInf b) then none
  else if isInf a || isInf b then (if isInf c && (fpSign c != s) then none else some (fpInf s))
  else if isInf c then some c
  else
    let p := fpVal a * fpVal b
    let x := p + fpVal c * 2 ^ 149
    if x = 0 then
      if p = 0 ∧ isZero c then some (fpZero (s && fpSign c)) else some 0x00000000#32
    else some (round32 x false)

/-! ### NaN results (R132): each operation gives its word and the count of free values drawn so far -/

/-- The canonical quiet NaN. -/
def canonicalNaN : Word := 0x7FC00000#32

/-- The NaN an operation returns: the canonical one, or a free draw with `e = 255` and `f[22] = 1`. -/
def nanResult (p : NanPolicy) (draws : Nat) : Word × Nat :=
  match p with
  | .canonical => (canonicalNaN, draws)
  | .anyQuiet  => (Config.nanDraw draws ||| canonicalNaN, draws + 1)

/-- The word of a result, a NaN by the policy. -/
def settle (p : NanPolicy) (draws : Nat) (r : Option Word) : Word × Nat :=
  match r with
  | some w => (w, draws)
  | none   => nanResult p draws

/-- `FMUL32` (R133). -/
def fmul32 (p : NanPolicy) (draws : Nat) (a b : Word) : Word × Nat := settle p draws (fmulVal a b)

/-- `FADD32` (R134). -/
def fadd32 (p : NanPolicy) (draws : Nat) (a b : Word) : Word × Nat := settle p draws (faddVal a b)

/-- `FMA32` (R135). -/
def fma32 (p : NanPolicy) (draws : Nat) (a b c : Word) : Word × Nat := settle p draws (fmaVal a b c)

/-- `MAC`, one accumulation step (R136): in `separate` mode the product is rounded, then the sum with the accumulator on the
left; in `fused` mode one rounding. -/
def mac (mode : MacMode) (p : NanPolicy) (draws : Nat) (acc a b : Word) : Word × Nat :=
  match mode with
  | .separate =>
    let m := fmul32 p draws a b
    fadd32 p m.2 acc m.1
  | .fused    => fma32 p draws a b acc

/-! ### The primitives as operations (R90; log 8): the value goes to the host, nothing else changes -/

/-- The host binds the value of a primitive, whose draws are counted. -/
def bindFp (r : Word × Nat) (s : State) : State := { s.bind r.1 with draws := r.2 }

/-- `FMUL32`. -/
def execFmul32 (a b : Word) (s : State) : Result := .next (bindFp (fmul32 s.cfg.nanPolicy s.draws a b) s)

/-- `FADD32`. -/
def execFadd32 (a b : Word) (s : State) : Result := .next (bindFp (fadd32 s.cfg.nanPolicy s.draws a b) s)

/-- `FMA32`. -/
def execFma32 (a b c : Word) (s : State) : Result := .next (bindFp (fma32 s.cfg.nanPolicy s.draws a b c) s)

/-- `MAC`. -/
def execMac (acc a b : Word) (s : State) : Result :=
  .next (bindFp (mac s.cfg.macMode s.cfg.nanPolicy s.draws acc a b) s)

end Sys2Proof.Machine
end

