-- ==== Sys2Proof/Machine/Kernel.lean ====
section
/-! DEFINITION. The Compute Kernel's four steps (42_compute_kernel.md R161 to R165). A step that is not selected or not enabled
leaves the state unchanged (00_scope.md R9). -/

namespace Sys2Proof.Machine

/-- The code of a phase (10_state.md R21). -/
def phaseCode : Phase → BitVec 2
  | .loadA   => 0#2
  | .loadB   => 1#2
  | .compute => 2#2
  | .store   => 3#2

/-- The phase of a code (10_state.md R21). -/
def phaseOfCode (code : BitVec 2) : Phase :=
  match code with
  | 0#2 => .loadA
  | 1#2 => .loadB
  | 2#2 => .compute
  | 3#2 => .store

/-- The phase after a phase's last element (42_compute_kernel.md R165). -/
def nextPhase : Phase → Phase
  | .loadA   => .loadB
  | .loadB   => .compute
  | .compute => .store
  | .store   => .loadA

/-- The sequencer moves on by one position (10_state.md R29). -/
def advance (c : Config) (k : Kernel) : Kernel :=
  if lastIndex c k.idx then { k with phase := nextPhase k.phase, idx := 0 } else { k with idx := k.idx + 1 }

/-- `acc` after the first `m` accumulation steps of cell `[ia][ib]`, in ascending `k` from `+0.0` (41_fp_numerics.md R137), with
the count of NaN draws; `none` where a storage cell has not been written since reset (70_reset_and_hazards.md R292). -/
def accumulate (c : Config) (a b : Cells) (draws ia ib : Nat) : Nat → Option (Word × Nat)
  | 0     => some (0x00000000#32, draws)
  | m + 1 =>
    match accumulate c a b draws ia ib m, lookup (cellIndex c ia m) a, lookup (cellIndex c m ib) b with
    | some acc, some x, some y => some (mac c.macMode c.nanPolicy acc.2 acc.1 x y)
    | _, _, _                  => none

/-- `K.LOAD_A` (R161). -/
def execKLoadA (s : State) : Result :=
  if s.k.phase = .loadA then
    match s.inq with
    | []     => .next s
    | w :: q => .next { s with inq := q, k := advance s.cfg { s.k with a := insertAt s.k.idx (decodeWord w) s.k.a } }
  else .next s

/-- `K.LOAD_B` (R162). -/
def execKLoadB (s : State) : Result :=
  if s.k.phase = .loadB then
    match s.inq with
    | []     => .next s
    | w :: q => .next { s with inq := q, k := advance s.cfg { s.k with b := insertAt s.k.idx (decodeWord w) s.k.b } }
  else .next s

/-- `K.CELL` (R163). -/
def execKCell (s : State) : Result :=
  if s.k.phase = .compute then
    match accumulate s.cfg s.k.a s.k.b s.draws (rowOf s.cfg s.k.idx) (colOf s.cfg s.k.idx) s.cfg.dim with
    | some acc =>
      .next { s with k := advance s.cfg { s.k with out := insertAt s.k.idx acc.1 s.k.out }, draws := acc.2 }
    | none     => .fault .unwrittenCell
  else .next s

/-- `K.STORE` (R164). -/
def execKStore (s : State) : Result :=
  if s.k.phase = .store then
    if hasRoom s.outq s.cfg.outDepth then
      match lookup s.k.idx s.k.out with
      | some v =>
        .next { s with outq := s.outq ++ [encodeWord v (lastIndex s.cfg s.k.idx)], k := advance s.cfg s.k }
      | none   => .fault .unwrittenCell
    else .next s
  else .next s

end Sys2Proof.Machine
end

