-- ==== Sys2Proof/Machine/Registers.lean ====
section
/-! DEFINITION. The host's register transactions (43_transfer_engine.md R191 to R197, R205). -/

namespace Sys2Proof.Machine

/-! ### The operations, once for both channels -/

/-- `RegRead(c_CTRL)` (R191). -/
def readCtrl (c : Chan) (s : State) : Word := ctrlWord (s.chan c)

/-- `RegRead(c_STATUS)` (R191). -/
def readStatus (c : Chan) (s : State) : Word := statusWord s.cfg.sgMode (s.chan c)

/-- `RegRead(c_ADDR)` (R191). -/
def readAddr (c : Chan) (s : State) : Word := (s.chan c).addr

/-- `RegRead(c_LEN)` (R191). -/
def readLen (c : Chan) (s : State) : Word := (s.chan c).len

/-- `RegRead(c_XFER)` (R191). -/
def readXfer (c : Chan) (s : State) : Word := (s.chan c).xfer

/-- `RegRead` of a reserved offset (R197). -/
def readReserved : Word := 0x00000000#32

/-- `WR c_CTRL` (R192). -/
def writeCtrl (c : Chan) (v : Word) (s : State) : State :=
  s.setChan c { s.chan c with ieDone := v.getLsbD 0, ieErr := v.getLsbD 1 }

/-- `WR c_STATUS` (R193). -/
def writeStatus (c : Chan) (v : Word) (s : State) : State :=
  if v.getLsbD 1 then s.setChan c { s.chan c with done := false } else s

/-- `WR c_ADDR` (R194); on a scatter-gather build a model refuses it (R205, U4). -/
def writeAddr (c : Chan) (v : Word) (s : State) : Result :=
  if s.cfg.sgMode then .refused (.scatterGatherBuild c)
  else if accepts (s.chan c) then .next (s.setChan c { s.chan c with addr := v })
  else .next s

/-- `WR c_LEN`, the start command (R195); on a scatter-gather build a model refuses it (R205, U4). -/
def writeLen (c : Chan) (v : Word) (s : State) : Result :=
  if s.cfg.sgMode then .refused (.scatterGatherBuild c)
  else if accepts (s.chan c) then
    let t := s.setChan c { s.chan c with len := v, xfer := 0#32, done := false }
    match startError (s.chan c).addr v with
    | some code => .next (raiseError c code t)
    | none      => .next (t.setChan c { t.chan c with busy := true })
  else .next s

/-- A write that has no effect (R196, R197). -/
def ignoreWrite (_v : Word) (s : State) : State := s

/-! ### Reads -/

/-- `RD TX_CTRL`. -/
def execRdTxCtrl (s : State) : Result := .next (s.bind (readCtrl .tx s))
/-- `RD TX_STATUS`. -/
def execRdTxStatus (s : State) : Result := .next (s.bind (readStatus .tx s))
/-- `RD TX_ADDR`. -/
def execRdTxAddr (s : State) : Result := .next (s.bind (readAddr .tx s))
/-- `RD TX_LEN`. -/
def execRdTxLen (s : State) : Result := .next (s.bind (readLen .tx s))
/-- `RD TX_XFER`. -/
def execRdTxXfer (s : State) : Result := .next (s.bind (readXfer .tx s))
/-- `RD RX_CTRL`. -/
def execRdRxCtrl (s : State) : Result := .next (s.bind (readCtrl .rx s))
/-- `RD RX_STATUS`. -/
def execRdRxStatus (s : State) : Result := .next (s.bind (readStatus .rx s))
/-- `RD RX_ADDR`. -/
def execRdRxAddr (s : State) : Result := .next (s.bind (readAddr .rx s))
/-- `RD RX_LEN`. -/
def execRdRxLen (s : State) : Result := .next (s.bind (readLen .rx s))
/-- `RD RX_XFER`. -/
def execRdRxXfer (s : State) : Result := .next (s.bind (readXfer .rx s))
/-- `RD RSVD_14`. -/
def execRdRsvd14 (s : State) : Result := .next (s.bind readReserved)
/-- `RD RSVD_18`. -/
def execRdRsvd18 (s : State) : Result := .next (s.bind readReserved)
/-- `RD RSVD_1C`. -/
def execRdRsvd1C (s : State) : Result := .next (s.bind readReserved)
/-- `RD RSVD_34`. -/
def execRdRsvd34 (s : State) : Result := .next (s.bind readReserved)
/-- `RD RSVD_38`. -/
def execRdRsvd38 (s : State) : Result := .next (s.bind readReserved)
/-- `RD RSVD_3C`. -/
def execRdRsvd3C (s : State) : Result := .next (s.bind readReserved)

/-! ### Writes -/

/-- `WR TX_CTRL`. -/
def execWrTxCtrl (v : Word) (s : State) : Result := .next (writeCtrl .tx v s)
/-- `WR TX_STATUS`. -/
def execWrTxStatus (v : Word) (s : State) : Result := .next (writeStatus .tx v s)
/-- `WR TX_ADDR`. -/
def execWrTxAddr (v : Word) (s : State) : Result := writeAddr .tx v s
/-- `WR TX_LEN`. -/
def execWrTxLen (v : Word) (s : State) : Result := writeLen .tx v s
/-- `WR TX_XFER`. -/
def execWrTxXfer (v : Word) (s : State) : Result := .next (ignoreWrite v s)
/-- `WR RX_CTRL`. -/
def execWrRxCtrl (v : Word) (s : State) : Result := .next (writeCtrl .rx v s)
/-- `WR RX_STATUS`. -/
def execWrRxStatus (v : Word) (s : State) : Result := .next (writeStatus .rx v s)
/-- `WR RX_ADDR`. -/
def execWrRxAddr (v : Word) (s : State) : Result := writeAddr .rx v s
/-- `WR RX_LEN`. -/
def execWrRxLen (v : Word) (s : State) : Result := writeLen .rx v s
/-- `WR RX_XFER`. -/
def execWrRxXfer (v : Word) (s : State) : Result := .next (ignoreWrite v s)
/-- `WR RSVD_14`. -/
def execWrRsvd14 (v : Word) (s : State) : Result := .next (ignoreWrite v s)
/-- `WR RSVD_18`. -/
def execWrRsvd18 (v : Word) (s : State) : Result := .next (ignoreWrite v s)
/-- `WR RSVD_1C`. -/
def execWrRsvd1C (v : Word) (s : State) : Result := .next (ignoreWrite v s)
/-- `WR RSVD_34`. -/
def execWrRsvd34 (v : Word) (s : State) : Result := .next (ignoreWrite v s)
/-- `WR RSVD_38`. -/
def execWrRsvd38 (v : Word) (s : State) : Result := .next (ignoreWrite v s)
/-- `WR RSVD_3C`. -/
def execWrRsvd3C (v : Word) (s : State) : Result := .next (ignoreWrite v s)

end Sys2Proof.Machine
end

