-- ==== Sys2Proof/Machine/Procedures.lean ====
section
/-! DEFINITION. The host procedures (44_host_procedures.md R241 to R247). One call makes the procedure's next register access,
`host.pos` counting those made, since hardware steps may fall between any two (R240); the tests of a value read are
made with the read, and the call that ends the procedure sets `host.pos` to 0 and `host.ret` to what it returns. -/

namespace Sys2Proof.Machine

/-- One read of a `POLL c_STATUS, 1, 0` (R247): while `BUSY = 1` the procedure stays where it is; then `ERR` fails it with
the code read, or it goes on (R244, R245). -/
def pollThen (c : Chan) (goOn : State → State) (s : State) : State :=
  let v := readStatus c s
  let t := s.bind v
  if statusBusy v then t
  else if statusErr v then t.ret (.transferError (statusCode v))
  else goOn t

/-- `WR c_ADDR` as a procedure's access, then position `n`. -/
def addrThen (c : Chan) (v : Word) (n : Nat) (s : State) : Result :=
  andThen (writeAddr c v s) fun t => .next (t.atPos n)

/-- `WR c_LEN` as a procedure's access, then position `n`. -/
def lenThen (c : Chan) (v : Word) (n : Nat) (s : State) : Result :=
  andThen (writeLen c v s) fun t => .next (t.atPos n)

/-- A read of `c_STATUS` and the test of its `SG` bit, then position `n` (R241). -/
def checkSgThen (c : Chan) (n : Nat) (s : State) : State :=
  let v := readStatus c s
  let t := s.bind v
  if statusSg v then t.ret .configurationError else t.atPos n

/-- `INIT` (R241): presence, the two `SG` tests, the two writes that disable the interrupt sources. -/
def execInit (s : State) : Result :=
  match s.host.pos with
  | 0 => if s.cfg.btcPresent then .next (checkSgThen .tx 1 s) else .next (s.ret .configurationError)
  | 1 => .next (checkSgThen .rx 2 s)
  | 2 => .next ((writeCtrl .tx 0x00000000#32 s).atPos 3)
  | _ => .next ((writeCtrl .rx 0x00000000#32 s).ret .ok)

/-- `IS_SG` (R242). -/
def execIsSg (s : State) : Result :=
  let v := readStatus .tx s
  .next ((s.bind v).ret (.bool (statusSg v)))

/-- `DISABLE_IRQ dir` (R243). -/
def execDisableIrq (dir : Chan) (s : State) : Result := .next ((writeCtrl dir 0x00000000#32 s).ret .ok)

/-- `TRANSMIT addr, len` (R244). -/
def execTransmit (addr len : Word) (s : State) : Result :=
  match s.host.pos with
  | 0 => addrThen .tx addr 1 s
  | 1 => lenThen .tx len 2 s
  | _ => .next (pollThen .tx (fun t => t.ret .ok) s)

/-- `RECEIVE addr, len` (R245). -/
def execReceive (addr len : Word) (s : State) : Result :=
  match s.host.pos with
  | 0 => addrThen .rx addr 1 s
  | 1 => lenThen .rx len 2 s
  | _ => .next (pollThen .rx (fun t => t.ret .ok) s)

/-- `OFFLOAD inbuf, outbuf` (R246): `TRANSMIT inbuf, 8*N`, then `RECEIVE outbuf, 4*N`; a failing step skips the rest. -/
def execOffload (inbuf outbuf : Word) (s : State) : Result :=
  match s.host.pos with
  | 0 => addrThen .tx inbuf 1 s
  | 1 => lenThen .tx (inputLen s.cfg) 2 s
  | 2 => .next (pollThen .tx (fun t => t.atPos 3) s)
  | 3 => addrThen .rx outbuf 4 s
  | 4 => lenThen .rx (outputLen s.cfg) 5 s
  | _ => .next (pollThen .rx (fun t => t.ret .ok) s)

end Sys2Proof.Machine
end

