-- ==== Sys2Proof/Machine/Dispatch.lean ====
section
/-! DEFINITION. The meaning of every operation (30_encoding.md R102): one arm per constructor, one direct call each. -/

namespace Sys2Proof.Machine

def exec (i : Instr) (s : State) : Host.Outcome State Fault Refusal :=
  match i with
  | .encode v l           => Sys2Proof.Machine.execEncode v l s
  | .decode w             => Sys2Proof.Machine.execDecode w s
  | .fmul32 a b           => Sys2Proof.Machine.execFmul32 a b s
  | .fadd32 a b           => Sys2Proof.Machine.execFadd32 a b s
  | .fma32 a b c          => Sys2Proof.Machine.execFma32 a b c s
  | .mac acc a b          => Sys2Proof.Machine.execMac acc a b s
  | .kLoadA               => Sys2Proof.Machine.execKLoadA s
  | .kLoadB               => Sys2Proof.Machine.execKLoadB s
  | .kCell                => Sys2Proof.Machine.execKCell s
  | .kStore               => Sys2Proof.Machine.execKStore s
  | .rdTxCtrl             => Sys2Proof.Machine.execRdTxCtrl s
  | .rdTxStatus           => Sys2Proof.Machine.execRdTxStatus s
  | .rdTxAddr             => Sys2Proof.Machine.execRdTxAddr s
  | .rdTxLen              => Sys2Proof.Machine.execRdTxLen s
  | .rdTxXfer             => Sys2Proof.Machine.execRdTxXfer s
  | .rdRxCtrl             => Sys2Proof.Machine.execRdRxCtrl s
  | .rdRxStatus           => Sys2Proof.Machine.execRdRxStatus s
  | .rdRxAddr             => Sys2Proof.Machine.execRdRxAddr s
  | .rdRxLen              => Sys2Proof.Machine.execRdRxLen s
  | .rdRxXfer             => Sys2Proof.Machine.execRdRxXfer s
  | .wrTxCtrl v           => Sys2Proof.Machine.execWrTxCtrl v s
  | .wrTxStatus v         => Sys2Proof.Machine.execWrTxStatus v s
  | .wrTxAddr v           => Sys2Proof.Machine.execWrTxAddr v s
  | .wrTxLen v            => Sys2Proof.Machine.execWrTxLen v s
  | .wrTxXfer v           => Sys2Proof.Machine.execWrTxXfer v s
  | .wrRxCtrl v           => Sys2Proof.Machine.execWrRxCtrl v s
  | .wrRxStatus v         => Sys2Proof.Machine.execWrRxStatus v s
  | .wrRxAddr v           => Sys2Proof.Machine.execWrRxAddr v s
  | .wrRxLen v            => Sys2Proof.Machine.execWrRxLen v s
  | .wrRxXfer v           => Sys2Proof.Machine.execWrRxXfer v s
  | .rdRsvd14             => Sys2Proof.Machine.execRdRsvd14 s
  | .wrRsvd14 v           => Sys2Proof.Machine.execWrRsvd14 v s
  | .rdRsvd18             => Sys2Proof.Machine.execRdRsvd18 s
  | .wrRsvd18 v           => Sys2Proof.Machine.execWrRsvd18 v s
  | .rdRsvd1C             => Sys2Proof.Machine.execRdRsvd1C s
  | .wrRsvd1C v           => Sys2Proof.Machine.execWrRsvd1C v s
  | .rdRsvd34             => Sys2Proof.Machine.execRdRsvd34 s
  | .wrRsvd34 v           => Sys2Proof.Machine.execWrRsvd34 v s
  | .rdRsvd38             => Sys2Proof.Machine.execRdRsvd38 s
  | .wrRsvd38 v           => Sys2Proof.Machine.execWrRsvd38 v s
  | .rdRsvd3C             => Sys2Proof.Machine.execRdRsvd3C s
  | .wrRsvd3C v           => Sys2Proof.Machine.execWrRsvd3C v s
  | .txBeat               => Sys2Proof.Machine.execTxBeat s
  | .rxBeat               => Sys2Proof.Machine.execRxBeat s
  | .init                 => Sys2Proof.Machine.execInit s
  | .isSg                 => Sys2Proof.Machine.execIsSg s
  | .disableIrq dir       => Sys2Proof.Machine.execDisableIrq dir s
  | .transmit addr len    => Sys2Proof.Machine.execTransmit addr len s
  | .receive addr len     => Sys2Proof.Machine.execReceive addr len s
  | .offload inbuf outbuf => Sys2Proof.Machine.execOffload inbuf outbuf s

end Sys2Proof.Machine
end

