-- ==== Sys2Proof/Machine/Agents.lean ====
section
/-! DEFINITION. What a step of each agent is (00_scope.md R8, R9; 44_host_procedures.md R240), and how a packed form is placed
so that the next step performs it. -/

namespace Sys2Proof.Machine

/-! ### The hardware agents -/

/-- A channel's step: the one its `BUSY` selects; with `BUSY = 0` it has none and waits (30_encoding.md R98). -/
def stepChannel (c : Chan) (s : State) : Result :=
  match decode (.chstep c (BitVec.ofBool (s.chan c).busy)) with
  | .ok i    => exec i s
  | .error _ => .next s

/-- The kernel's step: the one `K.phase` selects (30_encoding.md R98). -/
def stepKernel (s : State) : Result := exec (decodeKstep (phaseCode s.k.phase)) s

/-! ### The host -/

/-- The formats the host can select: register transactions and procedures, and the combinational functions (log 8). The
kernel's and the channels' steps are theirs alone (44_host_procedures.md R240). -/
def hostSelects : OpWord → Bool
  | .sw _ _     => true
  | .bus _      => true
  | .kstep _    => false
  | .chstep _ _ => false
  | .prim _ _   => true
  | .pseudo _ _ => true

/-- Why the host's word is refused: a misaligned register access has a name of its own (10_state.md R38, U9). -/
def refusalOf : DecodeError → Refusal
  | .misalignedOffset       => .registerAccessForm
  | .sideFieldsNotCanonical => .selectsNothing .sideFieldsNotCanonical
  | .channelHasNoStep       => .selectsNothing .channelHasNoStep
  | .badOperands            => .selectsNothing .badOperands

/-- The host performs the operation a packed form selects. -/
def hostWord (w : OpWord) (s : State) : Result :=
  if hostSelects w then
    match decode w with
    | .ok i    => exec i s
    | .error e => .refused (refusalOf e)
  else .refused .notAHostOperation

/-- The offset of a host address in the register block. -/
def blockOffset (c : Config) (a : Word) : BitVec 6 := BitVec.ofNat 6 (a.toNat - btcBase c)

/-- A host load of a 32-bit word: a register read at a word address of the register block (20_memory.md R60, R65), refused where
it touches the block in any other way, also from up to 3 bytes below it (10_state.md R38, U9; log 12), host memory elsewhere
(R61), a fault outside it (log 13). -/
def hostLoad (a : Word) (s : State) : Result :=
  if inRegisterBlock s.cfg a.toNat then hostWord (encodeRead (blockOffset s.cfg a)) s
  else if touchesRegisterBlock s.cfg a.toNat then .refused .registerAccessForm
  else if mappedWord s.cfg a.toNat then .next (s.bind (Memory.readWord s.mem a.toNat))
  else .fault (.hostAccessOutsideMemory a)

/-- A host store of a 32-bit word, as a load: a register write, a refusal (log 12), host memory, or a fault (log 13). -/
def hostStore (a v : Word) (s : State) : Result :=
  if inRegisterBlock s.cfg a.toNat then hostWord (encodeWrite (blockOffset s.cfg a) v) s
  else if touchesRegisterBlock s.cfg a.toNat then .refused .registerAccessForm
  else if mappedWord s.cfg a.toNat then .next { s with mem := Memory.writeWord s.mem a.toNat v }
  else .fault (.hostAccessOutsideMemory a)

/-- A host load of a byte (20_memory.md R77); registers are reached by 32-bit accesses only (R65, U9). -/
def hostLoadByte (a : Word) (s : State) : Result :=
  if inRegisterBlock s.cfg a.toNat then .refused .registerAccessForm
  else if mapped s.cfg a.toNat then .next (s.bind ((Memory.readByte s.mem a.toNat).setWidth 32))
  else .fault (.hostAccessOutsideMemory a)

/-- A host store of a byte. -/
def hostStoreByte (a : Word) (v : Byte) (s : State) : Result :=
  if inRegisterBlock s.cfg a.toNat then .refused .registerAccessForm
  else if mapped s.cfg a.toNat then .next { s with mem := Memory.writeByte s.mem a.toNat v }
  else .fault (.hostAccessOutsideMemory a)

/-- The value of `v` among the names bound (30_encoding.md R101). -/
def valueOf (env : List (Nat × Word)) (v : Value) : Option Word :=
  match v with
  | .num w  => some w
  | .name x => lookup x env

/-- The values of all of `vs`. -/
def valuesOf (env : List (Nat × Word)) : List Value → Option (List Word)
  | []      => some []
  | v :: vs =>
    match valueOf env v, valuesOf env vs with
    | some w, some ws => some (w :: ws)
    | _, _            => none

/-- Go on with a value that a name must have been bound to (30_encoding.md R101). -/
def withBound {α : Type} (v : Option α) (f : α → Result) : Result :=
  match v with
  | some w => f w
  | none   => .refused .unboundName

/-- Go on with the value of `v`. -/
def withValue (v : Value) (s : State) (f : Word → Result) : Result := withBound (valueOf s.host.env v) f

/-- The value a line read becomes the value of its name. -/
def nameResult (x : Nat) (r : Result) : Result := andThen r fun t => .next (t.bindName x)

/-- One read of `x = POLL reg, mask, want` (30_encoding.md R101): the line is over when `(x and mask) = want`, else the host is
still at it. Names are valued after the read. -/
def hostPoll (x : Nat) (reg : BitVec 6) (mask want : Value) (s : State) : Result :=
  andThen (nameResult x (hostWord (encodeRead reg) s)) fun t =>
    withValue mask t fun m => withValue want t fun w => .next (t.atPos (if t.host.x &&& m = w then 0 else 1))

/-- Go on with the truth of a condition. -/
def withCond (c : Cond) (s : State) (f : Bool → Result) : Result :=
  match c with
  | .absent             => f !s.cfg.btcPresent
  | .masked v mask want =>
    withValue v s fun a => withValue mask s fun m => withValue want s fun w => f (decide (a &&& m = w))

/-- `FAIL kind` (44_host_procedures.md R250). A name in the kind is valued here, so only where the condition holds (log 23). -/
def failAs (kind : FailKind) (s : State) : Result :=
  match kind with
  | .configurationError   => .next (s.failWith .configurationError)
  | .transferError status => withValue status s fun v => .next (s.failWith (.transferError (statusCode v)))

/-- One host operation. DESIGN CHOICE (log 23): an `IF` line whose condition is false goes on without looking at its kind, also
where the kind uses a name no line has bound. -/
def hostOp (op : HostOp) (s : State) : Result :=
  match op with
  | .op w                 => hostWord w s
  | .wr reg v             => withValue v s fun w => hostWord (encodeWrite reg w) s
  | .rd x reg             => nameResult x (hostWord (encodeRead reg) s)
  | .poll x reg mask want => hostPoll x reg mask want s
  | .st a v               => withValue a s fun b => withValue v s fun w => hostStore b w s
  | .ld x a               => withValue a s fun b => nameResult x (hostLoad b s)
  | .stByte a v           => withValue a s fun b => withValue v s fun w => hostStoreByte b (w.setWidth 8) s
  | .ldByte x a           => withValue a s fun b => nameResult x (hostLoadByte b s)
  | .call p args          => withBound (valuesOf s.host.env args) fun ws => hostWord (.pseudo p ws) s
  | .failIf c kind        => withCond c s fun b => if b then failAs kind s else .next s

/-- The operation at the queue's head is over unless it is a procedure under way. -/
def retire (s : State) : State :=
  if s.host.pos = 0 then { s with host := { s.host with queue := s.host.queue.tail } } else s

/-- The host's step: the operation at the head of its queue; with none the host does nothing. -/
def stepHost (s : State) : Result :=
  match s.host.queue with
  | []      => .next s
  | op :: _ => andThen (hostOp op s) fun t => .next (retire t)

/-! ### The whole machine -/

/-- One step of an agent. -/
def stepAgent (a : Agent) (s : State) : Result :=
  match a with
  | .host   => stepHost s
  | .tx     => stepChannel .tx s
  | .rx     => stepChannel .rx s
  | .kernel => stepKernel s

/-- One step of the machine for a decided turn. -/
def stepTurn (t : Turn) (s : State) : Result :=
  match t with
  | .agent a => stepAgent a s
  | .reset   => .next (hardReset s)

/-- The agents that a stretch of turns leaves out. -/
def leftOut (l : List Agent) : List Agent := [.host, .tx, .rx, .kernel].filter fun a => !l.contains a

/-- A stretch of the free schedule with the agents it leaves out at its end, so that every agent has a turn in it: weak
fairness (00_scope.md R10, 70_reset_and_hazards.md R306, U7; log 2). -/
def fairStretch (p : Agent × List Agent) : List Agent := p.1 :: (p.2 ++ leftOut (p.1 :: p.2))

/-- The turn that comes next, and the state with it taken: a decided one, else the first of a stretch of the free schedule,
whose other turns are then decided. -/
def takeTurn (s : State) : Turn × State :=
  match s.sched with
  | t :: rest => (t, { s with sched := rest })
  | []        =>
    (.agent (Config.schedule s.tick).1,
      { s with sched := (fairStretch (Config.schedule s.tick)).tail.map .agent, tick := s.tick + 1 })

/-- One step: the next turn (00_scope.md R8, U7). -/
def stepMachine (s : State) : Result := stepTurn (takeTurn s).1 (takeTurn s).2

/-! ### Placing a word where the next step finds it (log 9) -/

/-- The agent `a` takes the next step. -/
def State.nextTurn (a : Agent) (s : State) : State := { s with sched := .agent a :: s.sched }

/-- A host word is put at the head of the host's queue; a kernel step is selected by `K.phase` and a channel step by
`c.BUSY`, so those are set. -/
def placeWord (w : OpWord) (s : State) : State :=
  match w with
  | .kstep code       => { s with k := { s.k with phase := phaseOfCode code } }.nextTurn .kernel
  | .chstep .tx busy  => { s with tx := { s.tx with busy := busy == 1#1 } }.nextTurn .tx
  | .chstep .rx busy  => { s with rx := { s.rx with busy := busy == 1#1 } }.nextTurn .rx
  | .sw use bits      => ({ s with host := { s.host with queue := .op (.sw use bits) :: s.host.queue, pos := 0 } }).nextTurn .host
  | .bus bits         => ({ s with host := { s.host with queue := .op (.bus bits) :: s.host.queue, pos := 0 } }).nextTurn .host
  | .prim p args      => ({ s with host := { s.host with queue := .op (.prim p args) :: s.host.queue, pos := 0 } }).nextTurn .host
  | .pseudo p args    => ({ s with host := { s.host with queue := .op (.pseudo p args) :: s.host.queue, pos := 0 } }).nextTurn .host

/-- A word of the opcode table placed for the next step; a word that is none changes nothing. -/
def placeTableWord (s : State) (nbits w : Nat) : State :=
  match tableOpWord nbits w with
  | some op => placeWord op s
  | none    => s

end Sys2Proof.Machine
end

