-- ==== Sys2Proof/Safety.lean ====
section
/-! DEFINITION. What counts as a good state and a finished run: the quiescent state and the end of a run
(70_reset_and_hazards.md R294), enabled agents and fair runs (R306), the invariants of the channels, the streams, the kernel,
host memory and the host (10_state.md R21 to R41), and the contract of a round (42_compute_kernel.md R160), in the terms the
statements use. -/

namespace Sys2Proof.Machine

/-- Between rounds: the clean-entry predicate of a round (R294). -/
abbrev State.Quiescent (s : State) : Prop :=
  s.k.phase = .loadA ∧ s.k.idx = 0 ∧ s.inq = [] ∧ s.outq = [] ∧
    s.tx.busy = false ∧ s.tx.err = false ∧ s.rx.busy = false ∧ s.rx.err = false

/-- The end of a run, where its result may be read (R294): the host's last procedure has returned, and the state is
quiescent. -/
abbrev State.RunOver (s : State) : Prop := s.host.queue = [] ∧ s.host.pos = 0 ∧ s.Quiescent

/-- The agent's step is enabled (00_scope.md R9, 70_reset_and_hazards.md R306): TX with room in `IN`, RX with a word in `OUT`, the
kernel with its input or output available, the host with an operation left. -/
def agentEnabled (a : Agent) (s : State) : Bool :=
  match a with
  | .host   => !s.host.queue.isEmpty
  | .tx     => s.tx.busy && hasRoom s.inq s.cfg.inDepth
  | .rx     => s.rx.busy && !s.outq.isEmpty
  | .kernel =>
    match s.k.phase with
    | .loadA   => !s.inq.isEmpty
    | .loadB   => !s.inq.isEmpty
    | .compute => true
    | .store   => hasRoom s.outq s.cfg.outDepth

/-- `r` is an endless run of the machine. -/
def EndlessRun (r : Nat → State) : Prop := ∀ n, step (r n) = .next (r (n + 1))

/-- Weak fairness of a run (00_scope.md R10, 70_reset_and_hazards.md R306): an agent that stays enabled takes its step. -/
def WeaklyFair (r : Nat → State) : Prop :=
  ∀ (a : Agent) (n : Nat), (∀ m, n ≤ m → agentEnabled a (r m) = true) → ∃ m, n ≤ m ∧ (takeTurn (r m)).1 = .agent a

/-- The invariants of a channel (10_state.md R31, R39; 20_memory.md R76; 60_exceptions.md R261). -/
abbrev Channel.Inv (ch : Channel) : Prop :=
  (ch.busy = true → ch.err = false ∧ ch.done = false ∧ ch.len.toNat % 4 = 0 ∧ ch.addr.toNat % 4 = 0 ∧
    ch.xfer.toNat < ch.len.toNat ∧ ch.xfer.toNat % 4 = 0 ∧ ch.addr.toNat + ch.len.toNat ≤ 2 ^ 32) ∧
  (ch.err = true → ch.busy = false ∧ ch.done = false ∧ ch.errcode ≠ 0#3 ∧ ch.errcode.toNat ≤ 5) ∧
  (ch.err = false → ch.errcode = 0#3)

/-- A stream holds at most its depth (10_state.md R30). -/
abbrev fits (q : List StreamWord) (d : Depth) : Prop :=
  match d with
  | .unbounded     => True
  | .bounded extra => q.length ≤ extra + 1

/-- There is room for one more word, `len < depth` (10_state.md R30). -/
abbrev roomIn (q : List StreamWord) (d : Depth) : Prop :=
  match d with
  | .unbounded     => True
  | .bounded extra => q.length < extra + 1

/-- There is room for `n` more words. -/
abbrev roomFor (n : Nat) (q : List StreamWord) (d : Depth) : Prop :=
  match d with
  | .unbounded     => True
  | .bounded extra => q.length + n ≤ extra + 1

/-- Every word in a stream is as this hardware produces it (30_encoding.md R93), and the stream fits its depth. -/
abbrev StreamInv (q : List StreamWord) (d : Depth) : Prop :=
  (∀ w ∈ q, canonicalWord w = true) ∧ fits q d

/-- The cells `0 .. n-1` have been written. -/
abbrev written (l : Cells) (n : Nat) : Prop := ∀ j < n, (lookup j l).isSome = true

/-- The canonical form of a storage: indexes strictly rising, all of them cells of a `DIM x DIM` array. -/
abbrev cellsWf (c : Config) (l : Cells) : Prop := rising l = true ∧ ∀ e ∈ l, e.1 < c.n

/-- The kernel's storage and sequencer (10_state.md R22; 42_compute_kernel.md R167): what a phase reads has been written. -/
abbrev Kernel.Inv (c : Config) (k : Kernel) : Prop :=
  k.idx < c.n ∧ cellsWf c k.a ∧ cellsWf c k.b ∧ cellsWf c k.out ∧
    match k.phase with
    | .loadA   => written k.a k.idx
    | .loadB   => written k.a c.n ∧ written k.b k.idx
    | .compute => written k.a c.n ∧ written k.b c.n ∧ written k.out k.idx
    | .store   => written k.out c.n

/-- Host memory: the canonical form, within the 32-bit address space (10_state.md R41). -/
abbrev MemInv (m : List Host.Cell) : Prop := Memory.wf m = true ∧ ∀ e ∈ m, e.1 < 2 ^ 32

/-- How many register accesses a procedure makes before its last one (44_host_procedures.md R241 to R246); other operations
make one access at most and are never left half done. -/
def procedureStages : Instr → Nat
  | .init          => 3
  | .transmit _ _  => 2
  | .receive _ _   => 2
  | .offload _ _   => 5
  | _              => 0

/-- How many accesses a packed form's procedure makes before its last one. -/
def wordStages (w : OpWord) : Nat :=
  match decode w with
  | .ok i    => procedureStages i
  | .error _ => 0

/-- The highest position at which the host can be at an operation: a procedure's, 1 at a `POLL` that goes on. -/
def hostStages (env : List (Nat × Word)) : HostOp → Nat
  | .op w         => wordStages w
  | .call p args  =>
    match valuesOf env args with
    | some ws => wordStages (.pseudo p ws)
    | none    => 0
  | .poll _ _ _ _ => 1
  | .wr _ _       => 0
  | .rd _ _       => 0
  | .st _ _       => 0
  | .ld _ _       => 0
  | .stByte _ _   => 0
  | .ldByte _ _   => 0
  | .failIf _ _   => 0

/-- A position other than 0 belongs to the operation at the head of the queue; the names bound are in canonical form. -/
abbrev HostSide.Inv (h : HostSide) : Prop :=
  rising h.env = true ∧
    h.pos ≤ match h.queue with
      | []      => 0
      | op :: _ => hostStages h.env op

/-- The invariant that every step keeps. -/
def State.Inv (s : State) : Prop :=
  s.cfg.wellFormed = true ∧ Kernel.Inv s.cfg s.k ∧ StreamInv s.inq s.cfg.inDepth ∧ StreamInv s.outq s.cfg.outDepth ∧
    Channel.Inv s.tx ∧ Channel.Inv s.rx ∧ MemInv s.mem ∧ HostSide.Inv s.host

/-! ### The register operations of a channel, by channel (10_state.md R32) -/

/-- `RD c_CTRL`. -/
def rdCtrl : Chan → Instr
  | .tx => .rdTxCtrl
  | .rx => .rdRxCtrl

/-- `RD c_STATUS`. -/
def rdStatus : Chan → Instr
  | .tx => .rdTxStatus
  | .rx => .rdRxStatus

/-- `RD c_ADDR`. -/
def rdAddr : Chan → Instr
  | .tx => .rdTxAddr
  | .rx => .rdRxAddr

/-- `RD c_LEN`. -/
def rdLen : Chan → Instr
  | .tx => .rdTxLen
  | .rx => .rdRxLen

/-- `RD c_XFER`. -/
def rdXfer : Chan → Instr
  | .tx => .rdTxXfer
  | .rx => .rdRxXfer

/-- `WR c_CTRL`. -/
def wrCtrl : Chan → Word → Instr
  | .tx => .wrTxCtrl
  | .rx => .wrRxCtrl

/-- `WR c_STATUS`. -/
def wrStatus : Chan → Word → Instr
  | .tx => .wrTxStatus
  | .rx => .wrRxStatus

/-- `WR c_ADDR`. -/
def wrAddr : Chan → Word → Instr
  | .tx => .wrTxAddr
  | .rx => .wrRxAddr

/-- `WR c_LEN`. -/
def wrLen : Chan → Word → Instr
  | .tx => .wrTxLen
  | .rx => .wrRxLen

/-- `WR c_XFER`. -/
def wrXfer : Chan → Word → Instr
  | .tx => .wrTxXfer
  | .rx => .wrRxXfer

/-- `v` is what a read of `c_CTRL` gives (10_state.md R33). -/
def isCtrlView (v : Word) (ch : Channel) : Prop :=
  v.getLsbD 0 = ch.ieDone ∧ v.getLsbD 1 = ch.ieErr ∧ ∀ i, 2 ≤ i → v.getLsbD i = false

/-- `v` is what a read of `c_STATUS` gives (10_state.md R34). -/
def isStatusView (v : Word) (sgMode : Bool) (ch : Channel) : Prop :=
  v.getLsbD 0 = ch.busy ∧ v.getLsbD 1 = ch.done ∧ v.getLsbD 2 = ch.err ∧ v.getLsbD 3 = false ∧
    v.extractLsb' 4 3 = ch.errcode ∧ v.getLsbD 7 = false ∧ v.getLsbD 8 = sgMode ∧ ∀ i, 9 ≤ i → v.getLsbD i = false

/-- `r` is the NaN an operation returns and `d` the count of draws after it (41_fp_numerics.md R132): the canonical one, or one
free draw with `e = 255` and `f[22] = 1`, bits 30:22 all ones. -/
def isReturnedNaN (p : NanPolicy) (draws : Nat) (r : Word) (d : Nat) : Prop :=
  match p with
  | .canonical => r = 0x7FC00000#32 ∧ d = draws
  | .anyQuiet  => r.extractLsb' 22 9 = 0x1FF#9 ∧ d = draws + 1

/-- A finite word: zero, subnormal or normal (41_fp_numerics.md R130). -/
def isFinite (w : Word) : Bool := decide (fpExp w ≠ 255)

/-- `|x - val(w)|` in units of `2^-298`. -/
def fpDistance (x : Int) (w : Word) : Nat := (x - fpVal w * 2 ^ 149).natAbs

/-- The platform lets a channel move the `words` words from byte address `a` on (43_transfer_engine.md R211): every byte is
mapped and no beat meets a bus fault. -/
def beatsPass (c : Config) (dir : Chan) (a words : Nat) : Prop :=
  (∀ b, a ≤ b → b < a + 4 * words → mapped c b = true) ∧ ∀ n < words, busFault c dir (a + 4 * n) = false

/-- The machine run for `n` steps. -/
def run (n : Nat) (s : State) : Result :=
  match n with
  | 0     => .next s
  | n + 1 => andThen (step s) (run n)

/-! ### A round (42_compute_kernel.md R160, R166) -/

/-- `n` steps of the kernel, one after another; other agents' steps do not fall between them. -/
def kernelSteps : Nat → State → Result
  | 0, s     => .next s
  | n + 1, s => andThen (stepKernel s) (kernelSteps n)

/-- The cell sum `acc_m` of a row and a column under `NAN_POLICY = canonical` (41_fp_numerics.md R137). -/
def cellSum (mode : MacMode) (x y : Nat → Word) : Nat → Word
  | 0     => 0x00000000#32
  | m + 1 => (mac mode .canonical 0 (cellSum mode x y m) (x m) (y m)).1

/-- `C[i][j]` of a round whose input frame is `ws` (42_compute_kernel.md R160): `A[i][k]` is word `i*DIM + k`, `B[k][j]` word
`N + k*DIM + j`. -/
def productCell (c : Config) (ws : List StreamWord) (i j : Nat) : Word :=
  cellSum c.macMode (fun k => (ws.map decodeWord).getD (cellIndex c i k) 0#32)
    (fun k => (ws.map decodeWord).getD (c.n + cellIndex c k j) 0#32) c.dim

/-- `multiply_stream(in)` (42_compute_kernel.md R160): the output frame, end-of-frame on its last word alone. -/
def multiplyStream (c : Config) (ws : List StreamWord) : List StreamWord :=
  (List.range c.n).map fun n => encodeWord (productCell c ws (rowOf c n) (colOf c n)) (lastIndex c n)

/-- `A[i][k]` and `B[k][j]` in host memory (20_memory.md R68), and the cell they give (44_host_procedures.md R248). -/
def memoryProduct (c : Config) (m : List Host.Cell) (inbuf i j : Nat) : Word :=
  cellSum c.macMode (fun k => Memory.readWord m (inbuf + 4 * cellIndex c i k))
    (fun k => Memory.readWord m (inbuf + 4 * c.n + 4 * cellIndex c k j)) c.dim

/-- The frame of a transmit of `words` words from address `a` (43_transfer_engine.md R211). -/
def transmitFrame (m : List Host.Cell) (a words : Nat) : List StreamWord :=
  (List.range words).map fun n => encodeWord (Memory.readWord m (a + 4 * n)) (decide (n + 1 = words))

end Sys2Proof.Machine
end

