-- ==== Sys2Proof/Certificates/Slice0/Obligations.lean ====
section
/-! DEFINITION. The statements for the provers. Each cites the rule of spec/ it formalises. -/

open Sys2Proof Sys2Proof.Machine

/-! ### Encodings -/

/-- 30_encoding.md R102, R103: an operation's packed form selects that operation again, with every operand. -/
def Obligations.DecodeEncodeRoundTrip : Prop :=
  ∀ i : Instr, i.wellFormed = true → decode (encode i) = .ok i

/-- 30_encoding.md R96, R98, R99, R103: exactly the well-formed packed forms select an operation. The model's choice: the operand
lists and direction words of PRIM and PSEUDO forms (log 19), and that a read with non-zero data bits is accepted (log 21). -/
def Obligations.DecodesExactlyWellFormedWords : Prop :=
  ∀ w : OpWord, (∃ i, decode w = .ok i) ↔ w.wellFormed = true

/-- 30_encoding.md R96, R102: a packed form that selects `i` is the packed form of `i`, but for the data bits of a read, which
are absent. The model's choice: that a read packed with non-zero data bits still selects the read (log 21), and the PRIM and
PSEUDO forms (log 19). -/
def Obligations.EncodeOfDecodedWord : Prop :=
  ∀ (w : OpWord) (i : Instr), decode w = .ok i →
    encode i = w ∨ ∃ bits, w = .bus bits ∧ bits.getLsbD 38 = false ∧ encode i = .bus (bits &&& 0x7F00000000#39)

/-- Words of the spec: 95_test_vectors.md P1 and 2.1, 30_encoding.md R96, R98. -/
def Obligations.SpecWordsDecode : Prop :=
  decode (.bus 0x0400000000#39) = .ok .rdTxStatus ∧ decode (.bus 0x6000000000#39) = .ok (.wrRxCtrl 0#32) ∧
  decode (.bus 0x4C00000020#39) = .ok (.wrTxLen 0x20#32) ∧ decode (.bus 0x6800002000#39) = .ok (.wrRxAddr 0x2000#32) ∧
  decode (.bus 0x7CFFFFFFFF#39) = .ok (.wrRsvd3C 0xFFFFFFFF#32) ∧ decode (.bus 0x0500000000#39) = .error .misalignedOffset ∧
  decode (.sw .produced 0x4000F3F800000#51) = .ok (.encode 0x3F800000#32 true) ∧
  decode (.sw .accepted 0x7FFF0FFC00001#51) = .ok (.decode ⟨0xFFC00001#32, 0#4, 15#4, 31#5, 31#5, true⟩) ∧
  decode (.kstep 2#2) = .ok .kCell ∧ decode (.chstep .rx 1#1) = .ok .rxBeat ∧
  decode (.chstep .tx 0#1) = .error .channelHasNoStep

/-! ### The step -/

/-- 44_host_procedures.md R240, 30_encoding.md R101: on the host's turn the operation at the head of its queue is performed, and
it leaves the queue unless it is under way; a packed form performs the operation it selects; `WR`, `RD`, `POLL` and the calls
perform the operations of the table they stand for; `RD` and `POLL` bind their name; `IF` goes on, or ends the program with
the error. A kernel's or a channel's step in the queue is refused: the host has no other way to act on the hardware (R240).
The model's choices: the queue, the position, what is left of the program after `FAIL`, and the refusal by name of such a
step (log 3); numbers as names, their values taken after the read of a `POLL`, the refusal of an unbound one, and that an
`IF` line whose condition is false goes on whatever its kind names (log 23). -/
def Obligations.HostStepRunsQueueHead : Prop :=
  (∀ (s : State) (rest : List Turn) (op : HostOp) (q : List HostOp),
    s.sched = .agent .host :: rest → s.host.queue = op :: q →
    (∀ t, hostOp op { s with sched := rest } = .next t →
      (t.host.pos = 0 → step s = .next { t with host := { t.host with queue := t.host.queue.tail } }) ∧
      (t.host.pos ≠ 0 → step s = .next t)) ∧
    (∀ e, hostOp op { s with sched := rest } = .fault e → step s = .fault e) ∧
    (∀ e, hostOp op { s with sched := rest } = .refused e → step s = .refused e)) ∧
  (∀ (s : State) (w : OpWord) (i : Instr), hostSelects w = true → decode w = .ok i → hostOp (.op w) s = exec i s) ∧
  (∀ (s : State) (reg : BitVec 6) (v : Value) (w : Word) (i : Instr),
    valueOf s.host.env v = some w → decode (encodeWrite reg w) = .ok i → hostOp (.wr reg v) s = exec i s) ∧
  (∀ (s t : State) (x : Nat) (reg : BitVec 6) (i : Instr), decode (encodeRead reg) = .ok i → exec i s = .next t →
    ∃ env, lookup x env = some t.host.x ∧ (∀ y, y ≠ x → lookup y env = lookup y s.host.env) ∧
      hostOp (.rd x reg) s = .next { t with host := { t.host with env := env } } ∧
      (∀ (mask want : Value) (m w : Word), valueOf env mask = some m → valueOf env want = some w →
        hostOp (.poll x reg mask want) s =
          .next { t with host := { t.host with env := env, pos := if t.host.x &&& m = w then 0 else 1 } }) ∧
      ∀ mask want : Value, valueOf env mask = none ∨ valueOf env want = none →
        hostOp (.poll x reg mask want) s = .refused .unboundName) ∧
  (∀ (s : State) (p : Proc) (args : List Value) (ws : List Word) (i : Instr),
    valuesOf s.host.env args = some ws → decode (.pseudo p ws) = .ok i → hostOp (.call p args) s = exec i s) ∧
  (∀ (s : State) (v mask want st : Value) (a m w c : Word),
    valueOf s.host.env v = some a → valueOf s.host.env mask = some m → valueOf s.host.env want = some w →
    valueOf s.host.env st = some c →
    (a &&& m ≠ w → ∀ kind, hostOp (.failIf (.masked v mask want) kind) s = .next s) ∧
    (a &&& m = w →
      hostOp (.failIf (.masked v mask want) .configurationError) s =
        .next { s with host := { s.host with queue := [], pos := 0, ret := .configurationError } } ∧
      hostOp (.failIf (.masked v mask want) (.transferError st)) s =
        .next { s with host := { s.host with queue := [], pos := 0, ret := .transferError (c.extractLsb' 4 3) } })) ∧
  (∀ s : State,
    (s.cfg.btcPresent = true → ∀ kind, hostOp (.failIf .absent kind) s = .next s) ∧
    (s.cfg.btcPresent = false →
      hostOp (.failIf .absent .configurationError) s =
        .next { s with host := { s.host with queue := [], pos := 0, ret := .configurationError } } ∧
      ∀ st c, valueOf s.host.env st = some c → hostOp (.failIf .absent (.transferError st)) s =
        .next { s with host := { s.host with queue := [], pos := 0, ret := .transferError (c.extractLsb' 4 3) } })) ∧
  (∀ (s : State) (v : Value), valueOf s.host.env v = none →
    (∀ reg, hostOp (.wr reg v) s = .refused .unboundName) ∧
    (∀ u, hostOp (.st v u) s = .refused .unboundName ∧ hostOp (.st u v) s = .refused .unboundName ∧
      hostOp (.stByte v u) s = .refused .unboundName ∧ hostOp (.stByte u v) s = .refused .unboundName) ∧
    (∀ x, hostOp (.ld x v) s = .refused .unboundName ∧ hostOp (.ldByte x v) s = .refused .unboundName) ∧
    (∀ p args, v ∈ args → hostOp (.call p args) s = .refused .unboundName) ∧
    (∀ a b c kind, v = a ∨ v = b ∨ v = c → hostOp (.failIf (.masked a b c) kind) s = .refused .unboundName) ∧
    (∀ (a b c : Value) (x m : Word), valueOf s.host.env a = some x → valueOf s.host.env b = some m →
      valueOf s.host.env c = some (x &&& m) →
      hostOp (.failIf (.masked a b c) (.transferError v)) s = .refused .unboundName) ∧
    (s.cfg.btcPresent = false → hostOp (.failIf .absent (.transferError v)) s = .refused .unboundName)) ∧
  ∀ s : State, (∀ code, hostOp (.op (.kstep code)) s = .refused .notAHostOperation) ∧
    ∀ c busy, hostOp (.op (.chstep c busy)) s = .refused .notAHostOperation

/-- 30_encoding.md R98: on its turn the kernel performs the step `K.phase` selects, a busy channel its beat; an idle channel
has no step and waits. 00_scope.md R9: an agent that is not enabled changes nothing on its turn. That a wait is a turn which
changes nothing is the model's choice (log 2). -/
def Obligations.HardwareStepRunsSelectedStep : Prop :=
  (∀ (s : State) (rest : List Turn),
    (s.sched = .agent .kernel :: rest →
      (s.k.phase = .loadA → step s = exec .kLoadA { s with sched := rest }) ∧
      (s.k.phase = .loadB → step s = exec .kLoadB { s with sched := rest }) ∧
      (s.k.phase = .compute → step s = exec .kCell { s with sched := rest }) ∧
      (s.k.phase = .store → step s = exec .kStore { s with sched := rest })) ∧
    (s.sched = .agent .tx :: rest →
      (s.tx.busy = true → step s = exec .txBeat { s with sched := rest }) ∧
      (s.tx.busy = false → step s = .next { s with sched := rest })) ∧
    (s.sched = .agent .rx :: rest →
      (s.rx.busy = true → step s = exec .rxBeat { s with sched := rest }) ∧
      (s.rx.busy = false → step s = .next { s with sched := rest }))) ∧
  ∀ (s : State) (rest : List Turn) (a : Agent), s.sched = .agent a :: rest → agentEnabled a s = false →
    step s = .next { s with sched := rest }

/-- 00_scope.md R8, R10, 70_reset_and_hazards.md R306: where no turn is decided, the step is that of some agent, one of a stretch
of turns in which every agent has one; so in every endless run every agent has a turn again and again, and the run is weakly
fair. Decided turns and stretches of a free schedule are the model's choice (log 2). -/
def Obligations.FreeScheduleStepsOneAgent : Prop :=
  (∀ s : State, s.sched = [] → ∃ (a : Agent) (l : List Agent), (∀ b : Agent, b = a ∨ b ∈ l) ∧
    step s = step { s with sched := .agent a :: l.map .agent, tick := s.tick + 1 }) ∧
  ∀ r : Nat → State, EndlessRun r →
    (∀ (a : Agent) (n : Nat), ∃ m, n ≤ m ∧ (takeTurn (r m)).1 = .agent a) ∧ WeaklyFair r

/-- Log 9: a word of the opcode table placed for the next step is performed by it, from the state as it is but for what selects
the operation: the kernel's phase, TX's `BUSY`, or the word at the head of the host's queue, which it then leaves. -/
def Obligations.PlacedWordRunsNext : Prop :=
  ∀ (s : State) (nbits w : Nat) (i : Instr), decodeTableWord nbits w = some i →
    (∃ p, decodeKstep (phaseCode p) = i ∧
      step (s.withFetchWord nbits w) = exec i { s with k := { s.k with phase := p } }) ∨
    (i = .txBeat ∧ step (s.withFetchWord nbits w) = exec .txBeat { s with tx := { s.tx with busy := true } }) ∨
    ∃ op, hostSelects op = true ∧ decode op = .ok i ∧
      step (s.withFetchWord nbits w) =
        andThen (exec i { s with host := { s.host with queue := .op op :: s.host.queue, pos := 0 } }) fun t =>
          .next { t with host := { t.host with queue := s.host.queue } }

/-! ### Word Codec -/

/-- 40_word_codec.md R122. -/
def Obligations.CodecRoundTrip : Prop :=
  (∀ (v : Word) (x : Bool), decodeWord (encodeWord v x) = v) ∧
  ∀ w : StreamWord,
    encodeWord (decodeWord w) w.last = w ↔ w.keep = 0xF#4 ∧ w.user = 0#4 ∧ w.id = 0#5 ∧ w.dest = 0#5

/-- 40_word_codec.md R120: ENCODE completes in every state, for every pattern; nothing else changes. That the host evaluates it
and holds the result is the model's choice (log 8). -/
def Obligations.EncodeGivesCanonicalWord : Prop :=
  ∀ (v : Word) (l : Bool) (s : State),
    exec (.encode v l) s =
      .next { s with host := { s.host with word := { data := v, keep := 0xF#4, user := 0#4, id := 0#5, dest := 0#5, last := l } } }

/-- 40_word_codec.md R121: DECODE completes in every state, for every word; the side fields never alter the value; nothing else
changes. That the host evaluates it and holds the result is the model's choice (log 8). -/
def Obligations.DecodeGivesPayload : Prop :=
  ∀ (w : StreamWord) (s : State), exec (.decode w) s = .next { s with host := { s.host with x := w.data } }

/-! ### Arithmetic -/

/-- 41_fp_numerics.md R130: the fields of a binary32 word, its class and its value in units of `2^-149`, for every word. -/
def Obligations.Binary32Classes : Prop :=
  ∀ w : Word,
    (isNaN w = true ↔ w.extractLsb' 23 8 = 0xFF#8 ∧ w.extractLsb' 0 23 ≠ 0#23) ∧
    (isInf w = true ↔ w.extractLsb' 0 31 = 0x7F800000#31) ∧
    (isZero w = true ↔ w.extractLsb' 0 31 = 0#31) ∧
    (w.extractLsb' 23 8 = 0#8 → (fpVal w).natAbs = (w.extractLsb' 0 23).toNat) ∧
    (w.extractLsb' 23 8 ≠ 0#8 → w.extractLsb' 23 8 ≠ 0xFF#8 →
      2 * (fpVal w).natAbs = (2 ^ 23 + (w.extractLsb' 0 23).toNat) * 2 ^ (w.extractLsb' 23 8).toNat) ∧
    (w.getLsbD 31 = true → fpVal w ≤ 0) ∧ (w.getLsbD 31 = false → 0 ≤ fpVal w)

/-- 41_fp_numerics.md R131: the rounded word of a non-zero `x` (in units of `2^-298`) has the sign of `x`; it is an infinity from
half an ulp above the largest finite magnitude on; otherwise no finite word is nearer to `x`, and at a tie it is the even
one. -/
def Obligations.RoundIsNearestEven : Prop :=
  ∀ (x : Int) (zs : Bool), x ≠ 0 →
    ((round32 x zs).getLsbD 31 = true ↔ x < 0) ∧
    isNaN (round32 x zs) = false ∧
    (isInf (round32 x zs) = true ↔ (2 ^ 25 - 1) * 2 ^ 401 ≤ x.natAbs) ∧
    (isFinite (round32 x zs) = true → ∀ w : Word, isFinite w = true →
      fpDistance x (round32 x zs) ≤ fpDistance x w ∧
      (fpDistance x (round32 x zs) = fpDistance x w → round32 x zs ≠ w → (round32 x zs).getLsbD 0 = false))

/-- 41_fp_numerics.md R131, R134: a value that binary32 represents is not changed by rounding; zero takes the given sign. -/
def Obligations.RoundIsExactOnFinite : Prop :=
  (∀ w : Word, ∀ zs : Bool, isFinite w = true → isZero w = false → round32 (fpVal w * 2 ^ 149) zs = w) ∧
  round32 0 false = 0x00000000#32 ∧ round32 0 true = 0x80000000#32

/-- 41_fp_numerics.md R133, R132: FMUL32 completes in every state for all operands and commutes; the value goes to the host,
nothing else changes but the count of NaN draws. That the host evaluates it and holds the result is the model's choice (log
8). -/
def Obligations.FmulResult : Prop :=
  ∀ (a b : Word) (s : State), ∃ (r : Word) (d : Nat),
    exec (.fmul32 a b) s = .next { s with host := { s.host with x := r }, draws := d } ∧
    exec (.fmul32 b a) s = exec (.fmul32 a b) s ∧
    ((isNaN a = true ∨ isNaN b = true ∨ (isInf a = true ∧ isZero b = true) ∨ (isZero a = true ∧ isInf b = true)) →
      isReturnedNaN s.cfg.nanPolicy s.draws r d) ∧
    (¬ (isNaN a = true ∨ isNaN b = true ∨ (isInf a = true ∧ isZero b = true) ∨ (isZero a = true ∧ isInf b = true)) →
      d = s.draws ∧
      (isInf a = true ∨ isInf b = true →
        r.getLsbD 31 = (a.getLsbD 31 ^^ b.getLsbD 31) ∧ r.extractLsb' 0 31 = 0x7F800000#31) ∧
      (¬ (isInf a = true ∨ isInf b = true) → r = round32 (fpVal a * fpVal b) (a.getLsbD 31 ^^ b.getLsbD 31)))

/-- 41_fp_numerics.md R134, R132: FADD32 completes in every state for all operands and commutes; the value goes to the host,
nothing else changes but the count of NaN draws. That the host evaluates it and holds the result is the model's choice (log
8). -/
def Obligations.FaddResult : Prop :=
  ∀ (a b : Word) (s : State), ∃ (r : Word) (d : Nat),
    exec (.fadd32 a b) s = .next { s with host := { s.host with x := r }, draws := d } ∧
    exec (.fadd32 b a) s = exec (.fadd32 a b) s ∧
    ((isNaN a = true ∨ isNaN b = true ∨ (isInf a = true ∧ isInf b = true ∧ a.getLsbD 31 ≠ b.getLsbD 31)) →
      isReturnedNaN s.cfg.nanPolicy s.draws r d) ∧
    (¬ (isNaN a = true ∨ isNaN b = true ∨ (isInf a = true ∧ isInf b = true ∧ a.getLsbD 31 ≠ b.getLsbD 31)) →
      d = s.draws ∧
      (isInf a = true → r = a) ∧ (isInf b = true → r = b) ∧
      (isInf a = false → isInf b = false →
        (isZero a = true → isZero b = true → r = bif a.getLsbD 31 && b.getLsbD 31 then 0x80000000#32 else 0x00000000#32) ∧
        (¬ (isZero a = true ∧ isZero b = true) → fpVal a + fpVal b = 0 → r = 0x00000000#32) ∧
        (fpVal a + fpVal b ≠ 0 → r = round32 ((fpVal a + fpVal b) * 2 ^ 149) false)))

/-- 41_fp_numerics.md R135, R132: FMA32 completes in every state for all operands; the value goes to the host, nothing else
changes but the count of NaN draws. That the host evaluates it and holds the result is the model's choice (log 8). -/
def Obligations.FmaResult : Prop :=
  ∀ (a b c : Word) (s : State), ∃ (r : Word) (d : Nat),
    exec (.fma32 a b c) s = .next { s with host := { s.host with x := r }, draws := d } ∧
    ((isNaN a = true ∨ isNaN b = true ∨ isNaN c = true ∨ (isInf a = true ∧ isZero b = true) ∨
        (isZero a = true ∧ isInf b = true) ∨
        ((isInf a = true ∨ isInf b = true) ∧ isInf c = true ∧ c.getLsbD 31 ≠ (a.getLsbD 31 ^^ b.getLsbD 31))) →
      isReturnedNaN s.cfg.nanPolicy s.draws r d) ∧
    (¬ (isNaN a = true ∨ isNaN b = true ∨ isNaN c = true ∨ (isInf a = true ∧ isZero b = true) ∨
        (isZero a = true ∧ isInf b = true) ∨
        ((isInf a = true ∨ isInf b = true) ∧ isInf c = true ∧ c.getLsbD 31 ≠ (a.getLsbD 31 ^^ b.getLsbD 31))) →
      d = s.draws ∧
      (isInf a = true ∨ isInf b = true →
        r.getLsbD 31 = (a.getLsbD 31 ^^ b.getLsbD 31) ∧ r.extractLsb' 0 31 = 0x7F800000#31) ∧
      (¬ (isInf a = true ∨ isInf b = true) → isInf c = true → r = c) ∧
      (¬ (isInf a = true ∨ isInf b = true) → isInf c = false →
        (fpVal a * fpVal b + fpVal c * 2 ^ 149 ≠ 0 → r = round32 (fpVal a * fpVal b + fpVal c * 2 ^ 149) false) ∧
        (fpVal a * fpVal b + fpVal c * 2 ^ 149 = 0 →
          (fpVal a * fpVal b = 0 → isZero c = true →
            r = bif (a.getLsbD 31 ^^ b.getLsbD 31) && c.getLsbD 31 then 0x80000000#32 else 0x00000000#32) ∧
          (¬ (fpVal a * fpVal b = 0 ∧ isZero c = true) → r = 0x00000000#32))))

/-- 41_fp_numerics.md R136: MAC completes in every state; it is FADD32 of the accumulator (left) and the FMUL32 product in
`separate` mode, one FMA32 in `fused` mode; the value goes to the host, nothing else changes but the count of NaN draws.
That the host evaluates it and holds the result is the model's choice (log 8). -/
def Obligations.MacResult : Prop :=
  ∀ (acc a b : Word) (s : State), ∃ (r : Word) (d : Nat),
    exec (.mac acc a b) s = .next { s with host := { s.host with x := r }, draws := d } ∧
    (s.cfg.macMode = .separate → ∃ t, exec (.fmul32 a b) s = .next t ∧
      exec (.fadd32 acc t.host.x) t = .next { s with host := { s.host with x := r }, draws := d }) ∧
    (s.cfg.macMode = .fused →
      exec (.fma32 a b acc) s = .next { s with host := { s.host with x := r }, draws := d })

/-- 41_fp_numerics.md R143: where binary32 represents the exact product, sum or fused result, that word is the result, a zero
one with the sign of R133, R134 and R135; so `separate` and `fused` agree where the product and the sum are exact. With
integer elements whose products and partial sums are at most `2^24` in magnitude, a cell is the word of the exact sum in
both modes (`+0` for zero). -/
def Obligations.ExactResultsAreExact : Prop :=
  (∀ a b c w p : Word, isFinite a = true → isFinite b = true → isFinite c = true → isFinite w = true → isFinite p = true →
    (fpVal a * fpVal b = fpVal w * 2 ^ 149 →
      fmulVal a b = some (if isZero w then (if a.getLsbD 31 ^^ b.getLsbD 31 then 0x80000000#32 else 0x00000000#32) else w)) ∧
    (fpVal a + fpVal b = fpVal w →
      faddVal a b = some
        (if isZero w then
          (if isZero a && isZero b && a.getLsbD 31 && b.getLsbD 31 then 0x80000000#32 else 0x00000000#32)
        else w)) ∧
    (fpVal a * fpVal b = fpVal p * 2 ^ 149 → fpVal c + fpVal p = fpVal w → ∀ mode,
      mac mode .canonical 0 c a b =
        (if isZero w then
          (if isZero c && isZero p && c.getLsbD 31 && (a.getLsbD 31 ^^ b.getLsbD 31) then 0x80000000#32 else 0x00000000#32)
        else w, 0))) ∧
  ∀ (x y : Nat → Word) (u v sum : Nat → Int) (m : Nat),
    (∀ k < m, isFinite (x k) = true ∧ isFinite (y k) = true ∧ fpVal (x k) = u k * 2 ^ 149 ∧ fpVal (y k) = v k * 2 ^ 149 ∧
      (u k * v k).natAbs ≤ 2 ^ 24 ∧ sum (k + 1) = sum k + u k * v k) →
    sum 0 = 0 → (∀ k ≤ m, (sum k).natAbs ≤ 2 ^ 24) → ∀ mode,
      isFinite (cellSum mode x y m) = true ∧ fpVal (cellSum mode x y m) = sum m * 2 ^ 149 ∧
      cellSum mode x y m ≠ 0x80000000#32

/-- 41_fp_numerics.md R142: in `separate` mode no accumulator of a cell is `-0`, under either NaN policy. -/
def Obligations.SeparateSumNeverNegativeZero : Prop :=
  ∀ (c : Config) (a b : Cells) (draws ia ib m : Nat) (r : Word × Nat), c.macMode = .separate →
    accumulate c a b draws ia ib m = some r → r.1 ≠ 0x80000000#32

/-- 41_fp_numerics.md R145: once the accumulator is a NaN it stays a NaN, in both modes and under both NaN policies. -/
def Obligations.NaNAccumulatorStaysNaN : Prop :=
  ∀ (mode : MacMode) (p : NanPolicy) (draws : Nat) (acc a b : Word), isNaN acc = true →
    isNaN (mac mode p draws acc a b).1 = true

/-! ### Compute Kernel -/

/-- 42_compute_kernel.md R161: K.LOAD_A pops a word, whatever its side fields, stores its payload and advances; with `IN` empty
it waits; nothing else changes. -/
def Obligations.KLoadAStep : Prop :=
  ∀ s : State, s.k.phase = .loadA →
    (s.inq = [] → exec .kLoadA s = .next s) ∧
    ∀ w q, s.inq = w :: q → ∃ cells,
      exec .kLoadA s = .next { s with
        inq := q
        k := { s.k with
          a := cells
          phase := if s.k.idx + 1 = s.cfg.n then .loadB else .loadA
          idx := if s.k.idx + 1 = s.cfg.n then 0 else s.k.idx + 1 } } ∧
      lookup s.k.idx cells = some w.data ∧ ∀ j, j ≠ s.k.idx → lookup j cells = lookup j s.k.a

/-- 42_compute_kernel.md R162: K.LOAD_B, as K.LOAD_A for operand B, which is stored as it arrives. -/
def Obligations.KLoadBStep : Prop :=
  ∀ s : State, s.k.phase = .loadB →
    (s.inq = [] → exec .kLoadB s = .next s) ∧
    ∀ w q, s.inq = w :: q → ∃ cells,
      exec .kLoadB s = .next { s with
        inq := q
        k := { s.k with
          b := cells
          phase := if s.k.idx + 1 = s.cfg.n then .compute else .loadB
          idx := if s.k.idx + 1 = s.cfg.n then 0 else s.k.idx + 1 } } ∧
      lookup s.k.idx cells = some w.data ∧ ∀ j, j ≠ s.k.idx → lookup j cells = lookup j s.k.b

/-- 42_compute_kernel.md R163, 41_fp_numerics.md R137: K.CELL takes `DIM` accumulation steps in ascending `k` from `+0.0` over row
`K.idx div DIM` of A and column `K.idx mod DIM` of B, stores the last accumulator and advances; nothing else changes. -/
def Obligations.KCellStep : Prop :=
  ∀ (s : State) (x y : Nat → Word), s.k.phase = .compute →
    (∀ k < s.cfg.dim, lookup (s.k.idx / s.cfg.dim * s.cfg.dim + k) s.k.a = some (x k) ∧
      lookup (k * s.cfg.dim + s.k.idx % s.cfg.dim) s.k.b = some (y k)) →
    ∃ (acc : Nat → Word × Nat) (cells : Cells),
      acc 0 = (0x00000000#32, s.draws) ∧
      (∀ k < s.cfg.dim, acc (k + 1) = mac s.cfg.macMode s.cfg.nanPolicy (acc k).2 (acc k).1 (x k) (y k)) ∧
      exec .kCell s = .next { s with
        draws := (acc s.cfg.dim).2
        k := { s.k with
          out := cells
          phase := if s.k.idx + 1 = s.cfg.n then .store else .compute
          idx := if s.k.idx + 1 = s.cfg.n then 0 else s.k.idx + 1 } } ∧
      lookup s.k.idx cells = some (acc s.cfg.dim).1 ∧ ∀ j, j ≠ s.k.idx → lookup j cells = lookup j s.k.out

/-- 42_compute_kernel.md R164: K.STORE pushes the encoded result cell, end-of-frame exactly at index `N-1`, and advances; with
`OUT` full it waits; nothing else changes. -/
def Obligations.KStoreStep : Prop :=
  ∀ s : State, s.k.phase = .store →
    (¬ roomIn s.outq s.cfg.outDepth → exec .kStore s = .next s) ∧
    ∀ v, roomIn s.outq s.cfg.outDepth → lookup s.k.idx s.k.out = some v →
      exec .kStore s = .next { s with
        outq := s.outq ++
          [{ data := v, keep := 0xF#4, user := 0#4, id := 0#5, dest := 0#5, last := decide (s.k.idx + 1 = s.cfg.n) }]
        k := { s.k with
          phase := if s.k.idx + 1 = s.cfg.n then .loadA else .store
          idx := if s.k.idx + 1 = s.cfg.n then 0 else s.k.idx + 1 } }

/-- 70_reset_and_hazards.md R292: a step that reads a storage cell no step has written since reset faults, and from a state that
meets the invariant no kernel step performs such a read. -/
def Obligations.UnwrittenCellReadFaults : Prop :=
  (∀ (s : State) (k : Nat), s.k.phase = .compute → k < s.cfg.dim →
    (lookup (s.k.idx / s.cfg.dim * s.cfg.dim + k) s.k.a = none ∨
      lookup (k * s.cfg.dim + s.k.idx % s.cfg.dim) s.k.b = none) →
    exec .kCell s = .fault .unwrittenCell) ∧
  (∀ s : State, s.k.phase = .store → roomIn s.outq s.cfg.outDepth → lookup s.k.idx s.k.out = none →
    exec .kStore s = .fault .unwrittenCell) ∧
  ∀ (s : State) (i : Instr), s.Inv → i = .kLoadA ∨ i = .kLoadB ∨ i = .kCell ∨ i = .kStore → ∃ t, exec i s = .next t

/-- 42_compute_kernel.md R166, R160: from `(LOAD_A, 0)`, with the `2N` words of an input frame at the head of `IN` and room for
the output frame in `OUT`, `4N` kernel steps pop exactly those words, push exactly `multiply_stream` of them and end at
`(LOAD_A, 0)`. Stated for the kernel's steps alone, so for a depth of `OUT` that takes the whole frame, and for
`NAN_POLICY = canonical`; what the round leaves in the storages is not stated. -/
def Obligations.KernelRoundIsMultiplyStream : Prop :=
  ∀ (s : State) (ws rest : List StreamWord), s.cfg.wellFormed = true → s.cfg.nanPolicy = .canonical →
    s.k.phase = .loadA → s.k.idx = 0 → s.inq = ws ++ rest → ws.length = 2 * s.cfg.n →
    roomFor s.cfg.n s.outq s.cfg.outDepth →
    ∃ k', kernelSteps (4 * s.cfg.n) s =
        .next { s with inq := rest, outq := s.outq ++ multiplyStream s.cfg ws, k := k' } ∧
      k'.phase = .loadA ∧ k'.idx = 0

/-! ### Register transactions -/

/-- 43_transfer_engine.md R191: the ten reads complete in every state and change nothing but the value the host holds. -/
def Obligations.RegisterReads : Prop :=
  ∀ (c : Chan) (s : State),
    (∃ v, exec (rdCtrl c) s = .next { s with host := { s.host with x := v } } ∧ isCtrlView v (s.chan c)) ∧
    (∃ v, exec (rdStatus c) s = .next { s with host := { s.host with x := v } } ∧
      isStatusView v s.cfg.sgMode (s.chan c)) ∧
    exec (rdAddr c) s = .next { s with host := { s.host with x := (s.chan c).addr } } ∧
    exec (rdLen c) s = .next { s with host := { s.host with x := (s.chan c).len } } ∧
    exec (rdXfer c) s = .next { s with host := { s.host with x := (s.chan c).xfer } }

/-- 43_transfer_engine.md R192: WR c_CTRL completes in every state, whatever `BUSY` and `ERR`; nothing else changes. -/
def Obligations.WriteCtrl : Prop :=
  ∀ (c : Chan) (v : Word) (s : State),
    exec (wrCtrl c v) s = .next (s.setChan c { s.chan c with ieDone := v.getLsbD 0, ieErr := v.getLsbD 1 })

/-- 43_transfer_engine.md R193: WR c_STATUS completes in every state; a 1 in bit 1 clears `DONE`; nothing else changes. -/
def Obligations.WriteStatus : Prop :=
  ∀ (c : Chan) (v : Word) (s : State),
    (v.getLsbD 1 = true → exec (wrStatus c v) s = .next (s.setChan c { s.chan c with done := false })) ∧
    (v.getLsbD 1 = false → exec (wrStatus c v) s = .next s)

/-- 43_transfer_engine.md R194 (on a build with `SG_MODE = 0`): WR c_ADDR takes effect iff the channel is neither busy nor in
error; nothing else changes. -/
def Obligations.WriteAddr : Prop :=
  ∀ (c : Chan) (v : Word) (s : State), s.cfg.sgMode = false →
    ((s.chan c).busy = false → (s.chan c).err = false →
      exec (wrAddr c v) s = .next (s.setChan c { s.chan c with addr := v })) ∧
    ((s.chan c).busy = true ∨ (s.chan c).err = true → exec (wrAddr c v) s = .next s)

/-- 43_transfer_engine.md R195: the start command, its three errors in order, first match wins, with no memory access and no
stream word moved; ignored while busy or in error; nothing else changes. -/
def Obligations.WriteLenStarts : Prop :=
  ∀ (c : Chan) (v : Word) (s : State), s.cfg.sgMode = false →
    ((s.chan c).busy = true ∨ (s.chan c).err = true → exec (wrLen c v) s = .next s) ∧
    ((s.chan c).busy = false → (s.chan c).err = false →
      (v = 0#32 ∨ v.toNat % 4 ≠ 0 →
        exec (wrLen c v) s = .next (s.setChan c
          { s.chan c with len := v, xfer := 0#32, done := false, err := true, errcode := 1#3 })) ∧
      (v ≠ 0#32 → v.toNat % 4 = 0 → (s.chan c).addr.toNat % 4 ≠ 0 →
        exec (wrLen c v) s = .next (s.setChan c
          { s.chan c with len := v, xfer := 0#32, done := false, err := true, errcode := 2#3 })) ∧
      (v ≠ 0#32 → v.toNat % 4 = 0 → (s.chan c).addr.toNat % 4 = 0 → 2 ^ 32 < (s.chan c).addr.toNat + v.toNat →
        exec (wrLen c v) s = .next (s.setChan c
          { s.chan c with len := v, xfer := 0#32, done := false, err := true, errcode := 3#3 })) ∧
      (v ≠ 0#32 → v.toNat % 4 = 0 → (s.chan c).addr.toNat % 4 = 0 → (s.chan c).addr.toNat + v.toNat ≤ 2 ^ 32 →
        exec (wrLen c v) s = .next (s.setChan c
          { s.chan c with len := v, xfer := 0#32, done := false, busy := true })))

/-- 43_transfer_engine.md R196: WR c_XFER has no effect. -/
def Obligations.WriteXferIgnored : Prop :=
  ∀ (c : Chan) (v : Word) (s : State), exec (wrXfer c v) s = .next s

/-- 43_transfer_engine.md R197: the six reserved offsets read 0 and ignore writes; nothing else changes. -/
def Obligations.ReservedOffsets : Prop :=
  ∀ (v : Word) (s : State),
    (∀ i ∈ [Instr.rdRsvd14, .rdRsvd18, .rdRsvd1C, .rdRsvd34, .rdRsvd38, .rdRsvd3C],
      exec i s = .next { s with host := { s.host with x := 0x00000000#32 } }) ∧
    ∀ i ∈ [Instr.wrRsvd14 v, .wrRsvd18 v, .wrRsvd1C v, .wrRsvd34 v, .wrRsvd38 v, .wrRsvd3C v], exec i s = .next s

/-- 43_transfer_engine.md R205: on a scatter-gather build the start writes are refused; the reads and the writes of `c_CTRL` and
`c_STATUS` answer as on any build. The refusal by name is the model's (log 11). -/
def Obligations.ScatterGatherBuild : Prop :=
  ∀ (c : Chan) (v : Word) (s : State), s.cfg.sgMode = true →
    exec (wrAddr c v) s = .refused (.scatterGatherBuild c) ∧ exec (wrLen c v) s = .refused (.scatterGatherBuild c) ∧
    (∃ r, exec (rdStatus c) s = .next { s with host := { s.host with x := r } } ∧ r.getLsbD 8 = true) ∧
    (∃ t, exec (wrCtrl c v) s = .next t ∧ (t.chan c).ieDone = v.getLsbD 0 ∧ (t.chan c).ieErr = v.getLsbD 1) ∧
    (∃ t, exec (wrStatus c v) s = .next t ∧ (t.chan c).done = ((s.chan c).done && !v.getLsbD 1))

/-- 20_memory.md R65, 10_state.md R38, U9: a register access at an offset that is no multiple of 4 is refused by name, whether
the host makes it as a transaction, as `WR`, `RD` or `POLL`, or as a misaligned load or store of which any of the four bytes lies in
the register block; a byte access there is refused too. The refusal by name is the model's (log 12). -/
def Obligations.OddRegisterAccessRefused : Prop :=
  ∀ (s : State) (bits : BitVec 39) (reg : BitVec 6) (a v : Word) (x : Nat),
    (bits.extractLsb' 32 2 ≠ 0#2 → hostOp (.op (.bus bits)) s = .refused .registerAccessForm) ∧
    (reg.toNat % 4 ≠ 0 → hostOp (.wr reg (.num v)) s = .refused .registerAccessForm ∧
      hostOp (.rd x reg) s = .refused .registerAccessForm ∧
      ∀ mask want, hostOp (.poll x reg mask want) s = .refused .registerAccessForm) ∧
    (a.toNat % 4 ≠ 0 → (∃ n < 4, btcBase s.cfg ≤ a.toNat + n ∧ a.toNat + n < btcBase s.cfg + 0x40) →
      hostOp (.ld x (.num a)) s = .refused .registerAccessForm ∧
      hostOp (.st (.num a) (.num v)) s = .refused .registerAccessForm) ∧
    (btcBase s.cfg ≤ a.toNat → a.toNat < btcBase s.cfg + 0x40 →
      hostOp (.ldByte x (.num a)) s = .refused .registerAccessForm ∧
      hostOp (.stByte (.num a) (.num v)) s = .refused .registerAccessForm)

/-! ### Channel steps -/

/-- 43_transfer_engine.md R198, R203: TX.BEAT. With `IN` full it waits; an unmapped byte halts the channel with DEC, a bus fault
with SLV, nothing moved; else the little-endian word at `ADDR + XFER` is pushed as a canonical word, `last` exactly on
the transfer's final word, whose beat completes the transfer; nothing else changes. -/
def Obligations.TxBeatStep : Prop :=
  ∀ s : State, s.tx.busy = true →
    (¬ roomIn s.inq s.cfg.inDepth → exec .txBeat s = .next s) ∧
    ∀ a, a = s.tx.addr.toNat + s.tx.xfer.toNat → roomIn s.inq s.cfg.inDepth →
      ((∃ n < 4, mapped s.cfg (a + n) = false) →
        exec .txBeat s = .next { s with tx := { s.tx with busy := false, err := true, errcode := 3#3 } }) ∧
      ((∀ n < 4, mapped s.cfg (a + n) = true) →
        (busFault s.cfg .tx a = true →
          exec .txBeat s = .next { s with tx := { s.tx with busy := false, err := true, errcode := 4#3 } }) ∧
        (busFault s.cfg .tx a = false →
          (s.tx.xfer.toNat + 4 = s.tx.len.toNat →
            exec .txBeat s = .next { s with
              inq := s.inq ++ [{ data := Memory.readWord s.mem a, keep := 0xF#4, user := 0#4, id := 0#5, dest := 0#5, last := true }]
              tx := { s.tx with xfer := s.tx.xfer + 4#32, busy := false, done := true } }) ∧
          (s.tx.xfer.toNat + 4 ≠ s.tx.len.toNat →
            exec .txBeat s = .next { s with
              inq := s.inq ++ [{ data := Memory.readWord s.mem a, keep := 0xF#4, user := 0#4, id := 0#5, dest := 0#5, last := false }]
              tx := { s.tx with xfer := s.tx.xfer + 4#32 } })))

/-- 43_transfer_engine.md R199, R203: RX.BEAT. With `OUT` empty it waits; DEC and SLV halt the channel with the word still in
`OUT` and memory unchanged; else the payload is stored little-endian at `ADDR + XFER`, every byte outside those four as
before, and the beat ends the transfer on `last`, or with OVERRUN at the byte count; nothing else changes. -/
def Obligations.RxBeatStep : Prop :=
  ∀ s : State, s.rx.busy = true → Memory.wf s.mem = true →
    (s.outq = [] → exec .rxBeat s = .next s) ∧
    ∀ w q a, s.outq = w :: q → a = s.rx.addr.toNat + s.rx.xfer.toNat →
      ((∃ n < 4, mapped s.cfg (a + n) = false) →
        exec .rxBeat s = .next { s with rx := { s.rx with busy := false, err := true, errcode := 3#3 } }) ∧
      ((∀ n < 4, mapped s.cfg (a + n) = true) →
        (busFault s.cfg .rx a = true →
          exec .rxBeat s = .next { s with rx := { s.rx with busy := false, err := true, errcode := 4#3 } }) ∧
        (busFault s.cfg .rx a = false → ∃ m,
          (∀ n < 4, Memory.readByte m (a + n) = w.data.extractLsb' (8 * n) 8) ∧
          (∀ b, b < a ∨ a + 4 ≤ b → Memory.readByte m b = Memory.readByte s.mem b) ∧
          (w.last = true → exec .rxBeat s = .next { s with
            outq := q, mem := m, rx := { s.rx with xfer := s.rx.xfer + 4#32, busy := false, done := true } }) ∧
          (w.last = false → s.rx.xfer.toNat + 4 = s.rx.len.toNat → exec .rxBeat s = .next { s with
            outq := q, mem := m
            rx := { s.rx with xfer := s.rx.xfer + 4#32, busy := false, err := true, errcode := 5#3 } }) ∧
          (w.last = false → s.rx.xfer.toNat + 4 ≠ s.rx.len.toNat → exec .rxBeat s = .next { s with
            outq := q, mem := m, rx := { s.rx with xfer := s.rx.xfer + 4#32 } })))

/-- 60_exceptions.md R265: raising an error on a channel. -/
def Obligations.ErrorEntry : Prop :=
  ∀ (c d : Chan) (code : BitVec 3) (s : State),
    ((raiseError c code s).chan c).busy = false ∧ ((raiseError c code s).chan c).err = true ∧
    ((raiseError c code s).chan c).errcode = code ∧
    ((raiseError c code s).chan c).done = (s.chan c).done ∧ ((raiseError c code s).chan c).addr = (s.chan c).addr ∧
    ((raiseError c code s).chan c).len = (s.chan c).len ∧ ((raiseError c code s).chan c).xfer = (s.chan c).xfer ∧
    ((raiseError c code s).chan c).ieDone = (s.chan c).ieDone ∧ ((raiseError c code s).chan c).ieErr = (s.chan c).ieErr ∧
    (d ≠ c → (raiseError c code s).chan d = s.chan d) ∧
    (raiseError c code s).k = s.k ∧ (raiseError c code s).inq = s.inq ∧ (raiseError c code s).outq = s.outq ∧
    (raiseError c code s).mem = s.mem ∧
    ((s.chan c).ieErr = true → irq ((raiseError c code s).chan c) = true)

/-- 60_exceptions.md R267, 10_state.md R39: no operation takes a halted channel out of its error state or changes its address,
length, count or code. -/
def Obligations.ErrorIsSticky : Prop :=
  ∀ (i : Instr) (s t : State) (c : Chan), exec i s = .next t → (s.chan c).err = true → (s.chan c).busy = false →
    (t.chan c).err = true ∧ (t.chan c).busy = false ∧ (t.chan c).errcode = (s.chan c).errcode ∧
    (t.chan c).addr = (s.chan c).addr ∧ (t.chan c).len = (s.chan c).len ∧ (t.chan c).xfer = (s.chan c).xfer

/-- 43_transfer_engine.md R214: an operation that ends a transfer leaves exactly one of `DONE` and `ERR` set. -/
def Obligations.TransferEndsInDoneOrError : Prop :=
  ∀ (i : Instr) (s t : State) (c : Chan), exec i s = .next t → Channel.Inv (s.chan c) → (s.chan c).busy = true →
    (t.chan c).busy = false → ((t.chan c).done ^^ (t.chan c).err) = true

/-! ### Host procedures -/

/-- 44_host_procedures.md R241: INIT, access by access. Absent controller: no access, ConfigurationError. `SG = 1` in either
status: ConfigurationError before any write. Else both `c_CTRL` become 0 and INIT returns Ok. Nothing else changes. The
position in the procedure and the fields that hold a value read and the result are the model's (log 3, log 22). -/
def Obligations.InitProcedure : Prop :=
  ∀ s : State,
    (s.host.pos = 0 → s.cfg.btcPresent = false →
      exec .init s = .next { s with host := { s.host with ret := .configurationError } }) ∧
    (s.host.pos = 0 → s.cfg.btcPresent = true → ∃ v, isStatusView v s.cfg.sgMode s.tx ∧
      (s.cfg.sgMode = true → exec .init s = .next { s with host := { s.host with x := v, ret := .configurationError } }) ∧
      (s.cfg.sgMode = false → exec .init s = .next { s with host := { s.host with x := v, pos := 1 } })) ∧
    (s.host.pos = 1 → ∃ v, isStatusView v s.cfg.sgMode s.rx ∧
      (s.cfg.sgMode = true →
        exec .init s = .next { s with host := { s.host with x := v, pos := 0, ret := .configurationError } }) ∧
      (s.cfg.sgMode = false → exec .init s = .next { s with host := { s.host with x := v, pos := 2 } })) ∧
    (s.host.pos = 2 → exec .init s = .next { s with
      tx := { s.tx with ieDone := false, ieErr := false }, host := { s.host with pos := 3 } }) ∧
    (s.host.pos = 3 → exec .init s = .next { s with
      rx := { s.rx with ieDone := false, ieErr := false }, host := { s.host with pos := 0, ret := .ok } })

/-- 44_host_procedures.md R242, 43_transfer_engine.md R213: IS_SG returns bit 8 of TX_STATUS, the build constant; twice gives
the same boolean; nothing else changes. The fields that hold a value read and the result are the model's (log 22). -/
def Obligations.IsSgProcedure : Prop :=
  ∀ s : State, ∃ v, isStatusView v s.cfg.sgMode s.tx ∧
    exec .isSg s = .next { s with host := { s.host with x := v, pos := 0, ret := .bool s.cfg.sgMode } } ∧
    andThen (exec .isSg s) (exec .isSg) = exec .isSg s

/-- 44_host_procedures.md R243: DISABLE_IRQ clears both enables of that direction; `DONE`, `ERR` and all else stay. The fields
that hold a value read and the result are the model's (log 22). -/
def Obligations.DisableIrqProcedure : Prop :=
  ∀ (c : Chan) (s : State), ∃ t, exec (.disableIrq c) s = .next t ∧
    t.chan c = { s.chan c with ieDone := false, ieErr := false } ∧ irq (t.chan c) = false ∧
    (∀ d, d ≠ c → t.chan d = s.chan d) ∧
    t.cfg = s.cfg ∧ t.k = s.k ∧ t.inq = s.inq ∧ t.outq = s.outq ∧ t.mem = s.mem ∧ t.sched = s.sched ∧
    t.tick = s.tick ∧ t.draws = s.draws ∧ t.host = { s.host with pos := 0, ret := .ok }

/-- 44_host_procedures.md R244: TRANSMIT, access by access: the address write, the start write, then polls that leave the
procedure where it is while `BUSY = 1` and else return `TransferError` with the code, or `Ok`. On an SG build the two writes
are the refused ones of 43_transfer_engine.md R205, U4; the refusal by name is the model's choice (log 11). The position in
the procedure and the fields that hold a value read and the result are the model's (log 3, log 22). -/
def Obligations.TransmitProcedure : Prop :=
  ∀ (addr len : Word) (s : State),
    (s.host.pos = 0 → s.cfg.sgMode = false → ∃ t, exec (.wrTxAddr addr) s = .next t ∧
      exec (.transmit addr len) s = .next { t with host := { t.host with pos := 1 } }) ∧
    (s.host.pos = 1 → s.cfg.sgMode = false → ∃ t, exec (.wrTxLen len) s = .next t ∧
      exec (.transmit addr len) s = .next { t with host := { t.host with pos := 2 } }) ∧
    (s.host.pos < 2 → s.cfg.sgMode = true → exec (.transmit addr len) s = .refused (.scatterGatherBuild .tx)) ∧
    (s.host.pos = 2 → ∃ v, isStatusView v s.cfg.sgMode s.tx ∧
      (s.tx.busy = true → exec (.transmit addr len) s = .next { s with host := { s.host with x := v } }) ∧
      (s.tx.busy = false → s.tx.err = true → exec (.transmit addr len) s =
        .next { s with host := { s.host with x := v, pos := 0, ret := .transferError s.tx.errcode } }) ∧
      (s.tx.busy = false → s.tx.err = false → exec (.transmit addr len) s =
        .next { s with host := { s.host with x := v, pos := 0, ret := .ok } }))

/-- 44_host_procedures.md R245: RECEIVE, as TRANSMIT on the RX channel. On an SG build the two writes are the refused ones of
43_transfer_engine.md R205, U4; the refusal by name is the model's choice (log 11). The position in the procedure and the
fields that hold a value read and the result are the model's (log 3, log 22). -/
def Obligations.ReceiveProcedure : Prop :=
  ∀ (addr len : Word) (s : State),
    (s.host.pos = 0 → s.cfg.sgMode = false → ∃ t, exec (.wrRxAddr addr) s = .next t ∧
      exec (.receive addr len) s = .next { t with host := { t.host with pos := 1 } }) ∧
    (s.host.pos = 1 → s.cfg.sgMode = false → ∃ t, exec (.wrRxLen len) s = .next t ∧
      exec (.receive addr len) s = .next { t with host := { t.host with pos := 2 } }) ∧
    (s.host.pos < 2 → s.cfg.sgMode = true → exec (.receive addr len) s = .refused (.scatterGatherBuild .rx)) ∧
    (s.host.pos = 2 → ∃ v, isStatusView v s.cfg.sgMode s.rx ∧
      (s.rx.busy = true → exec (.receive addr len) s = .next { s with host := { s.host with x := v } }) ∧
      (s.rx.busy = false → s.rx.err = true → exec (.receive addr len) s =
        .next { s with host := { s.host with x := v, pos := 0, ret := .transferError s.rx.errcode } }) ∧
      (s.rx.busy = false → s.rx.err = false → exec (.receive addr len) s =
        .next { s with host := { s.host with x := v, pos := 0, ret := .ok } }))

/-- 44_host_procedures.md R246: OFFLOAD makes the accesses of `TRANSMIT inbuf, 8*N`, then those of `RECEIVE outbuf, 4*N`; an
error of either is returned and the rest is skipped. On an SG build the four writes are the refused ones of
43_transfer_engine.md R205, U4; the refusal by name is the model's choice (log 11). The position in the procedure and the fields that hold a value read and
the result are the model's (log 3, log 22). -/
def Obligations.OffloadProcedure : Prop :=
  ∀ (inbuf outbuf : Word) (s : State), s.cfg.wellFormed = true →
    (s.host.pos = 0 → s.cfg.sgMode = false → ∃ t, exec (.wrTxAddr inbuf) s = .next t ∧
      exec (.offload inbuf outbuf) s = .next { t with host := { t.host with pos := 1 } }) ∧
    (s.host.pos = 1 → s.cfg.sgMode = false → ∃ len t, len.toNat = 8 * s.cfg.n ∧ exec (.wrTxLen len) s = .next t ∧
      exec (.offload inbuf outbuf) s = .next { t with host := { t.host with pos := 2 } }) ∧
    (s.host.pos = 0 ∨ s.host.pos = 1 → s.cfg.sgMode = true →
      exec (.offload inbuf outbuf) s = .refused (.scatterGatherBuild .tx)) ∧
    (s.host.pos = 2 → ∃ v, isStatusView v s.cfg.sgMode s.tx ∧
      (s.tx.busy = true → exec (.offload inbuf outbuf) s = .next { s with host := { s.host with x := v } }) ∧
      (s.tx.busy = false → s.tx.err = true → exec (.offload inbuf outbuf) s =
        .next { s with host := { s.host with x := v, pos := 0, ret := .transferError s.tx.errcode } }) ∧
      (s.tx.busy = false → s.tx.err = false → exec (.offload inbuf outbuf) s =
        .next { s with host := { s.host with x := v, pos := 3 } })) ∧
    (s.host.pos = 3 → s.cfg.sgMode = false → ∃ t, exec (.wrRxAddr outbuf) s = .next t ∧
      exec (.offload inbuf outbuf) s = .next { t with host := { t.host with pos := 4 } }) ∧
    (s.host.pos = 4 → s.cfg.sgMode = false → ∃ len t, len.toNat = 4 * s.cfg.n ∧ exec (.wrRxLen len) s = .next t ∧
      exec (.offload inbuf outbuf) s = .next { t with host := { t.host with pos := 5 } }) ∧
    (s.host.pos = 3 ∨ s.host.pos = 4 → s.cfg.sgMode = true →
      exec (.offload inbuf outbuf) s = .refused (.scatterGatherBuild .rx)) ∧
    (s.host.pos = 5 → ∃ v, isStatusView v s.cfg.sgMode s.rx ∧
      (s.rx.busy = true → exec (.offload inbuf outbuf) s = .next { s with host := { s.host with x := v } }) ∧
      (s.rx.busy = false → s.rx.err = true → exec (.offload inbuf outbuf) s =
        .next { s with host := { s.host with x := v, pos := 0, ret := .transferError s.rx.errcode } }) ∧
      (s.rx.busy = false → s.rx.err = false → exec (.offload inbuf outbuf) s =
        .next { s with host := { s.host with x := v, pos := 0, ret := .ok } }))

/-- 43_transfer_engine.md R211, 44_host_procedures.md R244: one complete transmit. Run by the host and `len/4` TX beats with room
in `IN`, `TRANSMIT` returns `Ok`; `IN` has received the buffer's words in order, `last` on the final one alone; host
memory is unchanged; the channel ends with `BUSY 0, DONE 1, ERR 0, XFER = len`; nothing else changes. Stated on one decided
schedule without kernel steps, so for a depth of `IN` that takes all the words. The schedule, the queue and the fields that
hold the value read and the result are the model's (log 2, log 3, log 22). -/
def Obligations.CompleteTransmit : Prop :=
  ∀ (s : State) (addr len : Word) (q : List HostOp) (rest : List Turn) (words : Nat),
    s.cfg.sgMode = false → s.tx.busy = false → s.tx.err = false → addr.toNat % 4 = 0 → len.toNat = 4 * words → 0 < words →
    addr.toNat + len.toNat ≤ 2 ^ 32 → beatsPass s.cfg .tx addr.toNat words → roomFor words s.inq s.cfg.inDepth →
    s.host.pos = 0 → s.host.queue = .op (encode (.transmit addr len)) :: q →
    s.sched = .agent .host :: .agent .host :: List.replicate words (.agent .tx) ++ .agent .host :: rest →
    ∃ v, isStatusView v false { s.tx with busy := false, done := true } ∧
      run (words + 3) s = .next { s with
        inq := s.inq ++ transmitFrame s.mem addr.toNat words
        tx := { s.tx with addr := addr, len := len, xfer := len, busy := false, done := true }
        host := { s.host with queue := q, x := v, ret := .ok }
        sched := rest }

/-- 43_transfer_engine.md R212, R201, 44_host_procedures.md R245: one complete receive. With a frame of `m + 1` words at the head
of `OUT` (its first `last` word at position `m`, within the buffer), `RECEIVE` run by the host and `m + 1` RX beats
returns `Ok`; the payloads are at the buffer, every byte outside them as before, those words are gone from `OUT`; the
channel ends with `BUSY 0, DONE 1, ERR 0, XFER = 4(m+1)`; nothing else changes. Stated on one decided schedule. The schedule,
the queue and the fields that hold the value read and the result are the model's (log 2, log 3, log 22). -/
def Obligations.CompleteReceive : Prop :=
  ∀ (s : State) (addr len : Word) (q : List HostOp) (rest : List Turn) (ws tail : List StreamWord) (w : StreamWord),
    s.cfg.sgMode = false → s.rx.busy = false → s.rx.err = false → addr.toNat % 4 = 0 → len.toNat % 4 = 0 →
    addr.toNat + len.toNat ≤ 2 ^ 32 → Memory.wf s.mem = true →
    s.outq = ws ++ w :: tail → (∀ u ∈ ws, u.last = false) → w.last = true → 4 * (ws.length + 1) ≤ len.toNat →
    beatsPass s.cfg .rx addr.toNat (ws.length + 1) →
    s.host.pos = 0 → s.host.queue = .op (encode (.receive addr len)) :: q →
    s.sched = .agent .host :: .agent .host :: List.replicate (ws.length + 1) (.agent .rx) ++ .agent .host :: rest →
    ∃ v m, isStatusView v false { s.rx with busy := false, done := true } ∧
      run (ws.length + 4) s = .next { s with
        outq := tail
        mem := m
        rx := { s.rx with
          addr := addr, len := len, xfer := BitVec.ofNat 32 (4 * (ws.length + 1)), busy := false, done := true }
        host := { s.host with queue := q, x := v, ret := .ok }
        sched := rest } ∧
      (∀ n u, (ws ++ [w])[n]? = some u → Memory.readWord m (addr.toNat + 4 * n) = u.data) ∧
      ∀ b, b < addr.toNat ∨ addr.toNat + 4 * (ws.length + 1) ≤ b → Memory.readByte m b = Memory.readByte s.mem b

/-- 44_host_procedures.md R248: the end-to-end result, from a quiescent state, whatever the stream depths. On every schedule of
the four agents, when `OFFLOAD` has returned it has returned `Ok`, the product of the two matrices of the input buffer is in
the output buffer, every byte outside it is as before, and the state is quiescent again with both channels done: with no
operation left, the run is over (70_reset_and_hazards.md R294). And on some schedule it returns; that it does so on every
fair one is not stated. Stated for `NAN_POLICY = canonical`. The schedule, the queue and the field that holds the result are
the model's (log 2, log 3, log 22). -/
def Obligations.OffloadComputesProduct : Prop :=
  ∀ (s : State) (inbuf outbuf : Word) (q : List HostOp),
    s.Quiescent → s.Inv → s.cfg.sgMode = false → s.cfg.nanPolicy = .canonical →
    inbuf.toNat % 4 = 0 → outbuf.toNat % 4 = 0 →
    inbuf.toNat + 8 * s.cfg.n ≤ 2 ^ 32 → outbuf.toNat + 4 * s.cfg.n ≤ 2 ^ 32 →
    beatsPass s.cfg .tx inbuf.toNat (2 * s.cfg.n) → beatsPass s.cfg .rx outbuf.toNat s.cfg.n →
    s.host.pos = 0 → s.host.queue = .op (encode (.offload inbuf outbuf)) :: q →
    (∀ (turns : List Turn) (t : State), (∀ u ∈ turns, u ≠ .reset) →
      run turns.length { s with sched := turns } = .next t → t.host.queue = q → t.host.pos = 0 →
      t.host.ret = .ok ∧ t.Quiescent ∧ (q = [] → t.RunOver) ∧
      t.tx.done = true ∧ t.rx.done = true ∧ t.tx.xfer.toNat = 8 * s.cfg.n ∧ t.rx.xfer.toNat = 4 * s.cfg.n ∧
      (∀ i j, i < s.cfg.dim → j < s.cfg.dim →
        Memory.readWord t.mem (outbuf.toNat + 4 * cellIndex s.cfg i j) = memoryProduct s.cfg s.mem inbuf.toNat i j) ∧
      ∀ b, b < outbuf.toNat ∨ outbuf.toNat + 4 * s.cfg.n ≤ b → Memory.readByte t.mem b = Memory.readByte s.mem b) ∧
    ∃ (turns : List Turn) (t : State), (∀ u ∈ turns, u ≠ .reset) ∧
      run turns.length { s with sched := turns } = .next t ∧ t.host.queue = q ∧ t.host.pos = 0

/-! ### Host memory -/

/-- 20_memory.md R61: a word written little-endian puts `v[8n+7:8n]` at `a+n` and leaves every other byte alone; a word read has
the byte at `a+n` as its bits `8n+7:8n`. -/
def Obligations.LittleEndianMemory : Prop :=
  ∀ (m : List Host.Cell) (a : Nat) (v : Word), Memory.wf m = true →
    Memory.wf (Memory.writeWord m a v) = true ∧
    (∀ n < 4, Memory.readByte (Memory.writeWord m a v) (a + n) = v.extractLsb' (8 * n) 8) ∧
    (∀ b, b < a ∨ a + 4 ≤ b → Memory.readByte (Memory.writeWord m a v) b = Memory.readByte m b) ∧
    ∀ n < 4, (Memory.readWord m a).extractLsb' (8 * n) 8 = Memory.readByte m (a + n)

/-- 44_host_procedures.md R240, 30_encoding.md R101, 20_memory.md R60, R61: the host's loads and stores. In host memory a word or
a byte is read into the name, or written, every other byte as before; at each of the sixteen register addresses they are
that register's operations; a word with a byte that is neither mapped nor a register, or such a byte, faults. The fault and
the atomic word access are the model's choice (log 13), as are the value held and the names (log 22, log 23). -/
def Obligations.HostLoadsAndStores : Prop :=
  ∀ (s : State) (a v : Word) (x : Nat), Memory.wf s.mem = true →
    ((∀ n < 4, mapped s.cfg (a.toNat + n) = true) →
      hostOp (.ld x (.num a)) s = .next { s with host := { s.host with
        x := Memory.readWord s.mem a.toNat, env := insertAt x (Memory.readWord s.mem a.toNat) s.host.env } } ∧
      ∃ m, hostOp (.st (.num a) (.num v)) s = .next { s with mem := m } ∧ Memory.readWord m a.toNat = v ∧
        ∀ b, b < a.toNat ∨ a.toNat + 4 ≤ b → Memory.readByte m b = Memory.readByte s.mem b) ∧
    (∀ off : BitVec 6, off.toNat % 4 = 0 → a.toNat = btcBase s.cfg + off.toNat →
      (∃ i, decode (encodeWrite off v) = .ok i ∧ hostOp (.st (.num a) (.num v)) s = exec i s) ∧
      ∃ i t, decode (encodeRead off) = .ok i ∧ exec i s = .next t ∧
        hostOp (.ld x (.num a)) s = .next { t with host := { t.host with env := insertAt x t.host.x s.host.env } }) ∧
    ((∀ n < 4, ¬ (btcBase s.cfg ≤ a.toNat + n ∧ a.toNat + n < btcBase s.cfg + 0x40)) →
      (∃ n < 4, mapped s.cfg (a.toNat + n) = false) →
      hostOp (.ld x (.num a)) s = .fault (.hostAccessOutsideMemory a) ∧
      hostOp (.st (.num a) (.num v)) s = .fault (.hostAccessOutsideMemory a)) ∧
    (mapped s.cfg a.toNat = true →
      hostOp (.ldByte x (.num a)) s = .next { s with host := { s.host with
        x := (Memory.readByte s.mem a.toNat).setWidth 32
        env := insertAt x ((Memory.readByte s.mem a.toNat).setWidth 32) s.host.env } } ∧
      ∃ m, hostOp (.stByte (.num a) (.num v)) s = .next { s with mem := m } ∧
        Memory.readByte m a.toNat = v.extractLsb' 0 8 ∧
        ∀ b, b ≠ a.toNat → Memory.readByte m b = Memory.readByte s.mem b) ∧
    (mapped s.cfg a.toNat = false → ¬ (btcBase s.cfg ≤ a.toNat ∧ a.toNat < btcBase s.cfg + 0x40) →
      hostOp (.ldByte x (.num a)) s = .fault (.hostAccessOutsideMemory a) ∧
      hostOp (.stByte (.num a) (.num v)) s = .fault (.hostAccessOutsideMemory a))

/-! ### Reset -/

/-- 10_state.md R43: what the hardware reset leaves, from every state, on the platform's turn: the sequencer at `(LOAD_A, 0)`,
no storage cell with a value, the streams empty, every channel field 0, both request lines 0, host memory not reset. That
the reset is a turn which leaves the host alone is the model's choice (log 14). -/
def Obligations.ResetValues : Prop :=
  ∀ (s : State) (rest : List Turn), s.sched = .reset :: rest → ∃ t, step s = .next t ∧
    t.k.phase = .loadA ∧ t.k.idx = 0 ∧
    (∀ j, lookup j t.k.a = none ∧ lookup j t.k.b = none ∧ lookup j t.k.out = none) ∧
    t.inq = [] ∧ t.outq = [] ∧
    (∀ c, irq (t.chan c) = false ∧ (t.chan c).ieDone = false ∧ (t.chan c).ieErr = false ∧ (t.chan c).busy = false ∧
      (t.chan c).done = false ∧ (t.chan c).err = false ∧ (t.chan c).errcode = 0#3 ∧ (t.chan c).addr = 0#32 ∧
      (t.chan c).len = 0#32 ∧ (t.chan c).xfer = 0#32) ∧
    t.mem = s.mem ∧ t.cfg = s.cfg ∧ t.host = s.host ∧ t.sched = rest

/-- 70_reset_and_hazards.md R294, 10_state.md R43: this hardware right after reset is quiescent, holds `TX_STATUS = RX_STATUS =
SG_MODE << 8`, and meets the invariant; so does every well-formed build. -/
def Obligations.ResetIsQuiescentAndGood : Prop :=
  State.reset.Quiescent ∧ State.reset.Inv ∧ State.reset.cfg.dim = 32 ∧
  ∀ c : Config, c.wellFormed = true → (State.resetOf c).Quiescent ∧ (State.resetOf c).Inv ∧
    ∀ d, isStatusView (readStatus d (State.resetOf c)) c.sgMode ((State.resetOf c).chan d) ∧
      readStatus d (State.resetOf c) = if c.sgMode then 0x100#32 else 0#32

/-! ### The whole machine -/

/-- 10_state.md R22, R30, R31, R41, 42_compute_kernel.md R167, 30_encoding.md R93: every step of the machine, of any agent or a
reset, keeps the invariant of the kernel, the streams, the channels, host memory and the host. -/
def Obligations.StepKeepsInvariant : Prop :=
  ∀ s t : State, s.Inv → step s = .next t → t.Inv

/-- 10_state.md R42: no step changes a parameter; that the parameters stand in the state is the model's choice (log 1). No
operation of the table changes the schedule, the host's queue or the names bound, which are the model's own fields (log 2,
log 3, log 23). -/
def Obligations.ParametersNeverChange : Prop :=
  (∀ s t : State, step s = .next t → t.cfg = s.cfg) ∧
  ∀ (i : Instr) (s t : State), exec i s = .next t →
    t.sched = s.sched ∧ t.tick = s.tick ∧ t.host.queue = s.host.queue ∧ t.host.env = s.host.env

/-- 20_memory.md R60, R66: of all operations only RX.BEAT writes host memory, and only the four bytes at `RX.ADDR + RX.XFER`. -/
def Obligations.OnlyRxBeatWritesMemory : Prop :=
  ∀ (i : Instr) (s t : State), exec i s = .next t →
    (i ≠ .rxBeat → t.mem = s.mem) ∧
    ∀ b, b < s.rx.addr.toNat + s.rx.xfer.toNat ∨ s.rx.addr.toNat + s.rx.xfer.toNat + 4 ≤ b →
      Memory.readByte t.mem b = Memory.readByte s.mem b

/-- 10_state.md R23, R24, R25, R29: each storage is written by one kernel step alone, at the sequencer's index alone, and only
kernel steps move the sequencer. -/
def Obligations.KernelStorageWriters : Prop :=
  ∀ (i : Instr) (s t : State), exec i s = .next t →
    (i ≠ .kLoadA → t.k.a = s.k.a) ∧ (i ≠ .kLoadB → t.k.b = s.k.b) ∧ (i ≠ .kCell → t.k.out = s.k.out) ∧
    (∀ j, j ≠ s.k.idx → lookup j t.k.a = lookup j s.k.a ∧ lookup j t.k.b = lookup j s.k.b ∧
      lookup j t.k.out = lookup j s.k.out) ∧
    (i ≠ .kLoadA → i ≠ .kLoadB → i ≠ .kCell → i ≠ .kStore → t.k = s.k)

/-- 10_state.md R30: `IN` is written only by TX.BEAT, at the tail, and read only by the kernel's load steps, at the head; `OUT` is
written only by K.STORE and read only by RX.BEAT. -/
def Obligations.StreamsAreFifo : Prop :=
  ∀ (i : Instr) (s t : State), exec i s = .next t →
    (t.inq = s.inq ∨ (i = .txBeat ∧ ∃ w, t.inq = s.inq ++ [w]) ∨
      ((i = .kLoadA ∨ i = .kLoadB) ∧ ∃ w, s.inq = w :: t.inq)) ∧
    (t.outq = s.outq ∨ (i = .kStore ∧ ∃ w, t.outq = s.outq ++ [w]) ∨ (i = .rxBeat ∧ ∃ w, s.outq = w :: t.outq))

/-- 10_state.md R40, 60_exceptions.md R263: a channel's request line is 1 exactly where an enabled source has its flag set,
`(IE_DONE and DONE) or (IE_ERR and ERR)`; so with the enables 0 it is 0, and no operation but a write of a
non-zero value to its `c_CTRL` sets an enable. -/
def Obligations.InterruptsStayDisabled : Prop :=
  (∀ ch : Channel, irq ch = true ↔ (ch.ieDone = true ∧ ch.done = true) ∨ (ch.ieErr = true ∧ ch.err = true)) ∧
  ∀ (i : Instr) (s t : State) (c : Chan), exec i s = .next t → (s.chan c).ieDone = false → (s.chan c).ieErr = false →
    irq (s.chan c) = false ∧
    ((∀ v, i = wrCtrl c v → v.extractLsb' 0 2 = 0#2) → (t.chan c).ieDone = false ∧ (t.chan c).ieErr = false)
end

