-- ==== Sys2Proof/Laws/State.lean ====
section
/-! SUPPORT. What each update of the state leaves in each field: one small lemma per field and update, so that no later proof
unfolds a record update. -/

namespace Sys2Proof.Machine

/-! ### Channels by name -/

@[simp] theorem chan_tx (s : State) : s.chan .tx = s.tx := rfl
@[simp] theorem chan_rx (s : State) : s.chan .rx = s.rx := rfl
@[simp] theorem setChan_tx_tx (s : State) (ch : Channel) : (s.setChan .tx ch).tx = ch := rfl
@[simp] theorem setChan_tx_rx (s : State) (ch : Channel) : (s.setChan .tx ch).rx = s.rx := rfl
@[simp] theorem setChan_rx_rx (s : State) (ch : Channel) : (s.setChan .rx ch).rx = ch := rfl
@[simp] theorem setChan_rx_tx (s : State) (ch : Channel) : (s.setChan .rx ch).tx = s.tx := rfl

@[simp] theorem chan_setChan_same (s : State) (c : Chan) (ch : Channel) : (s.setChan c ch).chan c = ch := by
  cases c <;> rfl

theorem chan_setChan_other (s : State) (c d : Chan) (ch : Channel) (h : d ≠ c) : (s.setChan c ch).chan d = s.chan d := by
  cases c <;> cases d <;> first | rfl | exact absurd rfl h

@[simp] theorem setChan_self (s : State) (c : Chan) : s.setChan c (s.chan c) = s := by
  cases c <;> rfl

@[simp] theorem setChan_setChan (s : State) (c : Chan) (x y : Channel) : (s.setChan c x).setChan c y = s.setChan c y := by
  cases c <;> rfl

/-! ### setChan -/

@[simp] theorem setChan_cfg (s : State) (c : Chan) (ch : Channel) : (s.setChan c ch).cfg = s.cfg := by cases c <;> rfl
@[simp] theorem setChan_k (s : State) (c : Chan) (ch : Channel) : (s.setChan c ch).k = s.k := by cases c <;> rfl
@[simp] theorem setChan_inq (s : State) (c : Chan) (ch : Channel) : (s.setChan c ch).inq = s.inq := by cases c <;> rfl
@[simp] theorem setChan_outq (s : State) (c : Chan) (ch : Channel) : (s.setChan c ch).outq = s.outq := by cases c <;> rfl
@[simp] theorem setChan_mem (s : State) (c : Chan) (ch : Channel) : (s.setChan c ch).mem = s.mem := by cases c <;> rfl
@[simp] theorem setChan_host (s : State) (c : Chan) (ch : Channel) : (s.setChan c ch).host = s.host := by cases c <;> rfl
@[simp] theorem setChan_sched (s : State) (c : Chan) (ch : Channel) : (s.setChan c ch).sched = s.sched := by cases c <;> rfl
@[simp] theorem setChan_tick (s : State) (c : Chan) (ch : Channel) : (s.setChan c ch).tick = s.tick := by cases c <;> rfl
@[simp] theorem setChan_draws (s : State) (c : Chan) (ch : Channel) : (s.setChan c ch).draws = s.draws := by cases c <;> rfl

/-! ### raiseError -/

@[simp] theorem raiseError_cfg (s : State) (c : Chan) (e : BitVec 3) : (raiseError c e s).cfg = s.cfg := by cases c <;> rfl
@[simp] theorem raiseError_k (s : State) (c : Chan) (e : BitVec 3) : (raiseError c e s).k = s.k := by cases c <;> rfl
@[simp] theorem raiseError_inq (s : State) (c : Chan) (e : BitVec 3) : (raiseError c e s).inq = s.inq := by cases c <;> rfl
@[simp] theorem raiseError_outq (s : State) (c : Chan) (e : BitVec 3) : (raiseError c e s).outq = s.outq := by cases c <;> rfl
@[simp] theorem raiseError_mem (s : State) (c : Chan) (e : BitVec 3) : (raiseError c e s).mem = s.mem := by cases c <;> rfl
@[simp] theorem raiseError_host (s : State) (c : Chan) (e : BitVec 3) : (raiseError c e s).host = s.host := by cases c <;> rfl
@[simp] theorem raiseError_sched (s : State) (c : Chan) (e : BitVec 3) : (raiseError c e s).sched = s.sched := by cases c <;> rfl
@[simp] theorem raiseError_tick (s : State) (c : Chan) (e : BitVec 3) : (raiseError c e s).tick = s.tick := by cases c <;> rfl
@[simp] theorem raiseError_draws (s : State) (c : Chan) (e : BitVec 3) : (raiseError c e s).draws = s.draws := by cases c <;> rfl

/-! ### complete -/

@[simp] theorem complete_cfg (s : State) (c : Chan) : (complete c s).cfg = s.cfg := by cases c <;> rfl
@[simp] theorem complete_k (s : State) (c : Chan) : (complete c s).k = s.k := by cases c <;> rfl
@[simp] theorem complete_inq (s : State) (c : Chan) : (complete c s).inq = s.inq := by cases c <;> rfl
@[simp] theorem complete_outq (s : State) (c : Chan) : (complete c s).outq = s.outq := by cases c <;> rfl
@[simp] theorem complete_mem (s : State) (c : Chan) : (complete c s).mem = s.mem := by cases c <;> rfl
@[simp] theorem complete_host (s : State) (c : Chan) : (complete c s).host = s.host := by cases c <;> rfl
@[simp] theorem complete_sched (s : State) (c : Chan) : (complete c s).sched = s.sched := by cases c <;> rfl
@[simp] theorem complete_tick (s : State) (c : Chan) : (complete c s).tick = s.tick := by cases c <;> rfl
@[simp] theorem complete_draws (s : State) (c : Chan) : (complete c s).draws = s.draws := by cases c <;> rfl

/-! ### countBeat -/

@[simp] theorem countBeat_cfg (s : State) (c : Chan) : (countBeat c s).cfg = s.cfg := by cases c <;> rfl
@[simp] theorem countBeat_k (s : State) (c : Chan) : (countBeat c s).k = s.k := by cases c <;> rfl
@[simp] theorem countBeat_inq (s : State) (c : Chan) : (countBeat c s).inq = s.inq := by cases c <;> rfl
@[simp] theorem countBeat_outq (s : State) (c : Chan) : (countBeat c s).outq = s.outq := by cases c <;> rfl
@[simp] theorem countBeat_mem (s : State) (c : Chan) : (countBeat c s).mem = s.mem := by cases c <;> rfl
@[simp] theorem countBeat_host (s : State) (c : Chan) : (countBeat c s).host = s.host := by cases c <;> rfl
@[simp] theorem countBeat_sched (s : State) (c : Chan) : (countBeat c s).sched = s.sched := by cases c <;> rfl
@[simp] theorem countBeat_tick (s : State) (c : Chan) : (countBeat c s).tick = s.tick := by cases c <;> rfl
@[simp] theorem countBeat_draws (s : State) (c : Chan) : (countBeat c s).draws = s.draws := by cases c <;> rfl

/-! ### bind -/

@[simp] theorem bind_cfg (s : State) (v : Word) : (s.bind v).cfg = s.cfg := rfl
@[simp] theorem bind_k (s : State) (v : Word) : (s.bind v).k = s.k := rfl
@[simp] theorem bind_inq (s : State) (v : Word) : (s.bind v).inq = s.inq := rfl
@[simp] theorem bind_outq (s : State) (v : Word) : (s.bind v).outq = s.outq := rfl
@[simp] theorem bind_tx (s : State) (v : Word) : (s.bind v).tx = s.tx := rfl
@[simp] theorem bind_rx (s : State) (v : Word) : (s.bind v).rx = s.rx := rfl
@[simp] theorem bind_mem (s : State) (v : Word) : (s.bind v).mem = s.mem := rfl
@[simp] theorem bind_sched (s : State) (v : Word) : (s.bind v).sched = s.sched := rfl
@[simp] theorem bind_tick (s : State) (v : Word) : (s.bind v).tick = s.tick := rfl
@[simp] theorem bind_draws (s : State) (v : Word) : (s.bind v).draws = s.draws := rfl

/-! ### bindWord -/

@[simp] theorem bindWord_cfg (s : State) (w : StreamWord) : (s.bindWord w).cfg = s.cfg := rfl
@[simp] theorem bindWord_k (s : State) (w : StreamWord) : (s.bindWord w).k = s.k := rfl
@[simp] theorem bindWord_inq (s : State) (w : StreamWord) : (s.bindWord w).inq = s.inq := rfl
@[simp] theorem bindWord_outq (s : State) (w : StreamWord) : (s.bindWord w).outq = s.outq := rfl
@[simp] theorem bindWord_tx (s : State) (w : StreamWord) : (s.bindWord w).tx = s.tx := rfl
@[simp] theorem bindWord_rx (s : State) (w : StreamWord) : (s.bindWord w).rx = s.rx := rfl
@[simp] theorem bindWord_mem (s : State) (w : StreamWord) : (s.bindWord w).mem = s.mem := rfl
@[simp] theorem bindWord_sched (s : State) (w : StreamWord) : (s.bindWord w).sched = s.sched := rfl
@[simp] theorem bindWord_tick (s : State) (w : StreamWord) : (s.bindWord w).tick = s.tick := rfl
@[simp] theorem bindWord_draws (s : State) (w : StreamWord) : (s.bindWord w).draws = s.draws := rfl

/-! ### atPos -/

@[simp] theorem atPos_cfg (s : State) (n : Nat) : (s.atPos n).cfg = s.cfg := rfl
@[simp] theorem atPos_k (s : State) (n : Nat) : (s.atPos n).k = s.k := rfl
@[simp] theorem atPos_inq (s : State) (n : Nat) : (s.atPos n).inq = s.inq := rfl
@[simp] theorem atPos_outq (s : State) (n : Nat) : (s.atPos n).outq = s.outq := rfl
@[simp] theorem atPos_tx (s : State) (n : Nat) : (s.atPos n).tx = s.tx := rfl
@[simp] theorem atPos_rx (s : State) (n : Nat) : (s.atPos n).rx = s.rx := rfl
@[simp] theorem atPos_mem (s : State) (n : Nat) : (s.atPos n).mem = s.mem := rfl
@[simp] theorem atPos_sched (s : State) (n : Nat) : (s.atPos n).sched = s.sched := rfl
@[simp] theorem atPos_tick (s : State) (n : Nat) : (s.atPos n).tick = s.tick := rfl
@[simp] theorem atPos_draws (s : State) (n : Nat) : (s.atPos n).draws = s.draws := rfl

/-! ### ret -/

@[simp] theorem ret_cfg (s : State) (r : Ret) : (s.ret r).cfg = s.cfg := rfl
@[simp] theorem ret_k (s : State) (r : Ret) : (s.ret r).k = s.k := rfl
@[simp] theorem ret_inq (s : State) (r : Ret) : (s.ret r).inq = s.inq := rfl
@[simp] theorem ret_outq (s : State) (r : Ret) : (s.ret r).outq = s.outq := rfl
@[simp] theorem ret_tx (s : State) (r : Ret) : (s.ret r).tx = s.tx := rfl
@[simp] theorem ret_rx (s : State) (r : Ret) : (s.ret r).rx = s.rx := rfl
@[simp] theorem ret_mem (s : State) (r : Ret) : (s.ret r).mem = s.mem := rfl
@[simp] theorem ret_sched (s : State) (r : Ret) : (s.ret r).sched = s.sched := rfl
@[simp] theorem ret_tick (s : State) (r : Ret) : (s.ret r).tick = s.tick := rfl
@[simp] theorem ret_draws (s : State) (r : Ret) : (s.ret r).draws = s.draws := rfl

/-! ### bindName -/

@[simp] theorem bindName_cfg (s : State) (x : Nat) : (s.bindName x).cfg = s.cfg := rfl
@[simp] theorem bindName_k (s : State) (x : Nat) : (s.bindName x).k = s.k := rfl
@[simp] theorem bindName_inq (s : State) (x : Nat) : (s.bindName x).inq = s.inq := rfl
@[simp] theorem bindName_outq (s : State) (x : Nat) : (s.bindName x).outq = s.outq := rfl
@[simp] theorem bindName_tx (s : State) (x : Nat) : (s.bindName x).tx = s.tx := rfl
@[simp] theorem bindName_rx (s : State) (x : Nat) : (s.bindName x).rx = s.rx := rfl
@[simp] theorem bindName_mem (s : State) (x : Nat) : (s.bindName x).mem = s.mem := rfl
@[simp] theorem bindName_sched (s : State) (x : Nat) : (s.bindName x).sched = s.sched := rfl
@[simp] theorem bindName_tick (s : State) (x : Nat) : (s.bindName x).tick = s.tick := rfl
@[simp] theorem bindName_draws (s : State) (x : Nat) : (s.bindName x).draws = s.draws := rfl

/-! ### failWith -/

@[simp] theorem failWith_cfg (s : State) (r : Ret) : (s.failWith r).cfg = s.cfg := rfl
@[simp] theorem failWith_k (s : State) (r : Ret) : (s.failWith r).k = s.k := rfl
@[simp] theorem failWith_inq (s : State) (r : Ret) : (s.failWith r).inq = s.inq := rfl
@[simp] theorem failWith_outq (s : State) (r : Ret) : (s.failWith r).outq = s.outq := rfl
@[simp] theorem failWith_tx (s : State) (r : Ret) : (s.failWith r).tx = s.tx := rfl
@[simp] theorem failWith_rx (s : State) (r : Ret) : (s.failWith r).rx = s.rx := rfl
@[simp] theorem failWith_mem (s : State) (r : Ret) : (s.failWith r).mem = s.mem := rfl
@[simp] theorem failWith_sched (s : State) (r : Ret) : (s.failWith r).sched = s.sched := rfl
@[simp] theorem failWith_tick (s : State) (r : Ret) : (s.failWith r).tick = s.tick := rfl
@[simp] theorem failWith_draws (s : State) (r : Ret) : (s.failWith r).draws = s.draws := rfl

/-! ### hardReset -/

@[simp] theorem hardReset_cfg (s : State) : (hardReset s).cfg = s.cfg := rfl
@[simp] theorem hardReset_mem (s : State) : (hardReset s).mem = s.mem := rfl
@[simp] theorem hardReset_host (s : State) : (hardReset s).host = s.host := rfl
@[simp] theorem hardReset_sched (s : State) : (hardReset s).sched = s.sched := rfl
@[simp] theorem hardReset_tick (s : State) : (hardReset s).tick = s.tick := rfl
@[simp] theorem hardReset_draws (s : State) : (hardReset s).draws = s.draws := rfl

/-! ### bindFp -/

@[simp] theorem bindFp_cfg (s : State) (r : Word × Nat) : (bindFp r s).cfg = s.cfg := rfl
@[simp] theorem bindFp_k (s : State) (r : Word × Nat) : (bindFp r s).k = s.k := rfl
@[simp] theorem bindFp_inq (s : State) (r : Word × Nat) : (bindFp r s).inq = s.inq := rfl
@[simp] theorem bindFp_outq (s : State) (r : Word × Nat) : (bindFp r s).outq = s.outq := rfl
@[simp] theorem bindFp_tx (s : State) (r : Word × Nat) : (bindFp r s).tx = s.tx := rfl
@[simp] theorem bindFp_rx (s : State) (r : Word × Nat) : (bindFp r s).rx = s.rx := rfl
@[simp] theorem bindFp_mem (s : State) (r : Word × Nat) : (bindFp r s).mem = s.mem := rfl
@[simp] theorem bindFp_sched (s : State) (r : Word × Nat) : (bindFp r s).sched = s.sched := rfl
@[simp] theorem bindFp_tick (s : State) (r : Word × Nat) : (bindFp r s).tick = s.tick := rfl

@[simp] theorem raiseError_chan (s : State) (c : Chan) (e : BitVec 3) :
    (raiseError c e s).chan c = { s.chan c with busy := false, err := true, errcode := e } := chan_setChan_same ..

@[simp] theorem complete_chan (s : State) (c : Chan) :
    (complete c s).chan c = { s.chan c with busy := false, done := true } := chan_setChan_same ..

@[simp] theorem countBeat_chan (s : State) (c : Chan) :
    (countBeat c s).chan c = { s.chan c with xfer := (s.chan c).xfer + 4#32 } := chan_setChan_same ..

@[simp] theorem bind_host (s : State) (v : Word) : (s.bind v).host = { s.host with x := v } := rfl
@[simp] theorem bindWord_host (s : State) (w : StreamWord) : (s.bindWord w).host = { s.host with word := w } := rfl
@[simp] theorem atPos_host (s : State) (n : Nat) : (s.atPos n).host = { s.host with pos := n } := rfl
@[simp] theorem ret_host (s : State) (r : Ret) : (s.ret r).host = { s.host with pos := 0, ret := r } := rfl
@[simp] theorem bindName_host (s : State) (x : Nat) :
    (s.bindName x).host = { s.host with env := insertAt x s.host.x s.host.env } := rfl
@[simp] theorem failWith_host (s : State) (r : Ret) :
    (s.failWith r).host = { s.host with queue := [], pos := 0, ret := r } := rfl
@[simp] theorem bindFp_host (s : State) (r : Word × Nat) : (bindFp r s).host = { s.host with x := r.1 } := rfl
@[simp] theorem bindFp_draws (s : State) (r : Word × Nat) : (bindFp r s).draws = r.2 := rfl
@[simp] theorem hardReset_k (s : State) : (hardReset s).k = Kernel.reset := rfl
@[simp] theorem hardReset_inq (s : State) : (hardReset s).inq = [] := rfl
@[simp] theorem hardReset_outq (s : State) : (hardReset s).outq = [] := rfl
@[simp] theorem hardReset_tx (s : State) : (hardReset s).tx = Channel.reset := rfl
@[simp] theorem hardReset_rx (s : State) : (hardReset s).rx = Channel.reset := rfl

end Sys2Proof.Machine
end

