-- ==== Sys2Proof/Laws/Ops.lean ====
section
/-! SUPPORT. What the shared operations over keyed lists, host memory and streams do: read after write, the other places, the
canonical form kept. -/

namespace Sys2Proof.Machine

/-! ### Outcomes in sequence -/

theorem andThen_eq_next {r : Result} {f : State → Result} {t : State} (h : andThen r f = .next t) :
    ∃ u, r = .next u ∧ f u = .next t := by
  cases r with
  | next u    => exact ⟨u, rfl, h⟩
  | fault e   => cases h
  | refused e => cases h

@[simp] theorem andThen_next (s : State) (f : State → Result) : andThen (.next s) f = f s := rfl
@[simp] theorem andThen_fault (e : Fault) (f : State → Result) : andThen (.fault e) f = .fault e := rfl
@[simp] theorem andThen_refused (e : Refusal) (f : State → Result) : andThen (.refused e) f = .refused e := rfl

/-! ### Keyed lists -/

variable {α : Type}

theorem rising_tail {e : Nat × α} {l : List (Nat × α)} (h : rising (e :: l) = true) : rising l = true := by
  cases l with
  | nil => rfl
  | cons f l => simp [rising] at h; exact h.2

theorem rising_head_lt {i : Nat} {v : α} {l : List (Nat × α)} (h : rising ((i, v) :: l) = true) :
    ∀ e ∈ l, i < e.1 := by
  induction l generalizing i v with
  | nil => intro e he; cases he
  | cons f l ih =>
    obtain ⟨j, w⟩ := f
    simp only [rising, Bool.and_eq_true, decide_eq_true_eq] at h
    intro e he
    rcases List.mem_cons.mp he with rfl | he
    · exact h.1
    · exact lt_trans h.1 (ih h.2 e he)

theorem rising_cons {i : Nat} {v : α} {l : List (Nat × α)} (hl : rising l = true) (h : ∀ e ∈ l, i < e.1) :
    rising ((i, v) :: l) = true := by
  cases l with
  | nil => rfl
  | cons f l =>
    obtain ⟨j, w⟩ := f
    simp only [rising, Bool.and_eq_true, decide_eq_true_eq]
    exact ⟨h (j, w) (List.mem_cons_self ..), hl⟩

theorem mem_insertAt {k : Nat} {v : α} {l : List (Nat × α)} {e : Nat × α} (h : e ∈ insertAt k v l) :
    e = (k, v) ∨ e ∈ l := by
  induction l with
  | nil => exact .inl (by simpa [insertAt] using h)
  | cons f l ih =>
    obtain ⟨j, w⟩ := f
    unfold insertAt at h
    split at h
    · simpa using h
    · split at h
      · rcases List.mem_cons.mp h with h | h
        · exact .inl h
        · exact .inr (List.mem_cons_of_mem _ h)
      · rcases List.mem_cons.mp h with h | h
        · exact .inr (h ▸ List.mem_cons_self ..)
        · exact (ih h).imp id (List.mem_cons_of_mem _)

theorem mem_removeAt {k : Nat} {l : List (Nat × α)} {e : Nat × α} (h : e ∈ removeAt k l) : e ∈ l := by
  induction l with
  | nil => exact h
  | cons f l ih =>
    obtain ⟨j, w⟩ := f
    unfold removeAt at h
    split at h
    · exact List.mem_cons_of_mem _ h
    · rcases List.mem_cons.mp h with h | h
      · exact h ▸ List.mem_cons_self ..
      · exact List.mem_cons_of_mem _ (ih h)

theorem rising_insertAt (k : Nat) (v : α) {l : List (Nat × α)} (h : rising l = true) :
    rising (insertAt k v l) = true := by
  induction l with
  | nil => rfl
  | cons f l ih =>
    obtain ⟨j, w⟩ := f
    unfold insertAt
    split
    · rename_i hk
      refine rising_cons h fun e he => ?_
      rcases List.mem_cons.mp he with rfl | he
      · exact hk
      · exact lt_trans hk (rising_head_lt h e he)
    · split
      · rename_i hk
        subst hk
        exact rising_cons (rising_tail h) (rising_head_lt h)
      · refine rising_cons (ih (rising_tail h)) fun e he => ?_
        rcases mem_insertAt he with rfl | he
        · show j < k
          omega
        · exact rising_head_lt h e he

theorem rising_removeAt (k : Nat) {l : List (Nat × α)} (h : rising l = true) : rising (removeAt k l) = true := by
  induction l with
  | nil => rfl
  | cons f l ih =>
    obtain ⟨j, w⟩ := f
    unfold removeAt
    split
    · exact rising_tail h
    · exact rising_cons (ih (rising_tail h)) fun e he => rising_head_lt h e (mem_removeAt he)

theorem lookup_none_of_lt {k : Nat} {l : List (Nat × α)} (h : ∀ e ∈ l, k < e.1) : lookup k l = none := by
  induction l with
  | nil => rfl
  | cons f l ih =>
    obtain ⟨j, w⟩ := f
    have hj : k < j := h (j, w) (List.mem_cons_self ..)
    rw [lookup, if_neg (by omega)]
    exact ih fun e he => h e (List.mem_cons_of_mem _ he)

@[simp] theorem lookup_insertAt_same (k : Nat) (v : α) (l : List (Nat × α)) : lookup k (insertAt k v l) = some v := by
  induction l with
  | nil => simp [insertAt, lookup]
  | cons f l ih =>
    obtain ⟨j, w⟩ := f
    unfold insertAt
    split
    · simp [lookup]
    · split
      · simp [lookup]
      · rw [lookup, if_neg (by omega), ih]

theorem lookup_insertAt_other {k j : Nat} (v : α) (l : List (Nat × α)) (h : j ≠ k) :
    lookup j (insertAt k v l) = lookup j l := by
  induction l with
  | nil => simp [insertAt, lookup, Ne.symm h]
  | cons f l ih =>
    obtain ⟨i, w⟩ := f
    unfold insertAt
    split
    · rw [lookup, if_neg (Ne.symm h)]
    · split
      · rename_i hk
        subst hk
        simp [lookup, Ne.symm h]
      · by_cases hi : i = j
        · simp [lookup, hi]
        · simp [lookup, hi, ih]

theorem lookup_removeAt_same {k : Nat} {l : List (Nat × α)} (h : rising l = true) : lookup k (removeAt k l) = none := by
  induction l with
  | nil => rfl
  | cons f l ih =>
    obtain ⟨j, w⟩ := f
    unfold removeAt
    split
    · rename_i hj
      subst hj
      exact lookup_none_of_lt (rising_head_lt h)
    · rename_i hj
      rw [lookup, if_neg hj]
      exact ih (rising_tail h)

theorem lookup_removeAt_other {k j : Nat} (l : List (Nat × α)) (h : j ≠ k) :
    lookup j (removeAt k l) = lookup j l := by
  induction l with
  | nil => rfl
  | cons f l ih =>
    obtain ⟨i, w⟩ := f
    unfold removeAt
    split
    · rename_i hi
      subst hi
      rw [lookup, if_neg (Ne.symm h)]
    · by_cases hi : i = j
      · simp [lookup, hi]
      · simp [lookup, hi, ih]

/-! ### Host memory -/

theorem Memory.wf_writeByte {m : List Host.Cell} (a : Nat) (v : Byte) (h : Memory.wf m = true) :
    Memory.wf (Memory.writeByte m a v) = true := by
  simp only [Memory.wf, Bool.and_eq_true, List.all_eq_true, bne_iff_ne, ne_eq] at h ⊢
  unfold Memory.writeByte
  split
  · exact ⟨rising_removeAt a h.1, fun e he => h.2 e (mem_removeAt he)⟩
  · rename_i hv
    refine ⟨rising_insertAt a v h.1, fun e he => ?_⟩
    rcases mem_insertAt he with rfl | he
    · exact hv
    · exact h.2 e he

theorem Memory.wf_writeWord {m : List Host.Cell} (a : Nat) (v : Word) (h : Memory.wf m = true) :
    Memory.wf (Memory.writeWord m a v) = true :=
  wf_writeByte _ _ (wf_writeByte _ _ (wf_writeByte _ _ (wf_writeByte _ _ h)))

theorem Memory.mem_writeByte {m : List Host.Cell} {a : Nat} {v : Byte} {e : Host.Cell}
    (h : e ∈ Memory.writeByte m a v) : e.1 = a ∨ e ∈ m := by
  unfold Memory.writeByte at h
  split at h
  · exact .inr (mem_removeAt h)
  · exact (mem_insertAt h).imp (fun h => by rw [h]) id

theorem Memory.readByte_writeByte_same {m : List Host.Cell} (a : Nat) (v : Byte) (h : Memory.wf m = true) :
    Memory.readByte (Memory.writeByte m a v) a = v := by
  have hr : rising m = true := by
    simp only [Memory.wf, Bool.and_eq_true] at h
    exact h.1
  unfold Memory.readByte Memory.writeByte
  split
  · rename_i hv
    rw [lookup_removeAt_same hr, hv]
    rfl
  · simp

theorem Memory.readByte_writeByte_other (m : List Host.Cell) {a b : Nat} (v : Byte) (h : b ≠ a) :
    Memory.readByte (Memory.writeByte m a v) b = Memory.readByte m b := by
  unfold Memory.readByte Memory.writeByte
  split
  · rw [lookup_removeAt_other m h]
  · rw [lookup_insertAt_other v m h]

/-- A word write leaves every byte outside its four bytes alone. -/
theorem Memory.readByte_writeWord_outside (m : List Host.Cell) {a b : Nat} (v : Word) (h : b < a ∨ a + 4 ≤ b) :
    Memory.readByte (Memory.writeWord m a v) b = Memory.readByte m b := by
  unfold Memory.writeWord
  rw [readByte_writeByte_other _ _ (by omega), readByte_writeByte_other _ _ (by omega),
    readByte_writeByte_other _ _ (by omega), readByte_writeByte_other _ _ (by omega)]

/-- Byte `n` of a word just written (20_memory.md R61). -/
theorem Memory.readByte_writeWord_inside {m : List Host.Cell} (a : Nat) (v : Word) (h : Memory.wf m = true) {n : Nat}
    (hn : n < 4) : Memory.readByte (Memory.writeWord m a v) (a + n) = v.extractLsb' (8 * n) 8 := by
  have h1 := wf_writeByte a (v.extractLsb' 0 8) h
  have h2 := wf_writeByte (a + 1) (v.extractLsb' 8 8) h1
  have h3 := wf_writeByte (a + 2) (v.extractLsb' 16 8) h2
  unfold Memory.writeWord
  match n, hn with
  | 0, _ =>
    rw [readByte_writeByte_other _ _ (by omega), readByte_writeByte_other _ _ (by omega),
      readByte_writeByte_other _ _ (by omega)]
    exact readByte_writeByte_same a _ h
  | 1, _ =>
    rw [readByte_writeByte_other _ _ (by omega), readByte_writeByte_other _ _ (by omega)]
    exact readByte_writeByte_same (a + 1) _ h1
  | 2, _ =>
    rw [readByte_writeByte_other _ _ (by omega)]
    exact readByte_writeByte_same (a + 2) _ h2
  | 3, _ => exact readByte_writeByte_same (a + 3) _ h3

/-- The word read back is the word written (20_memory.md R61). -/
theorem Memory.readWord_writeWord_same {m : List Host.Cell} (a : Nat) (v : Word) (h : Memory.wf m = true) :
    Memory.readWord (Memory.writeWord m a v) a = v := by
  have b0 := readByte_writeWord_inside a v h (n := 0) (by omega)
  have b1 := readByte_writeWord_inside a v h (n := 1) (by omega)
  have b2 := readByte_writeWord_inside a v h (n := 2) (by omega)
  have b3 := readByte_writeWord_inside a v h (n := 3) (by omega)
  simp only [Nat.add_zero, Nat.mul_zero, Nat.mul_one] at b0 b1 b2 b3
  unfold Memory.readWord
  rw [b0, b1, b2, b3]
  ext i hi
  simp only [BitVec.getElem_cast, BitVec.getElem_append, BitVec.getElem_extractLsb']
  repeat' split
  all_goals (first | rfl | (rw [BitVec.getLsbD_eq_getElem (by omega)]; congr 1; omega))

theorem Memory.readWord_writeWord_outside (m : List Host.Cell) {a b : Nat} (v : Word) (h : b + 4 ≤ a ∨ a + 4 ≤ b) :
    Memory.readWord (Memory.writeWord m a v) b = Memory.readWord m b := by
  unfold Memory.readWord
  rw [readByte_writeWord_outside m v (b := b + 3) (by omega), readByte_writeWord_outside m v (b := b + 2) (by omega),
    readByte_writeWord_outside m v (b := b + 1) (by omega), readByte_writeWord_outside m v (b := b) (by omega)]

/-! ### Streams -/

/-- There is room exactly when the length is below the depth (10_state.md R30). -/
theorem hasRoom_bounded (q : List StreamWord) (extra : Nat) :
    hasRoom q (.bounded extra) = decide (q.length < extra + 1) := by
  induction q generalizing extra with
  | nil => simp [hasRoom]
  | cons w q ih =>
    cases extra with
    | zero => simp [hasRoom]
    | succ n => rw [hasRoom, ih]; simp

@[simp] theorem hasRoom_unbounded (q : List StreamWord) : hasRoom q .unbounded = true := by
  cases q <;> rfl

@[simp] theorem hasRoom_nil (d : Depth) : hasRoom [] d = true := by
  cases d <;> rfl

end Sys2Proof.Machine
end

