-- ==== Sys2Proof/Laws/Beats.lean ====
section
/-! SUPPORT. Everything a beat can do. -/

namespace Sys2Proof.Machine

theorem mappedWord_iff (c : Config) (a : Nat) : mappedWord c a = true ↔ ∀ n < 4, mapped c (a + n) = true := by
  simp only [mappedWord, Bool.and_eq_true]
  constructor
  · rintro ⟨⟨⟨h0, h1⟩, h2⟩, h3⟩ n hn
    match n, hn with
    | 0, _ => exact h0
    | 1, _ => exact h1
    | 2, _ => exact h2
    | 3, _ => exact h3
  · intro h
    exact ⟨⟨⟨h 0 (by omega), h 1 (by omega)⟩, h 2 (by omega)⟩, h 3 (by omega)⟩

theorem mapped_lt {c : Config} {a : Nat} (h : mapped c a = true) : a < 2 ^ 32 := by
  simp only [mapped, Bool.and_eq_true, decide_eq_true_eq] at h
  exact h.1.1

theorem beatError_none_iff (c : Config) (dir : Chan) (a : Nat) :
    beatError c dir a = none ↔ mappedWord c a = true ∧ busFault c dir a = false := by
  unfold beatError
  cases mappedWord c a <;> cases busFault c dir a <;> simp

/-- A beat error's code is `DEC` or `SLV`. -/
theorem beatError_code {c : Config} {dir : Chan} {a : Nat} {code : BitVec 3} (h : beatError c dir a = some code) :
    code = 3#3 ∨ code = 4#3 := by
  unfold beatError at h
  split at h
  · exact .inl (Option.some.inj h).symm
  · split at h
    · exact .inr (Option.some.inj h).symm
    · cases h

/-- TX.BEAT waits, halts the channel with a beat error, or pushes one word and counts it. -/
theorem execTxBeat_next {s t : State} (h : execTxBeat s = .next t) :
    t = s ∨
    (s.tx.busy = true ∧ hasRoom s.inq s.cfg.inDepth = true ∧
      ((∃ code, beatError s.cfg .tx (beatAddr s.tx) = some code ∧
          t = { s with tx := { s.tx with busy := false, err := true, errcode := code } }) ∨
        (beatError s.cfg .tx (beatAddr s.tx) = none ∧
          t.inq = s.inq ++ [encodeWord (Memory.readWord s.mem (beatAddr s.tx)) (lastBeat s.tx)] ∧
          t = { s with
            inq := t.inq
            tx := if lastBeat s.tx then { s.tx with xfer := s.tx.xfer + 4#32, busy := false, done := true }
              else { s.tx with xfer := s.tx.xfer + 4#32 } }))) := by
  unfold execTxBeat at h
  split at h
  · rename_i he
    simp only [Bool.and_eq_true] at he
    refine .inr ⟨he.1, he.2, ?_⟩
    simp only at h
    split at h
    · rename_i code hc
      cases h
      exact .inl ⟨code, hc, rfl⟩
    · rename_i hc
      cases h
      refine .inr ⟨hc, ?_, ?_⟩ <;> cases lastBeat s.tx <;> rfl
  · cases h
    exact .inl rfl

/-- RX.BEAT waits, halts the channel with a beat error, or pops one word, stores its payload and counts it. -/
theorem execRxBeat_next {s t : State} (h : execRxBeat s = .next t) :
    t = s ∨
    (s.rx.busy = true ∧ ∃ w q, s.outq = w :: q ∧
      ((∃ code, beatError s.cfg .rx (beatAddr s.rx) = some code ∧
          t = { s with rx := { s.rx with busy := false, err := true, errcode := code } }) ∨
        (beatError s.cfg .rx (beatAddr s.rx) = none ∧
          t = { s with
            outq := q
            mem := Memory.writeWord s.mem (beatAddr s.rx) w.data
            rx :=
              if w.last then { s.rx with xfer := s.rx.xfer + 4#32, busy := false, done := true }
              else if lastBeat s.rx then
                { s.rx with xfer := s.rx.xfer + 4#32, busy := false, err := true, errcode := errOverrun }
              else { s.rx with xfer := s.rx.xfer + 4#32 } }))) := by
  unfold execRxBeat at h
  split at h
  · rename_i hb
    split at h
    · cases h
      exact .inl rfl
    · rename_i w q hq
      refine .inr ⟨hb, w, q, hq, ?_⟩
      simp only at h
      split at h
      · rename_i code hc
        cases h
        exact .inl ⟨code, hc, rfl⟩
      · rename_i hc
        cases h
        refine .inr ⟨hc, ?_⟩
        cases w.last <;> cases lastBeat s.rx <;> rfl
  · cases h
    exact .inl rfl

end Sys2Proof.Machine
end

