-- ==== Sys2Proof/Laws/Decode.lean ====
section
/-! SUPPORT. The fields of the packed forms (30_encoding.md R92, R96): packing and reading back, one lemma per field. -/

namespace Sys2Proof

theorem cast_and_cast {m n : Nat} (h h' : m = n) (x y : BitVec m) : x.cast h &&& y.cast h' = (x &&& y).cast h := by
  subst h
  rfl

/-! ### The register transaction -/

@[simp] theorem packBus_rw (rw : Bool) (offset : BitVec 6) (v : Word) : (packBus rw offset v).getLsbD 38 = rw := by
  simp only [packBus, BitVec.getLsbD_cast, BitVec.getLsbD_append]
  cases rw <;> rfl

@[simp] theorem packBus_offset (rw : Bool) (offset : BitVec 6) (v : Word) :
    (packBus rw offset v).extractLsb' 32 6 = offset := by
  ext i hi
  simp only [packBus, BitVec.getElem_extractLsb', BitVec.getLsbD_cast, BitVec.getLsbD_append]
  rw [if_neg (by omega), Nat.add_sub_cancel_left, if_pos hi, BitVec.getLsbD_eq_getElem]

@[simp] theorem packBus_wdata (rw : Bool) (offset : BitVec 6) (v : Word) :
    (packBus rw offset v).extractLsb' 0 32 = v := by
  ext i hi
  simp only [packBus, BitVec.getElem_extractLsb', BitVec.getLsbD_cast, BitVec.getLsbD_append]
  rw [Nat.zero_add, if_pos hi, BitVec.getLsbD_eq_getElem]

/-- An offset that is no multiple of 4 selects no register (10_state.md R38). -/
theorem decodeRead_misaligned {offset : BitVec 6} (h : offset.toNat % 4 ≠ 0) :
    decodeRead offset = .error .misalignedOffset := by
  unfold decodeRead
  split <;> first | rfl | exact absurd h (by decide)

theorem decodeWrite_misaligned {offset : BitVec 6} (v : Word) (h : offset.toNat % 4 ≠ 0) :
    decodeWrite offset v = .error .misalignedOffset := by
  unfold decodeWrite
  split <;> first | rfl | exact absurd h (by decide)

/-- A packed read selects the read of its offset, a packed write the write. -/
@[simp] theorem decode_encodeRead (offset : BitVec 6) : decode (encodeRead offset) = decodeRead offset := by
  rw [encodeRead, decode, decodeBus, packBus_rw, packBus_offset]
  rfl

@[simp] theorem decode_encodeWrite (offset : BitVec 6) (v : Word) :
    decode (encodeWrite offset v) = decodeWrite offset v := by
  rw [encodeWrite, decode, decodeBus, packBus_rw, packBus_offset, packBus_wdata]
  rfl

/-- The selector bits of a transaction are `rw` and `offset` alone, mask `0x7F00000000` (30_encoding.md R96). -/
theorem packBus_mask (rw : Bool) (offset : BitVec 6) (v : Word) :
    packBus rw offset v &&& 0x7F00000000#39 = packBus rw offset 0#32 := by
  have hm : (0x7F00000000#39) = ((BitVec.ofBool true ++ 0x3F#6 ++ 0#32 : BitVec (1 + 6 + 32)).cast (by decide)) := by
    decide
  rw [hm]
  have ho : offset &&& 63#6 = offset := BitVec.and_allOnes
  simp only [packBus, cast_and_cast, BitVec.and_append, BitVec.and_zero, ho]
  cases rw <;> rfl

/-! ### The Stream Word -/

@[simp] theorem unpack_packStream (w : StreamWord) : unpackStream (packStream w) = w := by
  obtain ⟨data, keep, user, id, dest, last⟩ := w
  simp only [unpackStream, packStream, StreamWord.mk.injEq]
  refine ⟨?_, ?_, ?_, ?_, ?_, ?_⟩
  · ext i hi
    simp only [BitVec.getElem_extractLsb', BitVec.getLsbD_cast, BitVec.getLsbD_append]
    rw [Nat.zero_add, if_pos (by omega), BitVec.getLsbD_eq_getElem]
  · ext i hi
    simp only [BitVec.getElem_extractLsb', BitVec.getLsbD_cast, BitVec.getLsbD_append]
    rw [if_neg (by omega), if_pos (by omega), BitVec.getLsbD_eq_getElem (by omega)]
    congr 1; omega
  · ext i hi
    simp only [BitVec.getElem_extractLsb', BitVec.getLsbD_cast, BitVec.getLsbD_append]
    rw [if_neg (by omega), if_neg (by omega), if_pos (by omega), BitVec.getLsbD_eq_getElem (by omega)]
    congr 1; omega
  · ext i hi
    simp only [BitVec.getElem_extractLsb', BitVec.getLsbD_cast, BitVec.getLsbD_append]
    rw [if_neg (by omega), if_neg (by omega), if_neg (by omega), if_pos (by omega), BitVec.getLsbD_eq_getElem (by omega)]
    congr 1; omega
  · ext i hi
    simp only [BitVec.getElem_extractLsb', BitVec.getLsbD_cast, BitVec.getLsbD_append]
    rw [if_neg (by omega), if_neg (by omega), if_neg (by omega), if_neg (by omega), if_pos (by omega),
      BitVec.getLsbD_eq_getElem (by omega)]
    congr 1; omega
  · simp only [BitVec.getLsbD_cast, BitVec.getLsbD_append]
    cases last <;> rfl

theorem packStream_data (w : StreamWord) : (packStream w).extractLsb' 0 32 = w.data :=
  congrArg StreamWord.data (unpack_packStream w)

theorem packStream_last (w : StreamWord) : (packStream w).getLsbD 50 = w.last :=
  congrArg StreamWord.last (unpack_packStream w)

/-- The eighteen side bits of a packed word, above the payload. -/
theorem packStream_side (w : StreamWord) :
    (packStream w).extractLsb' 32 18 = (w.dest ++ w.id ++ w.user ++ w.keep).cast (by decide) := by
  ext i hi
  simp only [packStream, BitVec.getElem_extractLsb', BitVec.getLsbD_cast, BitVec.getLsbD_append, BitVec.getElem_cast,
    BitVec.getElem_append]
  rw [if_neg (by omega)]
  have e : 32 + i - 32 = i := by omega
  rw [e]
  repeat' split
  all_goals first | (exfalso; omega) | rw [BitVec.getLsbD_eq_getElem]

/-- A produced word's side bits are the constants (30_encoding.md R93). -/
@[simp] theorem canonicalSide_produced (v : Word) (l : Bool) :
    canonicalSide (packStream ⟨v, 0xF#4, 0#4, 0#5, 0#5, l⟩) = true := by
  rw [canonicalSide, packStream_side]
  show ((0#5 ++ 0#5 ++ 0#4 ++ 15#4 : BitVec (5 + 5 + 4 + 4)).cast (by decide) == 15#18) = true
  decide

/-- The selector bits of a produced word are the side bits, mask `0x3FFFF00000000` (opcode_table.json, ENCODE). -/
theorem packStream_mask (v : Word) (l : Bool) :
    packStream ⟨v, 0xF#4, 0#4, 0#5, 0#5, l⟩ &&& 0x3FFFF00000000#51 = 0x0000F00000000#51 := by
  have hm : (0x3FFFF00000000#51) =
      ((BitVec.ofBool false ++ 0x1F#5 ++ 0x1F#5 ++ 0xF#4 ++ 0xF#4 ++ 0#32 : BitVec (1 + 5 + 5 + 4 + 4 + 32)).cast
        (by decide)) := by
    decide
  rw [hm]
  simp only [packStream, cast_and_cast, BitVec.and_append, BitVec.and_zero]
  cases l <;> decide

end Sys2Proof
end

