-- ==== Sys2Proof/Laws/Kernel.lean ====
section
/-! SUPPORT. Everything a kernel step can do, and what a cell sum reads. -/

namespace Sys2Proof.Machine

@[simp] theorem advance_a (c : Config) (k : Kernel) : (advance c k).a = k.a := by unfold advance; split <;> rfl
@[simp] theorem advance_b (c : Config) (k : Kernel) : (advance c k).b = k.b := by unfold advance; split <;> rfl
@[simp] theorem advance_out (c : Config) (k : Kernel) : (advance c k).out = k.out := by unfold advance; split <;> rfl

/-- The sequencer moves by one position (10_state.md R29). -/
theorem advance_eq (c : Config) (k : Kernel) :
    advance c k = { k with
      phase := if k.idx + 1 = c.n then nextPhase k.phase else k.phase
      idx := if k.idx + 1 = c.n then 0 else k.idx + 1 } := by
  unfold advance lastIndex
  by_cases h : k.idx + 1 = c.n <;> simp [h]

@[simp] theorem phaseOfCode_phaseCode (p : Phase) : phaseOfCode (phaseCode p) = p := by
  cases p <;> rfl

@[simp] theorem phaseCode_phaseOfCode (code : BitVec 2) : phaseCode (phaseOfCode code) = code := by
  revert code
  decide

/-- The step of each phase (30_encoding.md R98). -/
theorem stepKernel_eq (s : State) :
    stepKernel s = match s.k.phase with
      | .loadA   => execKLoadA s
      | .loadB   => execKLoadB s
      | .compute => execKCell s
      | .store   => execKStore s := by
  unfold stepKernel
  cases s.k.phase <;> rfl

/-- K.LOAD_A waits, or pops one word into operand A. -/
theorem execKLoadA_next {s t : State} (h : execKLoadA s = .next t) :
    t = s ∨ (s.k.phase = .loadA ∧ ∃ w q, s.inq = w :: q ∧
      t = { s with inq := q, k := advance s.cfg { s.k with a := insertAt s.k.idx w.data s.k.a } }) := by
  unfold execKLoadA at h
  split at h
  · rename_i hp
    split at h
    · cases h
      exact .inl rfl
    · rename_i w q hq
      cases h
      exact .inr ⟨hp, w, q, hq, rfl⟩
  · cases h
    exact .inl rfl

/-- K.LOAD_B waits, or pops one word into operand B. -/
theorem execKLoadB_next {s t : State} (h : execKLoadB s = .next t) :
    t = s ∨ (s.k.phase = .loadB ∧ ∃ w q, s.inq = w :: q ∧
      t = { s with inq := q, k := advance s.cfg { s.k with b := insertAt s.k.idx w.data s.k.b } }) := by
  unfold execKLoadB at h
  split at h
  · rename_i hp
    split at h
    · cases h
      exact .inl rfl
    · rename_i w q hq
      cases h
      exact .inr ⟨hp, w, q, hq, rfl⟩
  · cases h
    exact .inl rfl

/-- K.CELL is not selected, or stores one cell sum. -/
theorem execKCell_next {s t : State} (h : execKCell s = .next t) :
    t = s ∨ (s.k.phase = .compute ∧ ∃ acc,
      accumulate s.cfg s.k.a s.k.b s.draws (rowOf s.cfg s.k.idx) (colOf s.cfg s.k.idx) s.cfg.dim = some acc ∧
      t = { s with k := advance s.cfg { s.k with out := insertAt s.k.idx acc.1 s.k.out }, draws := acc.2 }) := by
  unfold execKCell at h
  split at h
  · rename_i hp
    split at h
    · rename_i acc ha
      cases h
      exact .inr ⟨hp, acc, ha, rfl⟩
    · cases h
  · cases h
    exact .inl rfl

/-- K.STORE waits, or pushes one result cell. -/
theorem execKStore_next {s t : State} (h : execKStore s = .next t) :
    t = s ∨ (s.k.phase = .store ∧ hasRoom s.outq s.cfg.outDepth = true ∧ ∃ v, lookup s.k.idx s.k.out = some v ∧
      t = { s with outq := s.outq ++ [encodeWord v (lastIndex s.cfg s.k.idx)], k := advance s.cfg s.k }) := by
  unfold execKStore at h
  split at h
  · rename_i hp
    split at h
    · rename_i hr
      split at h
      · rename_i v hv
        cases h
        exact .inr ⟨hp, hr, v, hv, rfl⟩
      · cases h
    · cases h
      exact .inl rfl
  · cases h
    exact .inl rfl

/-- A cell sum has a value exactly when the cells of its row and column have been written. -/
theorem accumulate_isSome (c : Config) (a b : Cells) (draws ia ib m : Nat) :
    (accumulate c a b draws ia ib m).isSome = true ↔
      ∀ k < m, (lookup (cellIndex c ia k) a).isSome = true ∧ (lookup (cellIndex c k ib) b).isSome = true := by
  induction m with
  | zero => simp [accumulate]
  | succ m ih =>
    rw [Nat.forall_lt_succ_right, ← ih]
    cases hm : accumulate c a b draws ia ib m <;> cases hx : lookup (cellIndex c ia m) a <;>
      cases hy : lookup (cellIndex c m ib) b <;> simp [accumulate, hm, hx, hy]

/-- One more accumulation step (41_fp_numerics.md R137). -/
theorem accumulate_succ {c : Config} {a b : Cells} {draws ia ib m : Nat} {acc : Word × Nat} {x y : Word}
    (h : accumulate c a b draws ia ib m = some acc) (hx : lookup (cellIndex c ia m) a = some x)
    (hy : lookup (cellIndex c m ib) b = some y) :
    accumulate c a b draws ia ib (m + 1) = some (mac c.macMode c.nanPolicy acc.2 acc.1 x y) := by
  simp only [accumulate, h, hx, hy]

/-- There is room for one more word, as the statements say it (10_state.md R30). -/
theorem hasRoom_iff (q : List StreamWord) (d : Depth) : hasRoom q d = true ↔ roomIn q d := by
  cases d with
  | unbounded => simp [roomIn]
  | bounded extra => simp [roomIn, hasRoom_bounded]

end Sys2Proof.Machine
end

