-- ==== Sys2Proof/Laws/Registers.lean ====
section
/-! SUPPORT. What a register read gives, and everything a register write can do. -/

namespace Sys2Proof.Machine

/-! ### Views of the flags -/

theorem ctrlWord_view (ch : Channel) : isCtrlView (ctrlWord ch) ch := by
  obtain ⟨ieDone, ieErr, busy, done, err, code, addr, len, xfer⟩ := ch
  refine ⟨?_, ?_, fun i hi => ?_⟩
  all_goals simp only [ctrlWord]
  all_goals first
    | (rw [BitVec.getLsbD_setWidth, BitVec.getLsbD_of_ge _ i (by omega), Bool.and_false])
    | (clear addr len xfer busy done err code; revert ieDone ieErr; decide)

theorem statusWord_view (sg : Bool) (ch : Channel) : isStatusView (statusWord sg ch) sg ch := by
  obtain ⟨ieDone, ieErr, busy, done, err, code, addr, len, xfer⟩ := ch
  refine ⟨?_, ?_, ?_, ?_, ?_, ?_, ?_, fun i hi => ?_⟩
  all_goals simp only [statusWord]
  all_goals first
    | (rw [BitVec.getLsbD_setWidth, BitVec.getLsbD_of_ge _ i (by omega), Bool.and_false])
    | (clear addr len xfer ieDone ieErr; revert sg busy done err code; decide)

@[simp] theorem statusBusy_statusWord (sg : Bool) (ch : Channel) : statusBusy (statusWord sg ch) = ch.busy :=
  (statusWord_view sg ch).1

@[simp] theorem statusErr_statusWord (sg : Bool) (ch : Channel) : statusErr (statusWord sg ch) = ch.err :=
  (statusWord_view sg ch).2.2.1

@[simp] theorem statusCode_statusWord (sg : Bool) (ch : Channel) : statusCode (statusWord sg ch) = ch.errcode :=
  (statusWord_view sg ch).2.2.2.2.1

@[simp] theorem statusSg_statusWord (sg : Bool) (ch : Channel) : statusSg (statusWord sg ch) = sg :=
  (statusWord_view sg ch).2.2.2.2.2.2.1

@[simp] theorem readStatus_busy (c : Chan) (s : State) : statusBusy (readStatus c s) = (s.chan c).busy :=
  statusBusy_statusWord ..

@[simp] theorem readStatus_err (c : Chan) (s : State) : statusErr (readStatus c s) = (s.chan c).err :=
  statusErr_statusWord ..

@[simp] theorem readStatus_code (c : Chan) (s : State) : statusCode (readStatus c s) = (s.chan c).errcode :=
  statusCode_statusWord ..

@[simp] theorem readStatus_sg (c : Chan) (s : State) : statusSg (readStatus c s) = s.cfg.sgMode :=
  statusSg_statusWord ..

/-! ### The start checks -/

theorem accepts_iff (ch : Channel) : accepts ch = true ↔ ch.busy = false ∧ ch.err = false := by
  simp [accepts]

theorem startError_none_iff (addr len : Word) :
    startError addr len = none ↔
      len ≠ 0#32 ∧ len.toNat % 4 = 0 ∧ addr.toNat % 4 = 0 ∧ addr.toNat + len.toNat ≤ 2 ^ 32 := by
  unfold startError
  by_cases h0 : len = 0#32 <;> by_cases h1 : len.toNat % 4 = 0 <;> by_cases h2 : addr.toNat % 4 = 0 <;>
    by_cases h3 : addr.toNat + len.toNat ≤ 2 ^ 32 <;> simp [h0, h1, h2]

/-- A start error's code is `LEN`, `ALIGN` or `DEC`. -/
theorem startError_code {addr len : Word} {code : BitVec 3} (h : startError addr len = some code) :
    code = 1#3 ∨ code = 2#3 ∨ code = 3#3 := by
  unfold startError at h
  split at h
  · exact .inl (Option.some.inj h).symm
  · split at h
    · exact .inr (.inl (Option.some.inj h).symm)
    · split at h
      · exact .inr (.inr (Option.some.inj h).symm)
      · cases h

/-! ### Everything a write can do -/

/-- `WR c_ADDR` is refused on a scatter-gather build, ignored, or sets the address. -/
theorem writeAddr_next {c : Chan} {v : Word} {s t : State} (h : writeAddr c v s = .next t) :
    s.cfg.sgMode = false ∧
    ((accepts (s.chan c) = true ∧ t = s.setChan c { s.chan c with addr := v }) ∨
      (accepts (s.chan c) = false ∧ t = s)) := by
  unfold writeAddr at h
  split at h
  · cases h
  · rename_i hsg
    refine ⟨by simpa using hsg, ?_⟩
    split at h
    · rename_i ha
      cases h
      exact .inl ⟨ha, rfl⟩
    · rename_i ha
      cases h
      exact .inr ⟨by simpa using ha, rfl⟩

/-- `WR c_LEN` is refused on a scatter-gather build, ignored, or takes the length and then fails with a start error or
starts. -/
theorem writeLen_next {c : Chan} {v : Word} {s t : State} (h : writeLen c v s = .next t) :
    s.cfg.sgMode = false ∧
    ((accepts (s.chan c) = false ∧ t = s) ∨
      (accepts (s.chan c) = true ∧
        ((∃ code, startError (s.chan c).addr v = some code ∧ t = s.setChan c
            { s.chan c with len := v, xfer := 0#32, done := false, busy := false, err := true, errcode := code }) ∨
          (startError (s.chan c).addr v = none ∧ t = s.setChan c
            { s.chan c with len := v, xfer := 0#32, done := false, busy := true })))) := by
  unfold writeLen at h
  split at h
  · cases h
  · rename_i hsg
    refine ⟨by simpa using hsg, ?_⟩
    split at h
    · rename_i ha
      refine .inr ⟨ha, ?_⟩
      simp only at h
      split at h
      · rename_i code hc
        cases h
        exact .inl ⟨code, hc, by simp [raiseError]⟩
      · rename_i hc
        cases h
        exact .inr ⟨hc, by simp⟩
    · rename_i ha
      cases h
      exact .inl ⟨by simpa using ha, rfl⟩

/-- `WR c_STATUS` clears `DONE` or does nothing. -/
theorem writeStatus_cases (c : Chan) (v : Word) (s : State) :
    writeStatus c v s = s ∨ writeStatus c v s = s.setChan c { s.chan c with done := false } := by
  unfold writeStatus
  split
  · exact .inr rfl
  · exact .inl rfl

/-! ### A register write changes nothing but its channel -/

theorem writeAddr_setChan {c : Chan} {v : Word} {s t : State} (h : writeAddr c v s = .next t) : ∃ ch, t = s.setChan c ch := by
  obtain ⟨_, ⟨_, ht⟩ | ⟨_, ht⟩⟩ := writeAddr_next h
  · exact ⟨_, ht⟩
  · exact ⟨s.chan c, ht.trans (setChan_self s c).symm⟩

theorem writeLen_setChan {c : Chan} {v : Word} {s t : State} (h : writeLen c v s = .next t) : ∃ ch, t = s.setChan c ch := by
  obtain ⟨_, ⟨_, ht⟩ | ⟨_, ⟨_, _, ht⟩ | ⟨_, ht⟩⟩⟩ := writeLen_next h
  · exact ⟨s.chan c, ht.trans (setChan_self s c).symm⟩
  · exact ⟨_, ht⟩
  · exact ⟨_, ht⟩

theorem writeStatus_setChan (c : Chan) (v : Word) (s : State) : ∃ ch, writeStatus c v s = s.setChan c ch := by
  obtain h | h := writeStatus_cases c v s
  · exact ⟨s.chan c, h.trans (setChan_self s c).symm⟩
  · exact ⟨_, h⟩

end Sys2Proof.Machine
end

