-- ==== Sys2Proof/Laws/Procedures.lean ====
section
/-! SUPPORT. Everything a procedure's access can do. -/

namespace Sys2Proof.Machine

/-- One poll (44_host_procedures.md R247): stay, fail with the code, or go on. -/
theorem pollThen_eq (c : Chan) (goOn : State → State) (s : State) :
    pollThen c goOn s =
      if (s.chan c).busy then s.bind (readStatus c s)
      else if (s.chan c).err then (s.bind (readStatus c s)).ret (.transferError (s.chan c).errcode)
      else goOn (s.bind (readStatus c s)) := by
  simp only [pollThen, readStatus_busy, readStatus_err, readStatus_code]

/-- One `SG` test (44_host_procedures.md R241). -/
theorem checkSgThen_eq (c : Chan) (n : Nat) (s : State) :
    checkSgThen c n s =
      if s.cfg.sgMode then (s.bind (readStatus c s)).ret .configurationError else (s.bind (readStatus c s)).atPos n := by
  simp only [checkSgThen, readStatus_sg]

theorem addrThen_next {c : Chan} {v : Word} {n : Nat} {s t : State} (h : addrThen c v n s = .next t) :
    ∃ u, writeAddr c v s = .next u ∧ t = u.atPos n := by
  obtain ⟨u, hu, ht⟩ := andThen_eq_next h
  cases ht
  exact ⟨u, hu, rfl⟩

theorem lenThen_next {c : Chan} {v : Word} {n : Nat} {s t : State} (h : lenThen c v n s = .next t) :
    ∃ u, writeLen c v s = .next u ∧ t = u.atPos n := by
  obtain ⟨u, hu, ht⟩ := andThen_eq_next h
  cases ht
  exact ⟨u, hu, rfl⟩

/-- TRANSMIT's access is the address write, the start write, or a poll. -/
theorem execTransmit_next {addr len : Word} {s t : State} (h : execTransmit addr len s = .next t) :
    (s.host.pos = 0 ∧ ∃ u, writeAddr .tx addr s = .next u ∧ t = u.atPos 1) ∨
    (s.host.pos = 1 ∧ ∃ u, writeLen .tx len s = .next u ∧ t = u.atPos 2) ∨
    (2 ≤ s.host.pos ∧ t = pollThen .tx (fun t => t.ret .ok) s) := by
  unfold execTransmit at h
  split at h
  · rename_i hp
    exact .inl ⟨hp, addrThen_next h⟩
  · rename_i hp
    exact .inr (.inl ⟨hp, lenThen_next h⟩)
  · rename_i h0 h1
    have g0 : ¬ s.host.pos = 0 := h0
    have g1 : ¬ s.host.pos = 1 := h1
    cases h
    exact .inr (.inr ⟨by omega, rfl⟩)

/-- RECEIVE's access is the address write, the start write, or a poll. -/
theorem execReceive_next {addr len : Word} {s t : State} (h : execReceive addr len s = .next t) :
    (s.host.pos = 0 ∧ ∃ u, writeAddr .rx addr s = .next u ∧ t = u.atPos 1) ∨
    (s.host.pos = 1 ∧ ∃ u, writeLen .rx len s = .next u ∧ t = u.atPos 2) ∨
    (2 ≤ s.host.pos ∧ t = pollThen .rx (fun t => t.ret .ok) s) := by
  unfold execReceive at h
  split at h
  · rename_i hp
    exact .inl ⟨hp, addrThen_next h⟩
  · rename_i hp
    exact .inr (.inl ⟨hp, lenThen_next h⟩)
  · rename_i h0 h1
    have g0 : ¬ s.host.pos = 0 := h0
    have g1 : ¬ s.host.pos = 1 := h1
    cases h
    exact .inr (.inr ⟨by omega, rfl⟩)

/-- OFFLOAD's access is one of the six of R246. -/
theorem execOffload_next {inbuf outbuf : Word} {s t : State} (h : execOffload inbuf outbuf s = .next t) :
    (s.host.pos = 0 ∧ ∃ u, writeAddr .tx inbuf s = .next u ∧ t = u.atPos 1) ∨
    (s.host.pos = 1 ∧ ∃ u, writeLen .tx (inputLen s.cfg) s = .next u ∧ t = u.atPos 2) ∨
    (s.host.pos = 2 ∧ t = pollThen .tx (fun t => t.atPos 3) s) ∨
    (s.host.pos = 3 ∧ ∃ u, writeAddr .rx outbuf s = .next u ∧ t = u.atPos 4) ∨
    (s.host.pos = 4 ∧ ∃ u, writeLen .rx (outputLen s.cfg) s = .next u ∧ t = u.atPos 5) ∨
    (5 ≤ s.host.pos ∧ t = pollThen .rx (fun t => t.ret .ok) s) := by
  unfold execOffload at h
  split at h
  · rename_i hp
    exact .inl ⟨hp, addrThen_next h⟩
  · rename_i hp
    exact .inr (.inl ⟨hp, lenThen_next h⟩)
  · rename_i hp
    cases h
    exact .inr (.inr (.inl ⟨hp, rfl⟩))
  · rename_i hp
    exact .inr (.inr (.inr (.inl ⟨hp, addrThen_next h⟩)))
  · rename_i hp
    exact .inr (.inr (.inr (.inr (.inl ⟨hp, lenThen_next h⟩))))
  · rename_i h0 h1 h2 h3 h4
    have g0 : ¬ s.host.pos = 0 := h0
    have g1 : ¬ s.host.pos = 1 := h1
    have g2 : ¬ s.host.pos = 2 := h2
    have g3 : ¬ s.host.pos = 3 := h3
    have g4 : ¬ s.host.pos = 4 := h4
    cases h
    exact .inr (.inr (.inr (.inr (.inr ⟨by omega, rfl⟩))))

/-- INIT's access is one of the four of R241, or none with no controller. -/
theorem execInit_next {s t : State} (h : execInit s = .next t) :
    (s.host.pos = 0 ∧ ((s.cfg.btcPresent = false ∧ t = s.ret .configurationError) ∨
      (s.cfg.btcPresent = true ∧ t = checkSgThen .tx 1 s))) ∨
    (s.host.pos = 1 ∧ t = checkSgThen .rx 2 s) ∨
    (s.host.pos = 2 ∧ t = (writeCtrl .tx 0#32 s).atPos 3) ∨
    (3 ≤ s.host.pos ∧ t = (writeCtrl .rx 0#32 s).ret .ok) := by
  unfold execInit at h
  split at h
  · rename_i hp
    refine .inl ⟨hp, ?_⟩
    split at h
    · rename_i hb
      cases h
      exact .inr ⟨hb, rfl⟩
    · rename_i hb
      cases h
      exact .inl ⟨by simpa using hb, rfl⟩
  · rename_i hp
    cases h
    exact .inr (.inl ⟨hp, rfl⟩)
  · rename_i hp
    cases h
    exact .inr (.inr (.inl ⟨hp, rfl⟩))
  · rename_i h0 h1 h2
    have g0 : ¬ s.host.pos = 0 := h0
    have g1 : ¬ s.host.pos = 1 := h1
    have g2 : ¬ s.host.pos = 2 := h2
    cases h
    exact .inr (.inr (.inr ⟨by omega, rfl⟩))

end Sys2Proof.Machine
end

