-- ==== Sys2Proof/Laws/Agents.lean ====
section
/-! SUPPORT. What a step of each agent and of the machine can be. -/

namespace Sys2Proof.Machine

/-- A channel's turn is its beat, which waits when the channel is idle. -/
theorem stepChannel_tx (s : State) : stepChannel .tx s = execTxBeat s := by
  unfold stepChannel
  cases hb : s.tx.busy
  · simp [decode, decodeChstep, execTxBeat, hb]
  · simp [decode, decodeChstep, hb, exec]

theorem stepChannel_rx (s : State) : stepChannel .rx s = execRxBeat s := by
  unfold stepChannel
  cases hb : s.rx.busy
  · simp [decode, decodeChstep, execRxBeat, hb]
  · simp [decode, decodeChstep, hb, exec]

/-- What the host's word does: one operation of a format the host selects. -/
theorem hostWord_next {w : OpWord} {s t : State} (h : hostWord w s = .next t) :
    hostSelects w = true ∧ ∃ i, decode w = .ok i ∧ exec i s = .next t := by
  unfold hostWord at h
  split at h
  · rename_i hs
    split at h
    · rename_i i hi
      exact ⟨hs, i, hi, h⟩
    · cases h
  · cases h

/-- Every register access of the host by its offset: the register's operation. -/
@[simp] theorem hostWord_encodeRead (offset : BitVec 6) (s : State) :
    hostWord (encodeRead offset) s =
      match decodeRead offset with
      | .ok i    => exec i s
      | .error e => .refused (refusalOf e) := by
  rw [hostWord, decode_encodeRead]
  rfl

@[simp] theorem hostWord_encodeWrite (offset : BitVec 6) (v : Word) (s : State) :
    hostWord (encodeWrite offset v) s =
      match decodeWrite offset v with
      | .ok i    => exec i s
      | .error e => .refused (refusalOf e) := by
  rw [hostWord, decode_encodeWrite]
  rfl

theorem hostLoad_next {a : Word} {s t : State} (h : hostLoad a s = .next t) :
    hostWord (encodeRead (blockOffset s.cfg a)) s = .next t ∨ t = s.bind (Memory.readWord s.mem a.toNat) := by
  unfold hostLoad at h
  split at h
  · exact .inl h
  · split at h
    · cases h
    · split at h
      · cases h
        exact .inr rfl
      · cases h

theorem hostStore_next {a v : Word} {s t : State} (h : hostStore a v s = .next t) :
    hostWord (encodeWrite (blockOffset s.cfg a) v) s = .next t ∨
      (mappedWord s.cfg a.toNat = true ∧ t = { s with mem := Memory.writeWord s.mem a.toNat v }) := by
  unfold hostStore at h
  split at h
  · exact .inl h
  · split at h
    · cases h
    · split at h
      · rename_i hm
        cases h
        exact .inr ⟨hm, rfl⟩
      · cases h

theorem hostLoadByte_next {a : Word} {s t : State} (h : hostLoadByte a s = .next t) :
    t = s.bind ((Memory.readByte s.mem a.toNat).setWidth 32) := by
  unfold hostLoadByte at h
  split at h
  · cases h
  · split at h
    · cases h
      rfl
    · cases h

theorem hostStoreByte_next {a : Word} {v : Byte} {s t : State} (h : hostStoreByte a v s = .next t) :
    mapped s.cfg a.toNat = true ∧ t = { s with mem := Memory.writeByte s.mem a.toNat v } := by
  unfold hostStoreByte at h
  split at h
  · cases h
  · split at h
    · rename_i hm
      cases h
      exact ⟨hm, rfl⟩
    · cases h

/-! ### The lines of the notation (30_encoding.md R101) -/

theorem withBound_next {α : Type} {v : Option α} {f : α → Result} {t : State} (h : withBound v f = .next t) :
    ∃ w, v = some w ∧ f w = .next t := by
  unfold withBound at h
  split at h
  · exact ⟨_, rfl, h⟩
  · cases h

@[simp] theorem withBound_some {α : Type} (w : α) (f : α → Result) : withBound (some w) f = f w := rfl
@[simp] theorem withBound_none {α : Type} (f : α → Result) : withBound none f = .refused .unboundName := rfl
@[simp] theorem withValue_num (w : Word) (s : State) (f : Word → Result) : withValue (.num w) s f = f w := rfl

theorem withValue_some {v : Value} {s : State} {w : Word} (h : valueOf s.host.env v = some w) (f : Word → Result) :
    withValue v s f = f w := by
  rw [withValue, h, withBound_some]

theorem withValue_none {v : Value} {s : State} (h : valueOf s.host.env v = none) (f : Word → Result) :
    withValue v s f = .refused .unboundName := by
  rw [withValue, h, withBound_none]

/-- An operand that is not bound leaves the call without its values. -/
theorem valuesOf_none {env : List (Nat × Word)} {v : Value} {args : List Value} (hv : valueOf env v = none)
    (h : v ∈ args) : valuesOf env args = none := by
  induction args with
  | nil => cases h
  | cons u us ih =>
    rw [valuesOf]
    rcases List.mem_cons.mp h with rfl | hu
    · rw [hv]
    · rw [ih hu]
      cases valueOf env u <;> rfl

theorem withValue_next {v : Value} {s t : State} {f : Word → Result} (h : withValue v s f = .next t) :
    ∃ w, valueOf s.host.env v = some w ∧ f w = .next t := withBound_next h

theorem nameResult_next {x : Nat} {r : Result} {t : State} (h : nameResult x r = .next t) :
    ∃ u, r = .next u ∧ t = u.bindName x := by
  obtain ⟨u, hu, ht⟩ := andThen_eq_next h
  cases ht
  exact ⟨u, hu, rfl⟩

/-- A read of `POLL` is the register read, whose value its name is bound to; the host stays at the line or leaves it. -/
theorem hostPoll_next {x : Nat} {reg : BitVec 6} {mask want : Value} {s t : State}
    (h : hostPoll x reg mask want s = .next t) :
    ∃ u m w, hostWord (encodeRead reg) s = .next u ∧ valueOf (u.bindName x).host.env mask = some m ∧
      valueOf (u.bindName x).host.env want = some w ∧
      t = (u.bindName x).atPos (if u.host.x &&& m = w then 0 else 1) := by
  obtain ⟨v, hv, h⟩ := andThen_eq_next h
  obtain ⟨u, hu, rfl⟩ := nameResult_next hv
  obtain ⟨m, hm, h⟩ := withValue_next h
  obtain ⟨w, hw, h⟩ := withValue_next h
  cases h
  exact ⟨u, m, w, hu, hm, hw, rfl⟩

/-- An `IF` line that goes on does nothing; one whose condition holds ends the program with the error. -/
theorem failIf_next {c : Cond} {kind : FailKind} {s t : State} (h : hostOp (.failIf c kind) s = .next t) :
    t = s ∨ ∃ r, t = s.failWith r := by
  obtain ⟨b, h⟩ : ∃ b : Bool, (if b then failAs kind s else .next s) = .next t := by
    cases c with
    | absent => exact ⟨_, h⟩
    | masked v mask want =>
      obtain ⟨_, _, h⟩ := withValue_next h
      obtain ⟨_, _, h⟩ := withValue_next h
      obtain ⟨_, _, h⟩ := withValue_next h
      exact ⟨_, h⟩
  split at h
  · cases kind with
    | configurationError =>
      cases h
      exact .inr ⟨_, rfl⟩
    | transferError status =>
      obtain ⟨_, _, h⟩ := withValue_next h
      cases h
      exact .inr ⟨_, rfl⟩
  · cases h
    exact .inl rfl

/-- Everything one operation of the host can do: one operation of the table (after which a read binds its name, and a `POLL`
has a position), a load or store of host memory, or an `IF` line's doing. -/
theorem hostOp_next {op : HostOp} {s t : State} (h : hostOp op s = .next t) :
    (∃ w, hostWord w s = .next t) ∨
    (∃ x w u, hostWord w s = .next u ∧ t = u.bindName x) ∨
    (∃ x reg mask want u n, op = .poll x reg mask want ∧ hostWord (encodeRead reg) s = .next u ∧ n ≤ 1 ∧
      t = (u.bindName x).atPos n) ∨
    (∃ x v, t = (s.bind v).bindName x) ∨
    (∃ a v, mappedWord s.cfg a = true ∧ t = { s with mem := Memory.writeWord s.mem a v }) ∨
    (∃ a v, mapped s.cfg a = true ∧ t = { s with mem := Memory.writeByte s.mem a v }) ∨
    t = s ∨ ∃ r, t = s.failWith r := by
  cases op with
  | op w => exact .inl ⟨w, h⟩
  | wr reg v =>
    obtain ⟨w, _, h⟩ := withValue_next h
    exact .inl ⟨_, h⟩
  | rd x reg =>
    obtain ⟨u, hu, ht⟩ := nameResult_next h
    exact .inr (.inl ⟨x, _, u, hu, ht⟩)
  | poll x reg mask want =>
    obtain ⟨u, m, w, hu, _, _, ht⟩ := hostPoll_next h
    refine .inr (.inr (.inl ⟨x, reg, mask, want, u, _, rfl, hu, ?_, ht⟩))
    split <;> omega
  | st a v =>
    obtain ⟨b, _, h⟩ := withValue_next h
    obtain ⟨w, _, h⟩ := withValue_next h
    obtain h | ⟨hm, ht⟩ := hostStore_next h
    · exact .inl ⟨_, h⟩
    · exact .inr (.inr (.inr (.inr (.inl ⟨_, _, hm, ht⟩))))
  | ld x a =>
    obtain ⟨b, _, h⟩ := withValue_next h
    obtain ⟨u, hu, ht⟩ := nameResult_next h
    obtain hw | rfl := hostLoad_next hu
    · exact .inr (.inl ⟨x, _, u, hw, ht⟩)
    · exact .inr (.inr (.inr (.inl ⟨x, _, ht⟩)))
  | stByte a v =>
    obtain ⟨b, _, h⟩ := withValue_next h
    obtain ⟨w, _, h⟩ := withValue_next h
    obtain ⟨hm, ht⟩ := hostStoreByte_next h
    exact .inr (.inr (.inr (.inr (.inr (.inl ⟨_, _, hm, ht⟩)))))
  | ldByte x a =>
    obtain ⟨b, _, h⟩ := withValue_next h
    obtain ⟨u, hu, ht⟩ := nameResult_next h
    rw [hostLoadByte_next hu] at ht
    exact .inr (.inr (.inr (.inl ⟨x, _, ht⟩)))
  | call p args =>
    obtain ⟨ws, _, h⟩ := withBound_next h
    exact .inl ⟨_, h⟩
  | failIf c kind =>
    obtain ht | ht := failIf_next h
    · exact .inr (.inr (.inr (.inr (.inr (.inr (.inl ht))))))
    · exact .inr (.inr (.inr (.inr (.inr (.inr (.inr ht))))))

@[simp] theorem retire_cfg (s : State) : (retire s).cfg = s.cfg := by unfold retire; split <;> rfl
@[simp] theorem retire_k (s : State) : (retire s).k = s.k := by unfold retire; split <;> rfl
@[simp] theorem retire_inq (s : State) : (retire s).inq = s.inq := by unfold retire; split <;> rfl
@[simp] theorem retire_outq (s : State) : (retire s).outq = s.outq := by unfold retire; split <;> rfl
@[simp] theorem retire_tx (s : State) : (retire s).tx = s.tx := by unfold retire; split <;> rfl
@[simp] theorem retire_rx (s : State) : (retire s).rx = s.rx := by unfold retire; split <;> rfl
@[simp] theorem retire_mem (s : State) : (retire s).mem = s.mem := by unfold retire; split <;> rfl
@[simp] theorem retire_sched (s : State) : (retire s).sched = s.sched := by unfold retire; split <;> rfl
@[simp] theorem retire_tick (s : State) : (retire s).tick = s.tick := by unfold retire; split <;> rfl
@[simp] theorem retire_draws (s : State) : (retire s).draws = s.draws := by unfold retire; split <;> rfl

/-- The host's turn does nothing with an empty queue, else one operation, after which the queue moves on. -/
theorem stepHost_next {s t : State} (h : stepHost s = .next t) :
    (s.host.queue = [] ∧ t = s) ∨
    ∃ op q u, s.host.queue = op :: q ∧ hostOp op s = .next u ∧ t = retire u := by
  unfold stepHost at h
  split at h
  · rename_i hq
    cases h
    exact .inl ⟨hq, rfl⟩
  · rename_i op q hq
    obtain ⟨u, hu, ht⟩ := andThen_eq_next h
    cases ht
    exact .inr ⟨op, q, u, hq, hu, rfl⟩

/-! ### Turns -/

@[simp] theorem takeTurn_decided (s : State) (u : Turn) (rest : List Turn) :
    takeTurn { s with sched := u :: rest } = (u, { s with sched := rest }) := rfl

/-- Taking a turn changes nothing but the schedule. -/
theorem takeTurn_state (s : State) :
    (takeTurn s).2 = { s with sched := (takeTurn s).2.sched, tick := (takeTurn s).2.tick } := by
  unfold takeTurn
  split <;> rfl

/-- Every agent has a turn in a stretch of the free schedule. -/
theorem mem_fairStretch (p : Agent × List Agent) (a : Agent) : a ∈ fairStretch p := by
  by_cases h : a ∈ p.1 :: p.2
  · rw [List.mem_cons] at h
    rw [fairStretch, List.mem_cons, List.mem_append]
    exact h.imp_right .inl
  · rw [fairStretch, List.mem_cons, List.mem_append]
    refine .inr (.inr ?_)
    rw [leftOut, List.mem_filter]
    refine ⟨by cases a <;> simp, ?_⟩
    simpa using h

/-- An agent that is not enabled does nothing on its turn. -/
theorem stepAgent_not_enabled {a : Agent} {s : State} (h : agentEnabled a s = false) : stepAgent a s = .next s := by
  cases a with
  | host =>
    cases hq : s.host.queue with
    | nil => simp [stepAgent, stepHost, hq]
    | cons op q => simp [agentEnabled, hq] at h
  | tx =>
    rw [stepAgent, stepChannel_tx, execTxBeat]
    cases hb : s.tx.busy <;> simp_all [agentEnabled]
  | rx =>
    rw [stepAgent, stepChannel_rx, execRxBeat]
    cases hb : s.rx.busy
    · rfl
    · cases hq : s.outq <;> simp_all [agentEnabled]
  | kernel =>
    simp only [agentEnabled] at h
    cases hp : s.k.phase <;> simp only [hp] at h
    · cases hq : s.inq <;> simp_all [stepAgent, stepKernel, decodeKstep, phaseCode, exec, execKLoadA]
    · cases hq : s.inq <;> simp_all [stepAgent, stepKernel, decodeKstep, phaseCode, exec, execKLoadB]
    · simp at h
    · simp_all [stepAgent, stepKernel, decodeKstep, phaseCode, exec, execKStore]

/-- A step of the machine is a reset or one agent's step, from the state with that turn taken. -/
theorem step_next {s t : State} (h : step s = .next t) :
    ∃ sched tick, (t = hardReset { s with sched := sched, tick := tick }) ∨
      ∃ a, stepAgent a { s with sched := sched, tick := tick } = .next t := by
  refine ⟨(takeTurn s).2.sched, (takeTurn s).2.tick, ?_⟩
  rw [← takeTurn_state]
  change stepTurn (takeTurn s).1 (takeTurn s).2 = .next t at h
  cases hu : (takeTurn s).1 with
  | agent a =>
    rw [hu] at h
    exact .inr ⟨a, h⟩
  | reset =>
    rw [hu] at h
    cases h
    exact .inl rfl

end Sys2Proof.Machine
end

