-- ==== Sys2Proof/Laws/Fp.lean ====
section
/-! SUPPORT. The fields of a packed binary32 word, and the NaN an operation returns. -/

namespace Sys2Proof.Machine

@[simp] theorem fpSign_fpPack (s : Bool) (e : BitVec 8) (f : BitVec 23) : fpSign (fpPack s e f) = s := by
  simp only [fpSign, fpPack, BitVec.getLsbD_cast, BitVec.getLsbD_append]
  cases s <;> rfl

@[simp] theorem fpExp_fpPack (s : Bool) (e : BitVec 8) (f : BitVec 23) : fpExp (fpPack s e f) = e.toNat := by
  have h : (fpPack s e f).extractLsb' 23 8 = e := by
    ext i hi
    simp only [fpPack, BitVec.getElem_extractLsb', BitVec.getLsbD_cast, BitVec.getLsbD_append]
    rw [if_neg (by omega), if_pos (by omega), Nat.add_sub_cancel_left, BitVec.getLsbD_eq_getElem]
  rw [fpExp, h]

@[simp] theorem fpFrac_fpPack (s : Bool) (e : BitVec 8) (f : BitVec 23) : fpFrac (fpPack s e f) = f.toNat := by
  have h : (fpPack s e f).extractLsb' 0 23 = f := by
    ext i hi
    simp only [fpPack, BitVec.getElem_extractLsb', BitVec.getLsbD_cast, BitVec.getLsbD_append]
    rw [Nat.zero_add, if_pos (by omega), BitVec.getLsbD_eq_getElem]
  rw [fpFrac, h]

/-- A word is determined by its three fields (41_fp_numerics.md R130). -/
theorem fp_ext {v w : Word} (hs : fpSign v = fpSign w) (he : fpExp v = fpExp w) (hf : fpFrac v = fpFrac w) : v = w := by
  have he' : v.extractLsb' 23 8 = w.extractLsb' 23 8 := BitVec.eq_of_toNat_eq he
  have hf' : v.extractLsb' 0 23 = w.extractLsb' 0 23 := BitVec.eq_of_toNat_eq hf
  apply BitVec.eq_of_getLsbD_eq
  intro i hi
  by_cases h1 : i < 23
  · have := congrArg (·.getLsbD i) hf'
    simpa [BitVec.getLsbD_extractLsb', h1] using this
  · by_cases h2 : i < 31
    · have := congrArg (·.getLsbD (i - 23)) he'
      have e1 : 23 + (i - 23) = i := by omega
      have e2 : i - 23 < 8 := by omega
      simpa [BitVec.getLsbD_extractLsb', e1, e2] using this
    · have e : i = 31 := by omega
      subst e
      exact hs

/-- A returned NaN is a NaN under either policy (41_fp_numerics.md R132). -/
theorem isNaN_nanResult (p : NanPolicy) (draws : Nat) : isNaN (nanResult p draws).1 = true := by
  have key : ∀ w : Word, isNaN (w ||| canonicalNaN) = true := by
    intro w
    have he : (w ||| canonicalNaN).extractLsb' 23 8 = 0xFF#8 := by
      rw [BitVec.extractLsb'_or]
      have : canonicalNaN.extractLsb' 23 8 = BitVec.allOnes 8 := by decide
      rw [this, BitVec.or_allOnes]
      decide
    have hf : (w ||| canonicalNaN).extractLsb' 0 23 ≠ 0#23 := by
      intro h
      have := congrArg (·.getLsbD 22) h
      simp only [BitVec.getLsbD_extractLsb', BitVec.getLsbD_or] at this
      have hc : canonicalNaN.getLsbD (0 + 22) = true := by decide
      rw [hc, Bool.or_true] at this
      exact absurd this (by decide)
    have hn : fpFrac (w ||| canonicalNaN) ≠ 0 := fun h => hf (BitVec.eq_of_toNat_eq h)
    simp [isNaN, fpExp, he, hn]
  cases p with
  | canonical => exact (by decide : isNaN canonicalNaN = true)
  | anyQuiet => exact key _

/-- Under the canonical policy no operation draws (41_fp_numerics.md R140). -/
@[simp] theorem settle_canonical (draws : Nat) (r : Option Word) :
    settle .canonical draws r = (r.getD canonicalNaN, draws) := by
  cases r <;> rfl

/-- A result that is a word is given as it is. -/
@[simp] theorem settle_some (p : NanPolicy) (draws : Nat) (w : Word) : settle p draws (some w) = (w, draws) := rfl

end Sys2Proof.Machine
end

