-- ==== Sys2Proof/Laws/PerInstr.lean ====
section
/-! SUPPORT. The family `TableRow`: every operation's packed form is well formed and has the bits its row of
spec/opcode_table.json fixes (30_encoding.md R102, R103). -/

namespace Sys2Proof.Laws.TableRow

/-- The mask and match of an operation's row; none for the formats without selector bits (PRIM, PSEUDO). -/
def row : Instr → Option (Nat × Nat)
  | .encode _ _ => some (0x3FFFF00000000, 0x0000F00000000)
  | .decode _ => some (0x0, 0x0)
  | .fmul32 _ _ => none
  | .fadd32 _ _ => none
  | .fma32 _ _ _ => none
  | .mac _ _ _ => none
  | .kLoadA => some (0x3, 0x0)
  | .kLoadB => some (0x3, 0x1)
  | .kCell => some (0x3, 0x2)
  | .kStore => some (0x3, 0x3)
  | .rdTxCtrl => some (0x7F00000000, 0x0000000000)
  | .rdTxStatus => some (0x7F00000000, 0x0400000000)
  | .rdTxAddr => some (0x7F00000000, 0x0800000000)
  | .rdTxLen => some (0x7F00000000, 0x0C00000000)
  | .rdTxXfer => some (0x7F00000000, 0x1000000000)
  | .rdRxCtrl => some (0x7F00000000, 0x2000000000)
  | .rdRxStatus => some (0x7F00000000, 0x2400000000)
  | .rdRxAddr => some (0x7F00000000, 0x2800000000)
  | .rdRxLen => some (0x7F00000000, 0x2C00000000)
  | .rdRxXfer => some (0x7F00000000, 0x3000000000)
  | .wrTxCtrl _ => some (0x7F00000000, 0x4000000000)
  | .wrTxStatus _ => some (0x7F00000000, 0x4400000000)
  | .wrTxAddr _ => some (0x7F00000000, 0x4800000000)
  | .wrTxLen _ => some (0x7F00000000, 0x4C00000000)
  | .wrTxXfer _ => some (0x7F00000000, 0x5000000000)
  | .wrRxCtrl _ => some (0x7F00000000, 0x6000000000)
  | .wrRxStatus _ => some (0x7F00000000, 0x6400000000)
  | .wrRxAddr _ => some (0x7F00000000, 0x6800000000)
  | .wrRxLen _ => some (0x7F00000000, 0x6C00000000)
  | .wrRxXfer _ => some (0x7F00000000, 0x7000000000)
  | .rdRsvd14 => some (0x7F00000000, 0x1400000000)
  | .wrRsvd14 _ => some (0x7F00000000, 0x5400000000)
  | .rdRsvd18 => some (0x7F00000000, 0x1800000000)
  | .wrRsvd18 _ => some (0x7F00000000, 0x5800000000)
  | .rdRsvd1C => some (0x7F00000000, 0x1C00000000)
  | .wrRsvd1C _ => some (0x7F00000000, 0x5C00000000)
  | .rdRsvd34 => some (0x7F00000000, 0x3400000000)
  | .wrRsvd34 _ => some (0x7F00000000, 0x7400000000)
  | .rdRsvd38 => some (0x7F00000000, 0x3800000000)
  | .wrRsvd38 _ => some (0x7F00000000, 0x7800000000)
  | .rdRsvd3C => some (0x7F00000000, 0x3C00000000)
  | .wrRsvd3C _ => some (0x7F00000000, 0x7C00000000)
  | .txBeat => some (0x1, 0x1)
  | .rxBeat => some (0x1, 0x1)
  | .init => none
  | .isSg => none
  | .disableIrq _ => none
  | .transmit _ _ => none
  | .receive _ _ => none
  | .offload _ _ => none

/-- The bits of a packed form; none for a named operation. -/
def bits : OpWord → Option Nat
  | .sw _ b     => some b.toNat
  | .bus b      => some b.toNat
  | .kstep code => some code.toNat
  | .chstep _ b => some b.toNat
  | .prim _ _   => none
  | .pseudo _ _ => none

/-- The packed form of `i` is well formed and its bits under the row's mask are the row's match. -/
def Statement (i : Instr) : Prop :=
  i.wellFormed = true ∧ (encode i).wellFormed = true ∧
    (bits (encode i)).map (fun b => (row i).map fun r => b &&& r.1) = (bits (encode i)).map fun _ => (row i).map (·.2)

/-- A produced word's packed form has its row's bits, whatever the payload. -/
theorem produced_row (v : Word) (l : Bool) :
    (packStream ⟨v, 0xF#4, 0#4, 0#5, 0#5, l⟩).toNat &&& 0x3FFFF00000000 = 0x0000F00000000 := by
  have := congrArg BitVec.toNat (packStream_mask v l)
  rwa [BitVec.toNat_and] at this

/-- A read's packed form has its row's bits. -/
theorem read_row (offset : BitVec 6) (h : offset.extractLsb' 0 2 = 0#2) :
    (encodeRead offset).wellFormed = true ∧
      (packBus false offset 0#32).toNat &&& 0x7F00000000 = (packBus false offset 0#32).toNat := by
  refine ⟨?_, ?_⟩
  · revert offset
    decide
  · have := congrArg BitVec.toNat (packBus_mask false offset 0#32)
    rwa [BitVec.toNat_and] at this

/-- A write's packed form has its row's bits, whatever the data. -/
theorem write_row (offset : BitVec 6) (v : Word) (h : offset.extractLsb' 0 2 = 0#2) :
    (encodeWrite offset v).wellFormed = true ∧
      (packBus true offset v).toNat &&& 0x7F00000000 = (packBus true offset 0#32).toNat := by
  refine ⟨?_, ?_⟩
  · have h2 : (packBus true offset v).extractLsb' 32 2 = ((packBus true offset v).extractLsb' 32 6).extractLsb' 0 2 := by
      ext i hi
      simp only [BitVec.getElem_extractLsb', BitVec.getLsbD_extractLsb']
      simp [show i < 6 by omega]
    show ((packBus true offset v).extractLsb' 32 2 == 0#2) = true
    rw [h2, packBus_offset, h]
    rfl
  · have := congrArg BitVec.toNat (packBus_mask true offset v)
    rwa [BitVec.toNat_and] at this

theorem encode (v : Word) (l : Bool) : Statement (.encode v l) :=
  ⟨rfl, canonicalSide_produced v l, congrArg (fun n => some (some n)) (produced_row v l)⟩
theorem decode (w : StreamWord) : Statement (.decode w) :=
  ⟨rfl, rfl, congrArg (fun n => some (some n)) (Nat.and_zero _)⟩
theorem fmul32 (a : Word) (b : Word) : Statement (.fmul32 a b) := ⟨rfl, rfl, rfl⟩
theorem fadd32 (a : Word) (b : Word) : Statement (.fadd32 a b) := ⟨rfl, rfl, rfl⟩
theorem fma32 (a : Word) (b : Word) (c : Word) : Statement (.fma32 a b c) := ⟨rfl, rfl, rfl⟩
theorem mac (acc : Word) (a : Word) (b : Word) : Statement (.mac acc a b) := ⟨rfl, rfl, rfl⟩
theorem kLoadA : Statement .kLoadA := ⟨rfl, rfl, rfl⟩
theorem kLoadB : Statement .kLoadB := ⟨rfl, rfl, rfl⟩
theorem kCell : Statement .kCell := ⟨rfl, rfl, rfl⟩
theorem kStore : Statement .kStore := ⟨rfl, rfl, rfl⟩
theorem rdTxCtrl : Statement .rdTxCtrl :=
  ⟨rfl, (read_row 0x00#6 (by decide)).1, congrArg (fun n => some (some n)) (read_row 0x00#6 (by decide)).2⟩
theorem rdTxStatus : Statement .rdTxStatus :=
  ⟨rfl, (read_row 0x04#6 (by decide)).1, congrArg (fun n => some (some n)) (read_row 0x04#6 (by decide)).2⟩
theorem rdTxAddr : Statement .rdTxAddr :=
  ⟨rfl, (read_row 0x08#6 (by decide)).1, congrArg (fun n => some (some n)) (read_row 0x08#6 (by decide)).2⟩
theorem rdTxLen : Statement .rdTxLen :=
  ⟨rfl, (read_row 0x0C#6 (by decide)).1, congrArg (fun n => some (some n)) (read_row 0x0C#6 (by decide)).2⟩
theorem rdTxXfer : Statement .rdTxXfer :=
  ⟨rfl, (read_row 0x10#6 (by decide)).1, congrArg (fun n => some (some n)) (read_row 0x10#6 (by decide)).2⟩
theorem rdRxCtrl : Statement .rdRxCtrl :=
  ⟨rfl, (read_row 0x20#6 (by decide)).1, congrArg (fun n => some (some n)) (read_row 0x20#6 (by decide)).2⟩
theorem rdRxStatus : Statement .rdRxStatus :=
  ⟨rfl, (read_row 0x24#6 (by decide)).1, congrArg (fun n => some (some n)) (read_row 0x24#6 (by decide)).2⟩
theorem rdRxAddr : Statement .rdRxAddr :=
  ⟨rfl, (read_row 0x28#6 (by decide)).1, congrArg (fun n => some (some n)) (read_row 0x28#6 (by decide)).2⟩
theorem rdRxLen : Statement .rdRxLen :=
  ⟨rfl, (read_row 0x2C#6 (by decide)).1, congrArg (fun n => some (some n)) (read_row 0x2C#6 (by decide)).2⟩
theorem rdRxXfer : Statement .rdRxXfer :=
  ⟨rfl, (read_row 0x30#6 (by decide)).1, congrArg (fun n => some (some n)) (read_row 0x30#6 (by decide)).2⟩
theorem wrTxCtrl (v : Word) : Statement (.wrTxCtrl v) :=
  ⟨rfl, (write_row 0x00#6 v (by decide)).1, congrArg (fun n => some (some n)) (write_row 0x00#6 v (by decide)).2⟩
theorem wrTxStatus (v : Word) : Statement (.wrTxStatus v) :=
  ⟨rfl, (write_row 0x04#6 v (by decide)).1, congrArg (fun n => some (some n)) (write_row 0x04#6 v (by decide)).2⟩
theorem wrTxAddr (v : Word) : Statement (.wrTxAddr v) :=
  ⟨rfl, (write_row 0x08#6 v (by decide)).1, congrArg (fun n => some (some n)) (write_row 0x08#6 v (by decide)).2⟩
theorem wrTxLen (v : Word) : Statement (.wrTxLen v) :=
  ⟨rfl, (write_row 0x0C#6 v (by decide)).1, congrArg (fun n => some (some n)) (write_row 0x0C#6 v (by decide)).2⟩
theorem wrTxXfer (v : Word) : Statement (.wrTxXfer v) :=
  ⟨rfl, (write_row 0x10#6 v (by decide)).1, congrArg (fun n => some (some n)) (write_row 0x10#6 v (by decide)).2⟩
theorem wrRxCtrl (v : Word) : Statement (.wrRxCtrl v) :=
  ⟨rfl, (write_row 0x20#6 v (by decide)).1, congrArg (fun n => some (some n)) (write_row 0x20#6 v (by decide)).2⟩
theorem wrRxStatus (v : Word) : Statement (.wrRxStatus v) :=
  ⟨rfl, (write_row 0x24#6 v (by decide)).1, congrArg (fun n => some (some n)) (write_row 0x24#6 v (by decide)).2⟩
theorem wrRxAddr (v : Word) : Statement (.wrRxAddr v) :=
  ⟨rfl, (write_row 0x28#6 v (by decide)).1, congrArg (fun n => some (some n)) (write_row 0x28#6 v (by decide)).2⟩
theorem wrRxLen (v : Word) : Statement (.wrRxLen v) :=
  ⟨rfl, (write_row 0x2C#6 v (by decide)).1, congrArg (fun n => some (some n)) (write_row 0x2C#6 v (by decide)).2⟩
theorem wrRxXfer (v : Word) : Statement (.wrRxXfer v) :=
  ⟨rfl, (write_row 0x30#6 v (by decide)).1, congrArg (fun n => some (some n)) (write_row 0x30#6 v (by decide)).2⟩
theorem rdRsvd14 : Statement .rdRsvd14 :=
  ⟨rfl, (read_row 0x14#6 (by decide)).1, congrArg (fun n => some (some n)) (read_row 0x14#6 (by decide)).2⟩
theorem wrRsvd14 (v : Word) : Statement (.wrRsvd14 v) :=
  ⟨rfl, (write_row 0x14#6 v (by decide)).1, congrArg (fun n => some (some n)) (write_row 0x14#6 v (by decide)).2⟩
theorem rdRsvd18 : Statement .rdRsvd18 :=
  ⟨rfl, (read_row 0x18#6 (by decide)).1, congrArg (fun n => some (some n)) (read_row 0x18#6 (by decide)).2⟩
theorem wrRsvd18 (v : Word) : Statement (.wrRsvd18 v) :=
  ⟨rfl, (write_row 0x18#6 v (by decide)).1, congrArg (fun n => some (some n)) (write_row 0x18#6 v (by decide)).2⟩
theorem rdRsvd1C : Statement .rdRsvd1C :=
  ⟨rfl, (read_row 0x1C#6 (by decide)).1, congrArg (fun n => some (some n)) (read_row 0x1C#6 (by decide)).2⟩
theorem wrRsvd1C (v : Word) : Statement (.wrRsvd1C v) :=
  ⟨rfl, (write_row 0x1C#6 v (by decide)).1, congrArg (fun n => some (some n)) (write_row 0x1C#6 v (by decide)).2⟩
theorem rdRsvd34 : Statement .rdRsvd34 :=
  ⟨rfl, (read_row 0x34#6 (by decide)).1, congrArg (fun n => some (some n)) (read_row 0x34#6 (by decide)).2⟩
theorem wrRsvd34 (v : Word) : Statement (.wrRsvd34 v) :=
  ⟨rfl, (write_row 0x34#6 v (by decide)).1, congrArg (fun n => some (some n)) (write_row 0x34#6 v (by decide)).2⟩
theorem rdRsvd38 : Statement .rdRsvd38 :=
  ⟨rfl, (read_row 0x38#6 (by decide)).1, congrArg (fun n => some (some n)) (read_row 0x38#6 (by decide)).2⟩
theorem wrRsvd38 (v : Word) : Statement (.wrRsvd38 v) :=
  ⟨rfl, (write_row 0x38#6 v (by decide)).1, congrArg (fun n => some (some n)) (write_row 0x38#6 v (by decide)).2⟩
theorem rdRsvd3C : Statement .rdRsvd3C :=
  ⟨rfl, (read_row 0x3C#6 (by decide)).1, congrArg (fun n => some (some n)) (read_row 0x3C#6 (by decide)).2⟩
theorem wrRsvd3C (v : Word) : Statement (.wrRsvd3C v) :=
  ⟨rfl, (write_row 0x3C#6 v (by decide)).1, congrArg (fun n => some (some n)) (write_row 0x3C#6 v (by decide)).2⟩
theorem txBeat : Statement .txBeat := ⟨rfl, rfl, rfl⟩
theorem rxBeat : Statement .rxBeat := ⟨rfl, rfl, rfl⟩
theorem init : Statement .init := ⟨rfl, rfl, rfl⟩
theorem isSg : Statement .isSg := ⟨rfl, rfl, rfl⟩
theorem disableIrq (dir : Chan) : Statement (.disableIrq dir) := by
  cases dir <;> exact ⟨rfl, rfl, rfl⟩
theorem transmit (addr : Word) (len : Word) : Statement (.transmit addr len) := ⟨rfl, rfl, rfl⟩
theorem receive (addr : Word) (len : Word) : Statement (.receive addr len) := ⟨rfl, rfl, rfl⟩
theorem offload (inbuf : Word) (outbuf : Word) : Statement (.offload inbuf outbuf) := ⟨rfl, rfl, rfl⟩

end Sys2Proof.Laws.TableRow
end

