-- ==== Sys2Proof/Tests/Slice0.lean ====
section
/-! SUPPORT. Small tests: ill-formed terms refused, words written out from the encodings, single steps from
95_test_vectors.md, and for every obligation with hypotheses a witness that meets them. -/

namespace Sys2Proof.Tests

open Sys2Proof.Machine

/-! ### Small states -/

/-- The configuration of the vectors: `DIM = 2`, streams of one word, host memory from 0x1000 to 0x4FFF. -/
def cfg : Config where
  dim := 2
  macMode := .separate
  nanPolicy := .canonical
  inDepth := .bounded 0
  outDepth := .bounded 0
  btcBlock := 0x1000000#26
  regions := [⟨0x1000, 0x4000⟩]
  busFaults := [(.tx, 0x4FF8), (.rx, 0x4FF8)]
  sgMode := false
  btcPresent := true

/-- Reset of that build. -/
def s0 : State := State.resetOf cfg

/-- Reset of the same build with `SG_MODE = 1`. -/
def sg : State := State.resetOf { cfg with sgMode := true }

/-- The machine answers a next state. -/
def goesOn (r : Result) : Bool :=
  match r with
  | .next _    => true
  | .fault _   => false
  | .refused _ => false

/-- `f` of the next state, if there is one. -/
def after {α : Type} (r : Result) (f : State → α) : Option α :=
  match r with
  | .next s    => some (f s)
  | .fault _   => none
  | .refused _ => none

/-- The machine stops with fault `e`. -/
def stopsWith (r : Result) (e : Fault) : Bool :=
  match r with
  | .next _    => false
  | .fault f   => f == e
  | .refused _ => false

/-- The machine refuses with `e`. -/
def refusesWith (r : Result) (e : Refusal) : Bool :=
  match r with
  | .next _    => false
  | .fault _   => false
  | .refused f => f == e

/-- A canonical stream word. -/
def cw (v : Word) (l : Bool) : StreamWord := ⟨v, 0xF#4, 0#4, 0#5, 0#5, l⟩

/-- A busy channel. -/
def busyAt (addr len xfer : Word) : Channel := { Channel.reset with busy := true, addr := addr, len := len, xfer := xfer }

/-- A halted channel. -/
def halted (code : BitVec 3) : Channel := { Channel.reset with err := true, errcode := code }

/-- The kernel at `(phase, idx)` with A = 1 2 3 4, B = 5 6 7 8 and C = 19 22 43 50 (2.6). -/
def kAt (phase : Phase) (idx : Nat) : Kernel where
  phase := phase
  idx := idx
  a := [(0, 0x3F800000#32), (1, 0x40000000#32), (2, 0x40400000#32), (3, 0x40800000#32)]
  b := [(0, 0x40A00000#32), (1, 0x40C00000#32), (2, 0x40E00000#32), (3, 0x41000000#32)]
  out := [(0, 0x41980000#32), (1, 0x41B00000#32), (2, 0x422C0000#32), (3, 0x42480000#32)]

/-- The host with a queue. -/
def withQueue (s : State) (pos : Nat) (q : List HostOp) : State := { s with host := { s.host with queue := q, pos := pos } }

/-- The state with the next turns decided. -/
def turns (s : State) (l : List Turn) : State := { s with sched := l }

/-! ### Ill-formed terms are refused -/

theorem test_wf_config : cfg.wellFormed = true ∧ Config.thisHardware.wellFormed = true := by decide +kernel
theorem test_wf_config_odd_dim : Config.wellFormed { cfg with dim := 3 } = false := by decide
theorem test_wf_config_zero_dim : Config.wellFormed { cfg with dim := 0 } = false := by decide
theorem test_wf_config_huge_dim : Config.wellFormed { cfg with dim := 23172 } = false := by decide +kernel
theorem test_wf_produced_side_bits : OpWord.wellFormed (.sw .produced 0x0000E3F800000#51) = false := by decide
theorem test_wf_bus_offset : OpWord.wellFormed (.bus 0x0200000000#39) = false := by decide
theorem test_wf_idle_channel : OpWord.wellFormed (.chstep .rx 0#1) = false := by decide
theorem test_wf_prim_operands : OpWord.wellFormed (.prim .fma32 [0#32, 0#32]) = false := by decide
theorem test_wf_pseudo_operands : OpWord.wellFormed (.pseudo .init [0#32]) = false := by decide
theorem test_wf_direction : OpWord.wellFormed (.pseudo .disableIrq [2#32]) = false := by decide
theorem test_wf_accepted : OpWord.wellFormed (.sw .accepted 0x7FFF0FFC00001#51) = true := by decide
theorem test_wf_instr : Instr.wellFormed (.disableIrq .rx) = true := by decide

/-! ### Words written out from the encodings: 30_encoding.md R92, R96, R98, R101 -/

theorem test_decode_stream :
    decode (.sw .produced 0x0000F7FC00000#51) = .ok (.encode 0x7FC00000#32 false) ∧
    decode (.sw .produced 0x4000F3F800000#51) = .ok (.encode 0x3F800000#32 true) ∧
    decode (.sw .accepted 0x4000F3F800000#51) = .ok (.decode ⟨0x3F800000#32, 0xF#4, 0#4, 0#5, 0#5, true⟩) ∧
    decode (.sw .accepted 0x2123456789ABC#51) = .ok (.decode ⟨0x56789ABC#32, 4#4, 3#4, 0x12#5, 0x10#5, false⟩) ∧
    decode (.sw .produced 0x2000F3F800000#51) = .error .sideFieldsNotCanonical := by decide

theorem test_decode_prim :
    decode (.prim .fmul32 [1#32, 2#32]) = .ok (.fmul32 1#32 2#32) ∧ decode (.prim .fadd32 [1#32, 2#32]) = .ok (.fadd32 1#32 2#32) ∧
    decode (.prim .fma32 [1#32, 2#32, 3#32]) = .ok (.fma32 1#32 2#32 3#32) ∧
    decode (.prim .mac [1#32, 2#32, 3#32]) = .ok (.mac 1#32 2#32 3#32) ∧ decode (.prim .mac [1#32]) = .error .badOperands := by decide

theorem test_decode_steps :
    decode (.kstep 0#2) = .ok .kLoadA ∧ decode (.kstep 1#2) = .ok .kLoadB ∧ decode (.kstep 2#2) = .ok .kCell ∧
    decode (.kstep 3#2) = .ok .kStore ∧ decode (.chstep .tx 1#1) = .ok .txBeat ∧ decode (.chstep .rx 1#1) = .ok .rxBeat := by
  decide

theorem test_decode_reads_tx :
    decode (.bus 0x0000000000#39) = .ok .rdTxCtrl ∧ decode (.bus 0x0400000000#39) = .ok .rdTxStatus ∧
    decode (.bus 0x0800000000#39) = .ok .rdTxAddr ∧ decode (.bus 0x0C00000000#39) = .ok .rdTxLen ∧
    decode (.bus 0x1000000000#39) = .ok .rdTxXfer ∧ decode (.bus 0x1400000000#39) = .ok .rdRsvd14 ∧
    decode (.bus 0x1800000000#39) = .ok .rdRsvd18 ∧ decode (.bus 0x1C00000000#39) = .ok .rdRsvd1C := by decide

theorem test_decode_reads_rx :
    decode (.bus 0x2000000000#39) = .ok .rdRxCtrl ∧ decode (.bus 0x2400000000#39) = .ok .rdRxStatus ∧
    decode (.bus 0x2800000000#39) = .ok .rdRxAddr ∧ decode (.bus 0x2C00000000#39) = .ok .rdRxLen ∧
    decode (.bus 0x3000000000#39) = .ok .rdRxXfer ∧ decode (.bus 0x3400000000#39) = .ok .rdRsvd34 ∧
    decode (.bus 0x3800000000#39) = .ok .rdRsvd38 ∧ decode (.bus 0x3C00000000#39) = .ok .rdRsvd3C := by decide

theorem test_decode_writes_tx :
    decode (.bus 0x4000000003#39) = .ok (.wrTxCtrl 3#32) ∧ decode (.bus 0x4400000002#39) = .ok (.wrTxStatus 2#32) ∧
    decode (.bus 0x4800001000#39) = .ok (.wrTxAddr 0x1000#32) ∧ decode (.bus 0x4C00000020#39) = .ok (.wrTxLen 0x20#32) ∧
    decode (.bus 0x5000000000#39) = .ok (.wrTxXfer 0#32) ∧ decode (.bus 0x54FFFFFFFF#39) = .ok (.wrRsvd14 0xFFFFFFFF#32) ∧
    decode (.bus 0x5800000001#39) = .ok (.wrRsvd18 1#32) ∧ decode (.bus 0x5C80000000#39) = .ok (.wrRsvd1C 0x80000000#32) := by
  decide

theorem test_decode_writes_rx :
    decode (.bus 0x60FFFFFFFF#39) = .ok (.wrRxCtrl 0xFFFFFFFF#32) ∧ decode (.bus 0x6400000005#39) = .ok (.wrRxStatus 5#32) ∧
    decode (.bus 0x6800002000#39) = .ok (.wrRxAddr 0x2000#32) ∧ decode (.bus 0x6C00000010#39) = .ok (.wrRxLen 0x10#32) ∧
    decode (.bus 0x7000000004#39) = .ok (.wrRxXfer 4#32) ∧ decode (.bus 0x7400000001#39) = .ok (.wrRsvd34 1#32) ∧
    decode (.bus 0x7800000001#39) = .ok (.wrRsvd38 1#32) ∧ decode (.bus 0x7C00000001#39) = .ok (.wrRsvd3C 1#32) ∧
    decode (.bus 0x6600000000#39) = .error .misalignedOffset := by decide

theorem test_decode_pseudo :
    decode (.pseudo .init []) = .ok .init ∧ decode (.pseudo .isSg []) = .ok .isSg ∧
    decode (.pseudo .disableIrq [0#32]) = .ok (.disableIrq .tx) ∧ decode (.pseudo .disableIrq [1#32]) = .ok (.disableIrq .rx) ∧
    decode (.pseudo .transmit [0x1000#32, 32#32]) = .ok (.transmit 0x1000#32 32#32) ∧
    decode (.pseudo .receive [0x2000#32, 8#32]) = .ok (.receive 0x2000#32 8#32) ∧
    decode (.pseudo .offload [0x1000#32, 0x2000#32]) = .ok (.offload 0x1000#32 0x2000#32) := by decide

theorem test_table_words :
    decodeTableWord 56 0x0000F00000000 = some (.encode 0#32 false) ∧ decodeTableWord 56 0 = some (.decode (unpackStream 0#51)) ∧
    decodeTableWord 40 0x7C00000000 = some (.wrRsvd3C 0#32) ∧ decodeTableWord 8 2 = some .kCell ∧
    decodeTableWord 1 1 = some .txBeat ∧ decodeTableWord 0 0 = none ∧ decodeTableWord 8 4 = none := by decide +kernel

/-- A placed word is the first operation after reset, of this hardware too. -/
theorem test_placed_word_runs :
    after (step (State.reset.withFetchWord 40 0x6800002000)) (·.rx.addr) = some 0x2000#32 ∧
    after (step (s0.withFetchWord 40 0x4C00000020)) (fun t => (t.tx.errcode, t.tx.len)) = some (0#3, 0x20#32) ∧
    goesOn (step (State.reset.withFetchWord 8 0)) = true := by decide +kernel

/-! ### Single steps, expected values from 95_test_vectors.md -/

/-- 2.1 -/
theorem test_encode : after (exec (.encode 0x42C00000#32 true) s0) (fun t => packStream t.host.word) = some 0x4000F42C00000#51 := by
  decide

/-- 2.1 -/
theorem test_decode : after (exec (.decode (unpackStream 0x7FFF0FFC00001#51)) s0) (·.host.x) = some 0xFFC00001#32 := by decide

/-- 2.2: tie to even; underflow to `-0`. -/
theorem test_fmul32_rounds :
    after (exec (.fmul32 0x3F800800#32 0x3F800800#32) s0) (·.host.x) = some 0x3F801000#32 ∧
    after (exec (.fmul32 0x0D800000#32 0x8D800000#32) s0) (·.host.x) = some 0x80000000#32 ∧
    after (exec (.fmul32 0x00000003#32 0x3F000000#32) s0) (·.host.x) = some 0x00000002#32 := by decide +kernel

/-- 2.2: invalid, infinity, overflow, signalling NaN. -/
theorem test_fmul32_special :
    after (exec (.fmul32 0x7F800000#32 0x00000000#32) s0) (·.host.x) = some 0x7FC00000#32 ∧
    after (exec (.fmul32 0x7F800000#32 0xC0000000#32) s0) (·.host.x) = some 0xFF800000#32 ∧
    after (exec (.fmul32 0x7F7FFFFF#32 0x40000000#32) s0) (·.host.x) = some 0x7F800000#32 ∧
    after (exec (.fmul32 0x7FA00001#32 0x3F800000#32) s0) (·.host.x) = some 0x7FC00000#32 := by decide +kernel

/-- 2.3: ties, the overflow boundary, gradual underflow. -/
theorem test_fadd32_rounds :
    after (exec (.fadd32 0x4B800001#32 0x3F800000#32) s0) (·.host.x) = some 0x4B800002#32 ∧
    after (exec (.fadd32 0x7F7FFFFF#32 0x73000000#32) s0) (·.host.x) = some 0x7F800000#32 ∧
    after (exec (.fadd32 0x7F7FFFFF#32 0x72FFFFFF#32) s0) (·.host.x) = some 0x7F7FFFFF#32 ∧
    after (exec (.fadd32 0x00800000#32 0x80000001#32) s0) (·.host.x) = some 0x007FFFFF#32 := by decide +kernel

/-- 2.3: zeros and invalid. -/
theorem test_fadd32_special :
    after (exec (.fadd32 0x00000000#32 0x80000000#32) s0) (·.host.x) = some 0x00000000#32 ∧
    after (exec (.fadd32 0x80000000#32 0x80000000#32) s0) (·.host.x) = some 0x80000000#32 ∧
    after (exec (.fadd32 0x3F800000#32 0xBF800000#32) s0) (·.host.x) = some 0x00000000#32 ∧
    after (exec (.fadd32 0x7F800000#32 0xFF800000#32) s0) (·.host.x) = some 0x7FC00000#32 := by decide +kernel

/-- 2.4 -/
theorem test_fma32 :
    after (exec (.fma32 0x3F800800#32 0x3F800800#32 0xBF801000#32) s0) (·.host.x) = some 0x33800000#32 ∧
    after (exec (.fma32 0x0D800000#32 0x8D800000#32 0x00000000#32) s0) (·.host.x) = some 0x80000000#32 ∧
    after (exec (.fma32 0x00000000#32 0x8D800000#32 0x80000000#32) s0) (·.host.x) = some 0x80000000#32 := by decide +kernel

/-- 2.4, `separate`. -/
theorem test_mac_separate :
    after (exec (.mac 0xBF801000#32 0x3F800800#32 0x3F800800#32) s0) (·.host.x) = some 0x00000000#32 ∧
    after (exec (.mac 0xFF7FFFFF#32 0x7F7FFFFF#32 0x40000000#32) s0) (·.host.x) = some 0x7F800000#32 ∧
    after (exec (.mac 0x7F800000#32 0x7F7FFFFF#32 0xC0000000#32) s0) (·.host.x) = some 0x7FC00000#32 := by decide +kernel

/-- 2.4, `fused`. -/
theorem test_mac_fused :
    after (exec (.mac 0xBF801000#32 0x3F800800#32 0x3F800800#32) (State.resetOf { cfg with macMode := .fused })) (·.host.x) =
      some 0x33800000#32 ∧
    after (exec (.mac 0xFF7FFFFF#32 0x7F7FFFFF#32 0x40000000#32) (State.resetOf { cfg with macMode := .fused })) (·.host.x) =
      some 0x7F7FFFFF#32 := by decide +kernel

/-- 2.6: the last word of A, its side fields ignored, moves the sequencer to `(LOAD_B, 0)`. -/
theorem test_kLoadA :
    after (exec .kLoadA { s0 with k := kAt .loadA 3, inq := [unpackStream 0x7FFF0FFC00001#51] })
      (fun t => (lookup 3 t.k.a, t.k.phase, t.k.idx, t.inq)) = some (some 0xFFC00001#32, .loadB, 0, []) := by decide

/-- 2.6 -/
theorem test_kLoadB :
    after (exec .kLoadB { s0 with k := kAt .loadB 1, inq := [cw 0x40C00000#32 true] })
      (fun t => (lookup 1 t.k.b, t.k.phase, t.k.idx, t.inq)) = some (some 0x40C00000#32, .loadB, 2, []) := by decide

/-- 2.6: cell `[1][0]` is 43. -/
theorem test_kCell :
    after (exec .kCell { s0 with k := { kAt .compute 2 with out := [] } }) (fun t => (lookup 2 t.k.out, t.k.idx)) =
      some (some 0x422C0000#32, 3) := by decide +kernel

/-- 2.4: the matrices that tell the modes apart. -/
theorem test_kCell_separate :
    after (exec .kCell { s0 with k := { kAt .compute 0 with
        a := [(0, 0x3F800000#32), (1, 0x3F800800#32)], b := [(0, 0xBF801000#32), (2, 0x3F800800#32)] } })
      (fun t => lookup 0 t.k.out) = some (some 0x00000000#32) := by decide +kernel

/-- 2.6: the last word of the output frame, `4000F42480000`. -/
theorem test_kStore :
    after (exec .kStore { s0 with k := kAt .store 3 }) (fun t => (t.outq.map packStream, t.k.phase, t.k.idx)) =
      some ([0x4000F42480000#51], .loadA, 0) := by decide

/-- 2.7: the reads at reset, and of an SG build. -/
theorem test_reads_reset :
    after (exec .rdTxStatus sg) (·.host.x) = some 0x100#32 ∧ after (exec .rdRxStatus sg) (·.host.x) = some 0x100#32 ∧
    after (exec .rdTxStatus s0) (·.host.x) = some 0#32 ∧ after (exec .rdRxCtrl s0) (·.host.x) = some 0#32 ∧
    after (exec .rdRsvd3C s0) (·.host.x) = some 0#32 := by decide

/-- 2.7: an overrun reads 0x54; each register is its own. -/
theorem test_reads :
    after (exec .rdRxStatus { s0 with rx := halted 5#3 }) (·.host.x) = some 0x54#32 ∧
    after (exec .rdTxAddr { s0 with tx := busyAt 0x1000#32 32#32 4#32 }) (·.host.x) = some 0x1000#32 ∧
    after (exec .rdTxLen { s0 with tx := busyAt 0x1000#32 32#32 4#32 }) (·.host.x) = some 32#32 ∧
    after (exec .rdTxXfer { s0 with tx := busyAt 0x1000#32 32#32 4#32 }) (·.host.x) = some 4#32 := by decide

/-- 2.7: `WR 0x20 <- 0xFFFFFFFF` then reads 3. -/
theorem test_wrRxCtrl :
    after (andThen (exec (.wrRxCtrl 0xFFFFFFFF#32) s0) (exec .rdRxCtrl)) (·.host.x) = some 3#32 := by decide

/-- 2.7: the write clears DONE on bit 1 alone, and never ERR. -/
theorem test_wrStatus :
    after (exec (.wrTxStatus 2#32) { s0 with tx := { Channel.reset with done := true } }) (·.tx.done) = some false ∧
    after (exec (.wrTxStatus 5#32) { s0 with tx := { Channel.reset with done := true } }) (·.tx.done) = some true ∧
    after (andThen (exec (.wrRxStatus 0xFFFFFFFF#32) { s0 with rx := halted 5#3 }) (exec .rdRxStatus)) (·.host.x) =
      some 0x54#32 := by decide

/-- 2.7: address and start writes, accepted when idle, ignored when busy. -/
theorem test_wrAddr_wrLen :
    after (exec (.wrTxLen 0x2000#32) { s0 with tx := { Channel.reset with addr := 0x100000#32, done := true } })
      (fun t => statusWord false t.tx) = some 1#32 ∧
    after (exec (.wrTxAddr 0x5000#32) { s0 with tx := busyAt 0x1000#32 32#32 0#32 }) (·.tx) = some (busyAt 0x1000#32 32#32 0#32) ∧
    after (exec (.wrTxLen 8#32) { s0 with tx := busyAt 0x1000#32 32#32 0#32 }) (·.tx) = some (busyAt 0x1000#32 32#32 0#32) := by
  decide

/-- 2.8: the start errors and their order. -/
theorem test_start_errors :
    ([(0x1002#32, 0#32, 0x14#32), (0x1002#32, 6#32, 0x14#32), (0x1002#32, 8#32, 0x24#32),
        (0xFFFFFFFC#32, 8#32, 0x34#32), (0xFFFFFFFC#32, 4#32, 1#32), (0x1000#32, 0xFFFFFFFF#32, 0x14#32)].all fun p =>
      after (exec (.wrRxLen p.2.1) { s0 with rx := { Channel.reset with addr := p.1 } }) (fun t => statusWord false t.rx) ==
        some p.2.2) = true := by decide

/-- 2.9: the first beat of two, then the last. -/
theorem test_txBeat :
    after (exec .txBeat { s0 with mem := [(0x1002, 0x80#8), (0x1003, 0x3F#8)], tx := busyAt 0x1000#32 8#32 0#32 })
      (fun t => (t.inq.map packStream, t.tx.xfer, t.tx.busy)) = some ([0x0000F3F800000#51], 4#32, true) ∧
    after (exec .txBeat { s0 with mem := [(0x1007, 0x40#8)], tx := busyAt 0x1000#32 8#32 4#32 })
      (fun t => (t.inq.map packStream, t.tx.xfer, statusWord false t.tx)) = some ([0x4000F40000000#51], 8#32, 2#32) := by decide

/-- 2.9: the last word of a frame, byte by byte. -/
theorem test_rxBeat :
    after (exec .rxBeat { s0 with outq := [unpackStream 0x4000F42480000#51], rx := busyAt 0x2000#32 16#32 12#32 })
      (fun t => (t.mem, statusWord false t.rx, t.rx.xfer)) = some ([(0x200E, 0x48#8), (0x200F, 0x42#8)], 2#32, 16#32) := by decide

/-- 2.9: overrun, and a beat at an unmapped address. -/
theorem test_rxBeat_errors :
    after (exec .rxBeat { s0 with outq := [cw 0x41B00000#32 false], rx := busyAt 0x2000#32 8#32 4#32 })
      (fun t => (Memory.readWord t.mem 0x2004, statusWord false t.rx, t.outq)) = some (0x41B00000#32, 0x54#32, []) ∧
    after (exec .rxBeat { s0 with outq := [cw 1#32 false], rx := busyAt 0x5000#32 8#32 0#32 })
      (fun t => (t.mem, statusWord false t.rx, t.outq, t.rx.xfer)) = some ([], 0x34#32, [cw 1#32 false], 0#32) := by decide

/-- Part 3 P2 and 1.6: INIT on an SG build and with no controller. -/
theorem test_init :
    after (exec .init sg) (·.host.ret) = some .configurationError ∧
    after (exec .init (State.resetOf { cfg with btcPresent := false })) (·.host.ret) = some .configurationError ∧
    after (exec .init s0) (fun t => (t.host.pos, t.host.ret)) = some (1, .nothing) := by decide

/-- 1.4: IS_SG. -/
theorem test_isSg :
    after (exec .isSg sg) (·.host.ret) = some (.bool true) ∧ after (exec .isSg s0) (·.host.ret) = some (.bool false) := by decide

/-- 44_host_procedures.md R243. -/
theorem test_disableIrq :
    after (exec (.disableIrq .rx) { s0 with rx := { Channel.reset with ieDone := true, ieErr := true, done := true } })
      (fun t => (t.rx.ieDone, t.rx.ieErr, t.rx.done)) = some (false, false, true) := by decide

/-- Part 3 P3: RECEIVE's poll returns the overrun code; TRANSMIT's first access is the address write. -/
theorem test_transmit_receive :
    after (exec (.receive 0x2000#32 8#32) { withQueue s0 2 [] with rx := halted 5#3 }) (·.host.ret) = some (.transferError 5#3) ∧
    after (exec (.transmit 0x1000#32 32#32) s0) (fun t => (t.tx.addr, t.host.pos)) = some (0x1000#32, 1) := by decide

/-- Part 3 P1: the start writes of OFFLOAD are 0x20 and 0x10 bytes. -/
theorem test_offload :
    after (exec (.offload 0x1000#32 0x2000#32) (withQueue s0 1 [])) (fun t => (t.tx.len, t.host.pos)) = some (0x20#32, 2) ∧
    after (exec (.offload 0x1000#32 0x2000#32) (withQueue s0 4 [])) (fun t => (t.rx.len, t.host.pos)) = some (0x10#32, 5) := by
  decide

/-- 20_memory.md R61: a host store and its bytes; a store in the register block is a register write. -/
theorem test_host_store :
    after (hostOp (.st (.num 0x1000#32) (.num 0x11223344#32)) s0) (·.mem) =
      some [(0x1000, 0x44#8), (0x1001, 0x33#8), (0x1002, 0x22#8), (0x1003, 0x11#8)] ∧
    after (hostOp (.st (.num 0x40000028#32) (.num 0x2000#32)) s0) (fun t => (t.mem, t.rx.addr)) = some ([], 0x2000#32) ∧
    stopsWith (hostOp (.ld 0 (.num 0x5000#32)) s0) (.hostAccessOutsideMemory 0x5000#32) = true := by decide

/-- 10_state.md R38, U9: a word that runs into the register block from below, and one that runs out of it, are refused; the
words next to the block are not. -/
theorem test_host_word_at_block_edges :
    refusesWith (hostOp (.st (.num 0x3FFFFFFE#32) (.num 0#32)) s0) .registerAccessForm = true ∧
    refusesWith (hostOp (.ld 0 (.num 0x4000003E#32)) s0) .registerAccessForm = true ∧
    stopsWith (hostOp (.ld 0 (.num 0x3FFFFFFC#32)) s0) (.hostAccessOutsideMemory 0x3FFFFFFC#32) = true ∧
    stopsWith (hostOp (.ld 0 (.num 0x40000040#32)) s0) (.hostAccessOutsideMemory 0x40000040#32) = true := by decide

/-- Part 3 P8: the poll of RX_STATUS returns 2 when the channel is done, and goes on while it is busy. -/
theorem test_poll :
    after (step (turns (withQueue { s0 with rx := { Channel.reset with done := true } } 0 [.poll 7 0x24#6 (.num 1#32) (.num 0#32)])
      [.agent .host])) (fun t => (lookup 7 t.host.env, t.host.queue, t.host.pos)) = some (some 2#32, [], 0) ∧
    after (step (turns (withQueue { s0 with rx := busyAt 0x2000#32 16#32 0#32 } 0 [.poll 7 0x24#6 (.num 1#32) (.num 0#32)])
      [.agent .host])) (fun t => (lookup 7 t.host.env, t.host.queue.length, t.host.pos)) = some (some 1#32, 1, 1) := by decide

/-- A name bound by a read, used as a value and in a call; one that is not bound. -/
theorem test_names :
    after (andThen (hostOp (.rd 3 0x2C#6) { s0 with rx := busyAt 0x2000#32 16#32 0#32 })
      (hostOp (.wr 0x08#6 (.name 3)))) (·.tx.addr) = some 16#32 ∧
    after (andThen (hostOp (.rd 3 0x2C#6) { s0 with rx := busyAt 0x2000#32 16#32 0#32 })
      (hostOp (.call .transmit [.name 3, .num 4#32]))) (fun t => (t.tx.addr, t.host.pos)) = some (16#32, 1) ∧
    refusesWith (hostOp (.wr 0x08#6 (.name 3)) s0) .unboundName = true := by decide

/-- 44_host_procedures.md R244: `IF s[2] = 1 FAIL TransferError(code = s[6:4])` on status 0x54 and on status 2. -/
theorem test_if_fail :
    after (hostOp (.failIf (.masked (.num 0x54#32) (.num 4#32) (.num 4#32)) (.transferError (.num 0x54#32)))
      (withQueue s0 0 [.rd 0 0#6, .rd 1 0#6])) (fun t => (t.host.ret, t.host.queue)) = some (.transferError 5#3, []) ∧
    after (hostOp (.failIf (.masked (.num 2#32) (.num 4#32) (.num 4#32)) (.transferError (.num 2#32)))
      (withQueue s0 0 [.rd 0 0#6, .rd 1 0#6])) (fun t => (t.host.ret, t.host.queue.length)) = some (.nothing, 2) := by decide

/-- Log 23: an unbound name in a `FAIL` kind is refused where the condition holds, and not looked at where it does not. -/
theorem test_if_fail_unbound :
    refusesWith (hostOp (.failIf (.masked (.num 4#32) (.num 4#32) (.num 4#32)) (.transferError (.name 9))) s0) .unboundName = true ∧
    goesOn (hostOp (.failIf (.masked (.num 2#32) (.num 4#32) (.num 4#32)) (.transferError (.name 9))) s0) = true := by decide

/-- Part 3 P8, P7: a state with a procedure left, or a transfer under way, is no end of a run. -/
theorem test_run_over :
    s0.RunOver ∧ ¬ (withQueue s0 0 [.op (encode (.offload 0x1000#32 0x2000#32))]).RunOver ∧
    (withQueue s0 0 [.op (encode (.offload 0x1000#32 0x2000#32))]).Quiescent ∧
    ¬ State.RunOver { s0 with rx := busyAt 0x2000#32 16#32 0#32 } := by decide

/-! ### Witnesses: the hypotheses of each obligation, met together -/

theorem witness_DecodeEncodeRoundTrip : Instr.wellFormed (.wrRxLen 0xFFFFFFFF#32) = true := by decide

theorem witness_EncodeOfDecodedWord :
    decode (.bus 0x4C00000020#39) = .ok (.wrTxLen 0x20#32) ∧ decode (.bus 0x04FFFFFFFF#39) = .ok .rdTxStatus := by decide

/-- A register write, a procedure under way, a refusal, a fault; the values of a `POLL`, of a call, of an `IF`. -/
theorem witness_HostStepRunsQueueHead :
    (turns (withQueue s0 0 [.op (.bus 0x6800002000#39)]) [.agent .host]).host.queue = .op (.bus 0x6800002000#39) :: [] ∧
    (turns (withQueue s0 0 [.op (.bus 0x6800002000#39)]) [.agent .host]).sched = .agent .host :: [] ∧
    after (hostOp (.op (.bus 0x6800002000#39)) (withQueue s0 0 [.op (.bus 0x6800002000#39)])) (·.host.pos) = some 0 ∧
    after (hostOp (.op (.pseudo .transmit [0x1000#32, 4#32])) (withQueue s0 0 [.op (.pseudo .transmit [0x1000#32, 4#32])]))
      (·.host.pos) = some 1 ∧
    refusesWith (hostOp (.op (.bus 0x6800002000#39)) (withQueue sg 0 [.op (.bus 0x6800002000#39)])) (.scatterGatherBuild .rx) = true ∧
    stopsWith (hostOp (.ld 0 (.num 0#32)) (withQueue s0 0 [.ld 0 (.num 0#32)])) (.hostAccessOutsideMemory 0#32) = true ∧
    hostSelects (.bus 0x6800002000#39) = true ∧ decode (.bus 0x6800002000#39) = .ok (.wrRxAddr 0x2000#32) ∧
    decode (encodeWrite 0x28#6 0x2000#32) = .ok (.wrRxAddr 0x2000#32) ∧ valueOf s0.host.env (.num 0x2000#32) = some 0x2000#32 ∧
    decode (encodeRead 0x24#6) = .ok .rdRxStatus ∧ goesOn (exec .rdRxStatus s0) = true ∧ valueOf [(7, 1#32)] (.name 7) = some 1#32 ∧
    valuesOf [(7, 1#32)] [.name 7, .num 4#32] = some [1#32, 4#32] ∧ decode (.pseudo .transmit [1#32, 4#32]) = .ok (.transmit 1#32 4#32) ∧
    (0x54#32 &&& 4#32 = 4#32) ∧ (2#32 &&& 4#32 ≠ 4#32) ∧ s0.cfg.btcPresent = true ∧
    (State.resetOf { cfg with btcPresent := false }).cfg.btcPresent = false ∧ lookup 3 s0.host.env = none ∧
    valueOf s0.host.env (.name 3) = none ∧ Value.name 3 ∈ [Value.num 0#32, .name 3] ∧ (0x54#32 &&& 4#32 = 4#32) := by decide

theorem witness_HardwareStepRunsSelectedStep :
    (∀ p ∈ [Phase.loadA, .loadB, .compute, .store], (turns { s0 with k := kAt p 0 } [.agent .kernel]).k.phase = p) ∧
    (turns s0 [.agent .tx, .agent .rx]).sched = .agent .tx :: [.agent .rx] ∧ s0.tx.busy = false ∧ s0.rx.busy = false ∧
    ({ s0 with tx := busyAt 0x1000#32 4#32 0#32 } : State).tx.busy = true ∧ agentEnabled .host s0 = false ∧
    agentEnabled .tx { s0 with tx := busyAt 0x1000#32 4#32 0#32, inq := [cw 1#32 false] } = false ∧
    agentEnabled .rx { s0 with rx := busyAt 0x2000#32 4#32 0#32 } = false ∧ agentEnabled .kernel s0 = false ∧
    agentEnabled .kernel { s0 with k := kAt .store 0, outq := [cw 1#32 false] } = false := by decide

/-- A receive that no word answers: nothing but its poll can step (part 3 P7). -/
def polling (sched : List Turn) (tick : Nat) : State :=
  { s0 with
    rx := busyAt 0x2000#32 16#32 0#32, sched := sched, tick := tick
    host := { s0.host with queue := [.op (.pseudo .receive [0x2000#32, 16#32])], pos := 2, x := 1#32 } }

theorem busy_status : statusWord false (busyAt 0x2000#32 16#32 0#32) = 1#32 := by decide

theorem polling_stays (a : Agent) (sched : List Turn) (tick : Nat) :
    stepAgent a (polling sched tick) = .next (polling sched tick) := by
  cases a
  · have h : readStatus .rx (polling sched tick) = 1#32 := busy_status
    change andThen (.next (pollThen .rx (fun t => t.ret .ok) (polling sched tick))) (fun t => .next (retire t)) = _
    rw [pollThen_eq, h]
    rfl
  all_goals rfl

/-- The turns taken from reset's schedule on, none of them a reset. -/
def pollingRun : Nat → List Agent × Nat
  | 0     => ([], 0)
  | n + 1 =>
    match pollingRun n with
    | (_ :: l, k) => (l, k)
    | ([], k)     => ((fairStretch (Config.schedule k)).tail, k + 1)

/-- An endless run, in which the host is enabled all the time. -/
theorem witness_FreeScheduleStepsOneAgent :
    State.reset.sched = [] ∧
    EndlessRun (fun n => polling ((pollingRun n).1.map .agent) (pollingRun n).2) ∧
    ∀ n, agentEnabled .host (polling ((pollingRun n).1.map .agent) (pollingRun n).2) = true := by
  refine ⟨rfl, fun n => ?_, fun n => rfl⟩
  change step (polling ((pollingRun n).1.map .agent) (pollingRun n).2) = .next (polling ((pollingRun (n + 1)).1.map .agent) (pollingRun (n + 1)).2)
  rw [pollingRun]
  split
  · rename_i b l k h
    rw [h]
    exact polling_stays b (l.map .agent) k
  · rename_i k h
    rw [h]
    exact polling_stays _ _ _

theorem witness_PlacedWordRunsNext :
    decodeTableWord 40 0x4C00000020 = some (.wrTxLen 0x20#32) ∧ decodeTableWord 8 3 = some .kStore ∧
    decodeTableWord 1 1 = some .txBeat ∧ decodeTableWord 56 0x0000F00000000 = some (.encode 0#32 false) := by decide +kernel

/-- An ordinary value, a tie, the infinity's boundary and the value below it. -/
theorem witness_RoundIsNearestEven :
    isFinite (round32 1 false) = true ∧ isFinite 0x00000001#32 = true ∧
    fpDistance (3 * 2 ^ 148) (round32 (3 * 2 ^ 148) false) = fpDistance (3 * 2 ^ 148) 0x00000001#32 ∧
    round32 (3 * 2 ^ 148) false ≠ 0x00000001#32 ∧
    isInf (round32 ((2 ^ 25 - 1) * 2 ^ 401) false) = true ∧ isFinite (round32 ((2 ^ 25 - 1) * 2 ^ 401 - 1) false) = true ∧
    (round32 (-1) false).getLsbD 31 = true := by decide +kernel

theorem witness_RoundIsExactOnFinite :
    ([0x00000001#32, 0x007FFFFF#32, 0x00800000#32, 0xFF7FFFFF#32].all fun w => isFinite w && !isZero w) = true := by decide

theorem witness_FmulResult :
    isNaN 0x7F800001#32 = true ∧ isNaN 0xFFFFFFFF#32 = true ∧ (isInf 0xFF800000#32 = true ∧ isZero 0x80000000#32 = true) ∧
    (¬ (isNaN 0x7F800000#32 = true ∨ isNaN 0x3F800000#32 = true ∨ (isInf 0x7F800000#32 = true ∧ isZero 0x3F800000#32 = true) ∨
      (isZero 0x7F800000#32 = true ∧ isInf 0x3F800000#32 = true)) ∧ isInf 0x7F800000#32 = true) ∧
    ¬ (isInf 0x7F7FFFFF#32 = true ∨ isInf 0x00000000#32 = true) := by decide

theorem witness_FaddResult :
    (isInf 0x7F800000#32 = true ∧ isInf 0xFF800000#32 = true ∧ (0x7F800000#32).getLsbD 31 ≠ (0xFF800000#32).getLsbD 31) ∧
    (isInf 0x3F800000#32 = false ∧ isZero 0x00000000#32 = true ∧ isZero 0x80000000#32 = true) ∧
    fpVal 0x3F800000#32 + fpVal 0xBF800000#32 = 0 ∧ fpVal 0x00000001#32 + fpVal 0x00000001#32 ≠ 0 := by decide +kernel

theorem witness_FmaResult :
    (isInf 0x7F800000#32 = true ∧ (0xFF800000#32).getLsbD 31 ≠ ((0x7F800000#32).getLsbD 31 ^^ (0x3F800000#32).getLsbD 31)) ∧
    (isInf 0x3F800000#32 = false ∧ isInf 0xFF800000#32 = true) ∧
    fpVal 0x3F800000#32 * fpVal 0x3F800000#32 + fpVal 0xBF800000#32 * 2 ^ 149 = 0 ∧ isZero 0xBF800000#32 = false ∧
    fpVal 0x00000000#32 * fpVal 0x8D800000#32 + fpVal 0x80000000#32 * 2 ^ 149 = 0 ∧ isZero 0x80000000#32 = true ∧
    fpVal 0x00000001#32 * fpVal 0x00000001#32 + fpVal 0x00000000#32 * 2 ^ 149 ≠ 0 := by decide +kernel

theorem witness_MacResult : s0.cfg.macMode = .separate ∧ (State.resetOf { cfg with macMode := .fused }).cfg.macMode = .fused := by
  decide

/-- `a = 2`, `b = 3`, `c = 1`: product 6, sum 5, fused result 7; zero products and sums; a cell of one step. -/
theorem witness_ExactResultsAreExact :
    [0x40000000#32, 0x40400000#32, 0x3F800000#32, 0x40C00000#32, 0x40A00000#32, 0x40E00000#32, 0x80000000#32, 0xC0C00000#32].all
      isFinite = true ∧
    fpVal 0x40000000#32 * fpVal 0x40400000#32 = fpVal 0x40C00000#32 * 2 ^ 149 ∧
    fpVal 0x40000000#32 + fpVal 0x40400000#32 = fpVal 0x40A00000#32 ∧
    fpVal 0x3F800000#32 + fpVal 0x40C00000#32 = fpVal 0x40E00000#32 ∧
    fpVal 0x80000000#32 * fpVal 0x40400000#32 = fpVal 0x80000000#32 * 2 ^ 149 ∧ isZero 0x80000000#32 = true ∧
    fpVal 0x40C00000#32 + fpVal 0xC0C00000#32 = fpVal 0x00000000#32 ∧
    (fpVal 0x40000000#32 = 2 * 2 ^ 149 ∧ fpVal 0x40400000#32 = 3 * 2 ^ 149 ∧ ((2 : Int) * 3).natAbs ≤ 2 ^ 24) := by decide +kernel

theorem witness_SeparateSumNeverNegativeZero :
    cfg.macMode = .separate ∧
    accumulate cfg [(0, 0x80000000#32), (1, 0x80000000#32)] [(0, 0x3F800000#32), (2, 0x3F800000#32)] 0 0 0 2 =
      some (0x00000000#32, 0) := by decide +kernel

theorem witness_NaNAccumulatorStaysNaN : isNaN 0x7F800001#32 = true ∧ isNaN 0xFFC00000#32 = true := by decide

theorem witness_KLoadAStep :
    (kAt .loadA 0).phase = .loadA ∧ s0.inq = [] ∧ ({ s0 with inq := [cw 1#32 false] } : State).inq = cw 1#32 false :: [] ∧
    (kAt .loadA 3).idx + 1 = cfg.n ∧ (kAt .loadA 0).idx + 1 ≠ cfg.n := by decide

theorem witness_KLoadBStep :
    (kAt .loadB 3).phase = .loadB ∧ s0.inq = [] ∧ ({ s0 with inq := [cw 1#32 true] } : State).inq = cw 1#32 true :: [] := by decide

theorem witness_KCellStep :
    (kAt .compute 3).phase = .compute ∧
    ∀ k < 2, lookup (3 / 2 * 2 + k) (kAt .compute 3).a = some (if k = 0 then 0x40400000#32 else 0x40800000#32) ∧
      lookup (k * 2 + 3 % 2) (kAt .compute 3).b = some (if k = 0 then 0x40C00000#32 else 0x41000000#32) := by decide

theorem witness_KStoreStep :
    (kAt .store 3).phase = .store ∧ ¬ roomIn [cw 1#32 false] cfg.outDepth ∧ roomIn [] cfg.outDepth ∧
    lookup 3 (kAt .store 3).out = some 0x42480000#32 := by
  refine ⟨by decide, ?_, ?_, by decide⟩ <;> simp [roomIn, cfg]

/-- An unwritten cell of A, of B, of OUT. -/
theorem witness_UnwrittenCellReadFaults :
    (Kernel.reset.phase = .loadA ∧ lookup (0 / 2 * 2 + 1) [(0, 1#32)] = none ∧ lookup (1 * 2 + 0 % 2) ([] : Cells) = none) ∧
    ({ kAt .store 0 with out := [] } : Kernel).phase = .store ∧ roomIn [] cfg.outDepth ∧ lookup 0 ([] : Cells) = none ∧
    stopsWith (exec .kCell { s0 with k := { Kernel.reset with phase := .compute } }) .unwrittenCell = true := by
  refine ⟨by decide, by decide, ?_, by decide, by decide⟩
  simp [roomIn, cfg]

/-- The invariant holds at reset of that build. -/
theorem inv_s0 : s0.Inv := by
  refine ⟨by decide, ⟨by decide, by decide, by decide, by decide, fun j hj => absurd hj (Nat.not_lt_zero j)⟩,
    ⟨by decide, ?_⟩, ⟨by decide, ?_⟩, by decide, by decide, by decide, by decide⟩ <;> simp [fits, cfg, s0, State.resetOf]

theorem witness_KernelRoundIsMultiplyStream :
    cfg.wellFormed = true ∧ cfg.nanPolicy = .canonical ∧ s0.k.phase = .loadA ∧ s0.k.idx = 0 ∧
    (List.replicate 8 (cw 0x3F800000#32 false)).length = 2 * cfg.n ∧ roomFor cfg.n [] (.bounded 3) := by
  refine ⟨by decide, by decide, by decide, by decide, by decide, ?_⟩
  simp [roomFor, cfg, Config.n]

theorem witness_WriteStatus : (0x00000002#32).getLsbD 1 = true ∧ (0xFFFFFFFD#32).getLsbD 1 = false := by decide

theorem witness_WriteAddr :
    s0.cfg.sgMode = false ∧ ((s0.chan .rx).busy = false ∧ (s0.chan .rx).err = false) ∧ (busyAt 0#32 4#32 0#32).busy = true ∧
    (halted 1#3).err = true := by decide

/-- Each clause at its boundary: length 0, not a multiple of 4; address off by 1; the range one beat too long; exact fit. -/
theorem witness_WriteLenStarts :
    ((0#32 : Word) = 0#32 ∧ (3#32 : Word).toNat % 4 ≠ 0) ∧
    ((4#32 : Word) ≠ 0#32 ∧ (4#32 : Word).toNat % 4 = 0 ∧ (0x1001#32 : Word).toNat % 4 ≠ 0) ∧
    ((8#32 : Word).toNat % 4 = 0 ∧ (0xFFFFFFFC#32 : Word).toNat % 4 = 0 ∧ 2 ^ 32 < (0xFFFFFFFC#32 : Word).toNat + (8#32 : Word).toNat) ∧
    ((4#32 : Word) ≠ 0#32 ∧ (0xFFFFFFFC#32 : Word).toNat + (4#32 : Word).toNat ≤ 2 ^ 32) := by decide

theorem witness_ReservedOffsets :
    Instr.rdRsvd3C ∈ [Instr.rdRsvd14, .rdRsvd18, .rdRsvd1C, .rdRsvd34, .rdRsvd38, .rdRsvd3C] ∧
    Instr.wrRsvd14 1#32 ∈ [Instr.wrRsvd14 1#32, .wrRsvd18 1#32, .wrRsvd1C 1#32] := by decide

theorem witness_ScatterGatherBuild : sg.cfg.sgMode = true := by decide

/-- The last byte of the block; a word one byte into it from below, a word one byte in it at its top. -/
theorem witness_OddRegisterAccessRefused :
    (0x0500000000#39).extractLsb' 32 2 ≠ 0#2 ∧ (0x3D#6 : BitVec 6).toNat % 4 ≠ 0 ∧
    ((0x3FFFFFFD#32 : Word).toNat % 4 ≠ 0 ∧ btcBase cfg ≤ (0x3FFFFFFD#32 : Word).toNat + 3) ∧
    ((0x4000003F#32 : Word).toNat % 4 ≠ 0 ∧ (0x4000003F#32 : Word).toNat + 0 < btcBase cfg + 0x40) ∧
    btcBase cfg ≤ (0x4000003F#32 : Word).toNat ∧ (0x4000003F#32 : Word).toNat < btcBase cfg + 0x40 := by decide

/-- `IN` full; the first unmapped and the last mapped beat; a bus fault; the last word and the one before. -/
theorem witness_TxBeatStep :
    (busyAt 0x1000#32 8#32 4#32).busy = true ∧ ¬ roomIn [cw 1#32 false] cfg.inDepth ∧ roomIn [] cfg.inDepth ∧
    mapped cfg 0x5000 = false ∧ (∀ n < 4, mapped cfg (0x4FFC + n) = true) ∧ busFault cfg .tx 0x4FFC = false ∧
    ((∀ n < 4, mapped cfg (0x4FF8 + n) = true) ∧ busFault cfg .tx 0x4FF8 = true) ∧
    (busyAt 0x1000#32 8#32 4#32).xfer.toNat + 4 = 8 ∧ (busyAt 0x1000#32 8#32 0#32).xfer.toNat + 4 ≠ 8 := by
  refine ⟨by decide, ?_, ?_, by decide⟩ <;> simp [roomIn, cfg]

theorem witness_RxBeatStep :
    (busyAt 0x2000#32 16#32 12#32).busy = true ∧ Memory.wf [(0x200E, 0x48#8)] = true ∧ s0.outq = [] ∧
    (∃ n < 4, mapped cfg (0x0FFD + n) = false) ∧ ((∀ n < 4, mapped cfg (0x4FF8 + n) = true) ∧ busFault cfg .rx 0x4FF8 = true) ∧
    ((∀ n < 4, mapped cfg (0x200C + n) = true) ∧ busFault cfg .rx 0x200C = false) ∧ (cw 1#32 true).last = true ∧
    (cw 1#32 false).last = false ∧ (busyAt 0x2000#32 16#32 12#32).xfer.toNat + 4 = 16 ∧
    (busyAt 0x2000#32 16#32 8#32).xfer.toNat + 4 ≠ 16 := by decide

theorem witness_ErrorEntry : Chan.rx ≠ Chan.tx ∧ ({ Channel.reset with ieErr := true } : Channel).ieErr = true := by decide

theorem witness_ErrorIsSticky :
    goesOn (exec (.wrRxLen 16#32) { s0 with rx := halted 5#3 }) = true ∧ (halted 5#3).err = true ∧ (halted 5#3).busy = false := by
  decide

/-- A transfer that ends in DONE, and one that ends in an error. -/
theorem witness_TransferEndsInDoneOrError :
    Channel.Inv (busyAt 0x1000#32 8#32 4#32) ∧ (busyAt 0x1000#32 8#32 4#32).busy = true ∧
    after (exec .txBeat { s0 with tx := busyAt 0x1000#32 8#32 4#32 }) (·.tx.busy) = some false ∧
    Channel.Inv (busyAt 0x5000#32 8#32 0#32) ∧
    after (exec .txBeat { s0 with tx := busyAt 0x5000#32 8#32 0#32 }) (·.tx.busy) = some false := by decide

theorem witness_InitProcedure :
    (∀ p ∈ [0, 1, 2, 3], (withQueue s0 p []).host.pos = p) ∧ s0.cfg.btcPresent = true ∧ s0.cfg.sgMode = false ∧
    sg.cfg.sgMode = true ∧ (State.resetOf { cfg with btcPresent := false }).cfg.btcPresent = false := by decide

theorem witness_TransmitProcedure :
    (∀ p ∈ [0, 1, 2], (withQueue s0 p []).host.pos = p) ∧ s0.cfg.sgMode = false ∧ sg.cfg.sgMode = true ∧ sg.host.pos < 2 ∧
    (busyAt 0x1000#32 4#32 0#32).busy = true ∧ ((halted 3#3).busy = false ∧ (halted 3#3).err = true) ∧
    (Channel.reset.busy = false ∧ Channel.reset.err = false) := by decide

theorem witness_ReceiveProcedure :
    (∀ p ∈ [0, 1, 2], (withQueue s0 p []).host.pos = p) ∧ s0.cfg.sgMode = false ∧ sg.cfg.sgMode = true ∧ sg.host.pos < 2 ∧
    (busyAt 0x2000#32 4#32 0#32).busy = true ∧ ((halted 5#3).busy = false ∧ (halted 5#3).err = true) ∧
    (Channel.reset.busy = false ∧ Channel.reset.err = false) := by decide

theorem witness_OffloadProcedure :
    cfg.wellFormed = true ∧ sg.cfg.wellFormed = true ∧ sg.cfg.sgMode = true ∧ (∀ p ∈ [0, 1, 2, 3, 4, 5], (withQueue s0 p []).host.pos = p) ∧ s0.cfg.sgMode = false ∧
    (busyAt 0x1000#32 32#32 0#32).busy = true ∧ ((halted 4#3).busy = false ∧ (halted 4#3).err = true) ∧
    (Channel.reset.busy = false ∧ Channel.reset.err = false) := by decide

/-- A transmit of one word at the top of the mapped region. -/
theorem witness_CompleteTransmit :
    let s := turns (withQueue s0 0 [.op (.pseudo .transmit [0x4FFC#32, 4#32])])
      (.agent .host :: .agent .host :: List.replicate 1 (.agent .tx) ++ .agent .host :: [])
    s.cfg.sgMode = false ∧ s.tx.busy = false ∧ s.tx.err = false ∧ (0x4FFC#32 : Word).toNat % 4 = 0 ∧
    (4#32 : Word).toNat = 4 * 1 ∧ 0x4FFC + 4 ≤ 2 ^ 32 ∧ beatsPass s.cfg .tx 0x4FFC 1 ∧ roomFor 1 s.inq s.cfg.inDepth ∧
    s.host.pos = 0 ∧ s.host.queue = .op (encode (.transmit 0x4FFC#32 4#32)) :: [] ∧
    s.sched = .agent .host :: .agent .host :: List.replicate 1 (.agent .tx) ++ .agent .host :: [] := by
  refine ⟨by decide, by decide, by decide, by decide, by decide, by decide, ⟨?_, by decide⟩, ?_, by decide, by decide, by decide⟩
  · intro b h1 h2
    obtain rfl | rfl | rfl | rfl : b = 0x4FFC ∨ b = 0x4FFD ∨ b = 0x4FFE ∨ b = 0x4FFF := by omega
    all_goals decide
  · simp [roomFor, turns, withQueue, s0, State.resetOf, cfg]

/-- A receive of a one-word frame that fills its buffer. -/
theorem witness_CompleteReceive :
    let s := { turns (withQueue s0 0 [.op (.pseudo .receive [0x1000#32, 4#32])])
        (.agent .host :: .agent .host :: List.replicate (([] : List StreamWord).length + 1) (.agent .rx) ++ .agent .host :: []) with
      outq := [cw 0x41980000#32 true] }
    s.cfg.sgMode = false ∧ s.rx.busy = false ∧ s.rx.err = false ∧ (0x1000#32 : Word).toNat % 4 = 0 ∧ (4#32 : Word).toNat % 4 = 0 ∧
    0x1000 + 4 ≤ 2 ^ 32 ∧ Memory.wf s.mem = true ∧ s.outq = [] ++ cw 0x41980000#32 true :: [] ∧
    (cw 0x41980000#32 true).last = true ∧ 4 * (([] : List StreamWord).length + 1) ≤ (4#32 : Word).toNat ∧
    beatsPass s.cfg .rx 0x1000 1 ∧ s.host.pos = 0 ∧ s.host.queue = .op (encode (.receive 0x1000#32 4#32)) :: [] := by
  refine ⟨by decide, by decide, by decide, by decide, by decide, by decide, by decide, by decide, by decide, by decide,
    ⟨?_, by decide⟩, by decide, by decide⟩
  intro b h1 h2
  obtain rfl | rfl | rfl | rfl : b = 0x1000 ∨ b = 0x1001 ∨ b = 0x1002 ∨ b = 0x1003 := by omega
  all_goals decide

/-- The addresses of a mapped word are in the region and outside the register block. -/
theorem mapped_low {b : Nat} (h1 : 0x1000 ≤ b) (h2 : b < 0x5000) : mapped cfg b = true := by
  have h4 : btcBase cfg = 0x40000000 := by decide
  have h5 : inRegisterBlock cfg b = false := by
    rw [inRegisterBlock, decide_eq_false (by omega), Bool.false_and]
  have h6 : cfg.regions.any (inRegion b) = true := by
    simp [cfg, inRegion, h1, h2]
  rw [mapped, h5, h6, decide_eq_true (by omega)]
  rfl

/-- The state of program P1, its matrices at 0x1000. -/
theorem witness_OffloadComputesProduct :
    let s := withQueue s0 0 [.op (.pseudo .offload [0x1000#32, 0x2000#32])]
    s.Quiescent ∧ s.Inv ∧ s.cfg.sgMode = false ∧ s.cfg.nanPolicy = .canonical ∧ (0x1000#32 : Word).toNat % 4 = 0 ∧
    (0x2000#32 : Word).toNat % 4 = 0 ∧ 0x1000 + 8 * s.cfg.n ≤ 2 ^ 32 ∧ 0x2000 + 4 * s.cfg.n ≤ 2 ^ 32 ∧
    beatsPass s.cfg .tx 0x1000 (2 * s.cfg.n) ∧ beatsPass s.cfg .rx 0x2000 s.cfg.n ∧ s.host.pos = 0 ∧
    s.host.queue = .op (encode (.offload 0x1000#32 0x2000#32)) :: [] := by
  have hn : cfg.n = 4 := by decide
  refine ⟨by decide, ?_, by decide, by decide, by decide, by decide, by decide, by decide, ⟨?_, by decide⟩, ⟨?_, by decide⟩,
    by decide, by decide⟩
  · obtain ⟨h1, h2, h3, h4, h5, h6, h7, _⟩ := inv_s0
    exact ⟨h1, h2, h3, h4, h5, h6, h7, by decide⟩
  · intro b h1 h2
    change b < 0x1000 + 4 * (2 * cfg.n) at h2
    exact mapped_low h1 (by omega)
  · intro b h1 h2
    change b < 0x2000 + 4 * cfg.n at h2
    exact mapped_low (by omega) (by omega)

theorem witness_LittleEndianMemory : Memory.wf [(0, 1#8), (0xFFFFFFFF, 2#8)] = true := by decide

/-- Host memory's last word; the first and the last register; the word that leaves the region, the one below the block, the one
above it; the region's last byte, the byte after it. -/
theorem witness_HostLoadsAndStores :
    Memory.wf s0.mem = true ∧ (∀ n < 4, mapped cfg ((0x4FFC#32 : Word).toNat + n) = true) ∧
    ((0x00#6 : BitVec 6).toNat % 4 = 0 ∧ (0x40000000#32 : Word).toNat = btcBase cfg + (0x00#6 : BitVec 6).toNat) ∧
    ((0x3C#6 : BitVec 6).toNat % 4 = 0 ∧ (0x4000003C#32 : Word).toNat = btcBase cfg + (0x3C#6 : BitVec 6).toNat) ∧
    ([0x4FFD, 0x3FFFFFFC, 0x40000040].all fun a => (List.range 4).all fun n => !inRegisterBlock cfg (a + n)) = true ∧
    (mapped cfg (0x4FFD + 2) = true ∧ mapped cfg (0x4FFD + 3) = false) ∧ mapped cfg (0x3FFFFFFC + 0) = false ∧
    mapped cfg (0x40000040 + 0) = false ∧ mapped cfg (0x4FFF#32 : Word).toNat = true ∧
    (mapped cfg (0x5000#32 : Word).toNat = false ∧
      ¬ (btcBase cfg ≤ (0x5000#32 : Word).toNat ∧ (0x5000#32 : Word).toNat < btcBase cfg + 0x40)) := by decide

theorem witness_ResetValues : (turns s0 [.reset, .agent .host]).sched = .reset :: [.agent .host] := by decide

theorem witness_ResetIsQuiescentAndGood : cfg.wellFormed = true := by decide

theorem witness_StepKeepsInvariant : State.Inv s0 ∧ goesOn (step (turns s0 [.agent .kernel])) = true := by
  exact ⟨inv_s0, by decide⟩

theorem witness_ParametersNeverChange :
    goesOn (step (turns s0 [.reset])) = true ∧ goesOn (exec (.wrTxLen 4#32) s0) = true := by decide

theorem witness_OnlyRxBeatWritesMemory :
    goesOn (exec .rxBeat { s0 with outq := [cw 1#32 true], rx := busyAt 0x1000#32 4#32 0#32 }) = true ∧
    goesOn (exec .txBeat s0) = true := by decide

theorem witness_KernelStorageWriters :
    goesOn (exec .kLoadA { s0 with inq := [cw 1#32 false] }) = true ∧ goesOn (exec .kLoadB s0) = true ∧
    goesOn (exec .kCell { s0 with k := kAt .compute 0 }) = true ∧ goesOn (exec .kStore { s0 with k := kAt .store 0 }) = true ∧
    goesOn (exec .rxBeat s0) = true := by decide +kernel

theorem witness_StreamsAreFifo :
    after (exec .txBeat { s0 with tx := busyAt 0x1000#32 4#32 0#32 }) (·.inq) = some [cw 0#32 true] ∧
    after (exec .rxBeat { s0 with outq := [cw 1#32 true], rx := busyAt 0x1000#32 4#32 0#32 }) (·.outq) = some [] := by decide

/-- R40: each source raises the line; an enabled source whose flag is 0, and a flag that is not enabled, leave it low. -/
theorem test_irq :
    irq { Channel.reset with ieDone := true, done := true } = true ∧ irq { halted 5#3 with ieErr := true } = true ∧
    irq { Channel.reset with ieErr := true, done := true } = false ∧ irq { halted 5#3 with ieDone := true } = false ∧
    irq { Channel.reset with ieDone := true, ieErr := true } = false := by decide

theorem witness_InterruptsStayDisabled :
    goesOn (exec (.wrTxCtrl 0xFFFFFFFC#32) s0) = true ∧ (s0.chan .tx).ieDone = false ∧ (s0.chan .tx).ieErr = false ∧
    (0xFFFFFFFC#32).extractLsb' 0 2 = 0#2 := by decide

end Sys2Proof.Tests
end

section
/-! What no operation, no agent and no reset writes, and the turns of an endless run (00_scope.md R8, R10). -/

namespace Sys2Proof.Machine

/-! ### What no operation of the table writes -/

/-- What steers the machine: its parameters (10_state.md R42), the schedule, the host's program and the names bound. -/
def State.steering (s : State) : Config × List Turn × Nat × List HostOp × List (Nat × Word) :=
  (s.cfg, s.sched, s.tick, s.host.queue, s.host.env)

@[simp] theorem steering_setChan (s : State) (c : Chan) (ch : Channel) : (s.setChan c ch).steering = s.steering := by
  cases c <;> rfl

@[simp] theorem steering_bind (s : State) (v : Word) : (s.bind v).steering = s.steering := rfl
@[simp] theorem steering_atPos (s : State) (n : Nat) : (s.atPos n).steering = s.steering := rfl
@[simp] theorem steering_ret (s : State) (r : Ret) : (s.ret r).steering = s.steering := rfl

@[simp] theorem steering_writeCtrl (c : Chan) (v : Word) (s : State) : (writeCtrl c v s).steering = s.steering :=
  steering_setChan ..

@[simp] theorem steering_writeStatus (c : Chan) (v : Word) (s : State) : (writeStatus c v s).steering = s.steering := by
  obtain ⟨ch, h⟩ := writeStatus_setChan c v s
  rw [h, steering_setChan]

theorem writeAddr_steering {c : Chan} {v : Word} {s t : State} (h : writeAddr c v s = .next t) :
    t.steering = s.steering := by
  obtain ⟨ch, rfl⟩ := writeAddr_setChan h
  exact steering_setChan ..

theorem writeLen_steering {c : Chan} {v : Word} {s t : State} (h : writeLen c v s = .next t) :
    t.steering = s.steering := by
  obtain ⟨ch, rfl⟩ := writeLen_setChan h
  exact steering_setChan ..

@[simp] theorem steering_checkSgThen (c : Chan) (n : Nat) (s : State) : (checkSgThen c n s).steering = s.steering := by
  rw [checkSgThen_eq]
  split <;> rfl

/-- A poll leaves alone what the continuation leaves alone. -/
theorem steering_pollThen (c : Chan) {goOn : State → State} (hgo : ∀ u, (goOn u).steering = u.steering) (s : State) :
    (pollThen c goOn s).steering = s.steering := by
  rw [pollThen_eq]
  split
  · rfl
  · split
    · rfl
    · rw [hgo, steering_bind]

theorem execInit_steering {s t : State} (h : execInit s = .next t) : t.steering = s.steering := by
  obtain ⟨_, ⟨_, rfl⟩ | ⟨_, rfl⟩⟩ | ⟨_, rfl⟩ | ⟨_, rfl⟩ | ⟨_, rfl⟩ := execInit_next h <;> simp

theorem execTransmit_steering {addr len : Word} {s t : State} (h : execTransmit addr len s = .next t) :
    t.steering = s.steering := by
  obtain ⟨_, u, hu, rfl⟩ | ⟨_, u, hu, rfl⟩ | ⟨_, rfl⟩ := execTransmit_next h
  · exact (writeAddr_steering hu :)
  · exact (writeLen_steering hu :)
  · exact steering_pollThen _ (fun u => steering_ret u _) s

theorem execReceive_steering {addr len : Word} {s t : State} (h : execReceive addr len s = .next t) :
    t.steering = s.steering := by
  obtain ⟨_, u, hu, rfl⟩ | ⟨_, u, hu, rfl⟩ | ⟨_, rfl⟩ := execReceive_next h
  · exact (writeAddr_steering hu :)
  · exact (writeLen_steering hu :)
  · exact steering_pollThen _ (fun u => steering_ret u _) s

theorem execOffload_steering {inbuf outbuf : Word} {s t : State} (h : execOffload inbuf outbuf s = .next t) :
    t.steering = s.steering := by
  obtain ⟨_, u, hu, rfl⟩ | ⟨_, u, hu, rfl⟩ | ⟨_, rfl⟩ | ⟨_, u, hu, rfl⟩ | ⟨_, u, hu, rfl⟩ | ⟨_, rfl⟩ := execOffload_next h
  · exact (writeAddr_steering hu :)
  · exact (writeLen_steering hu :)
  · exact steering_pollThen _ (fun u => steering_atPos u _) s
  · exact (writeAddr_steering hu :)
  · exact (writeLen_steering hu :)
  · exact steering_pollThen _ (fun u => steering_ret u _) s

theorem execTxBeat_steering {s t : State} (h : execTxBeat s = .next t) : t.steering = s.steering := by
  obtain rfl | ⟨_, _, ⟨_, _, rfl⟩ | ⟨_, _, ht⟩⟩ := execTxBeat_next h
  · rfl
  · rfl
  · rw [ht]
    rfl

theorem execRxBeat_steering {s t : State} (h : execRxBeat s = .next t) : t.steering = s.steering := by
  obtain rfl | ⟨_, _, _, _, ⟨_, _, rfl⟩ | ⟨_, rfl⟩⟩ := execRxBeat_next h <;> rfl

/-- No operation of the table writes what steers the machine. -/
theorem exec_steering {i : Instr} {s t : State} (h : exec i s = .next t) : t.steering = s.steering := by
  cases i with
  | kLoadA => obtain rfl | ⟨_, _, _, _, rfl⟩ := execKLoadA_next h <;> rfl
  | kLoadB => obtain rfl | ⟨_, _, _, _, rfl⟩ := execKLoadB_next h <;> rfl
  | kCell => obtain rfl | ⟨_, _, _, rfl⟩ := execKCell_next h <;> rfl
  | kStore => obtain rfl | ⟨_, _, _, _, rfl⟩ := execKStore_next h <;> rfl
  | wrTxStatus v | wrRxStatus v =>
    cases h
    exact steering_writeStatus ..
  | wrTxAddr v | wrRxAddr v => exact writeAddr_steering h
  | wrTxLen v | wrRxLen v => exact writeLen_steering h
  | txBeat => exact execTxBeat_steering h
  | rxBeat => exact execRxBeat_steering h
  | init => exact execInit_steering h
  | disableIrq dir =>
    cases h
    exact steering_writeCtrl ..
  | transmit addr len => exact execTransmit_steering h
  | receive addr len => exact execReceive_steering h
  | offload inbuf outbuf => exact execOffload_steering h
  | _ =>
    cases h
    rfl

/-! ### What no agent writes -/

/-- An operation of the table changes neither a parameter (10_state.md R42) nor the schedule. -/
theorem exec_schedule {i : Instr} {s t : State} (h : exec i s = .next t) :
    t.cfg = s.cfg ∧ t.sched = s.sched ∧ t.tick = s.tick := by
  have hs := exec_steering h
  simp only [State.steering, Prod.mk.injEq] at hs
  obtain ⟨hc, hd, ht, _, _⟩ := hs
  exact ⟨hc, hd, ht⟩

theorem hostWord_schedule {w : OpWord} {s t : State} (h : hostWord w s = .next t) :
    t.cfg = s.cfg ∧ t.sched = s.sched ∧ t.tick = s.tick := by
  obtain ⟨_, _, _, hi⟩ := hostWord_next h
  exact exec_schedule hi

theorem hostOp_schedule {op : HostOp} {s t : State} (h : hostOp op s = .next t) :
    t.cfg = s.cfg ∧ t.sched = s.sched ∧ t.tick = s.tick := by
  obtain ⟨_, hw⟩ | ⟨_, _, u, hw, rfl⟩ | ⟨_, _, _, _, u, _, _, hw, _, rfl⟩ | hrest := hostOp_next h
  · exact hostWord_schedule hw
  · exact (hostWord_schedule hw :)
  · exact (hostWord_schedule hw :)
  · obtain ⟨_, _, rfl⟩ | ⟨_, _, _, rfl⟩ | ⟨_, _, _, rfl⟩ | rfl | ⟨_, rfl⟩ := hrest <;> exact ⟨rfl, rfl, rfl⟩

/-- An agent's step changes neither a parameter nor the schedule. -/
theorem stepAgent_schedule {a : Agent} {s t : State} (h : stepAgent a s = .next t) :
    t.cfg = s.cfg ∧ t.sched = s.sched ∧ t.tick = s.tick := by
  cases a with
  | host =>
    obtain ⟨_, rfl⟩ | ⟨_, _, u, _, hu, rfl⟩ := stepHost_next h
    · exact ⟨rfl, rfl, rfl⟩
    · simpa using hostOp_schedule hu
  | tx => exact exec_schedule (i := .txBeat) ((stepChannel_tx s).symm.trans h)
  | rx => exact exec_schedule (i := .rxBeat) ((stepChannel_rx s).symm.trans h)
  | kernel => exact exec_schedule h

/-- A step leaves the schedule as taking its turn left it. -/
theorem step_sched {s t : State} (h : step s = .next t) : t.sched = (takeTurn s).2.sched := by
  change stepTurn (takeTurn s).1 (takeTurn s).2 = .next t at h
  cases hu : (takeTurn s).1 with
  | agent a =>
    rw [hu] at h
    exact (stepAgent_schedule h).2.1
  | reset =>
    rw [hu] at h
    cases h
    rfl

/-! ### Turns of the free schedule -/

/-- With no turn decided the turn is the first of the next stretch, whose other turns are then decided. -/
theorem takeTurn_free {s : State} (h : s.sched = []) :
    takeTurn s = takeTurn { s with
      sched := (fairStretch (Config.schedule s.tick)).map .agent
      tick := s.tick + 1 } := by
  rw [takeTurn, h]
  rfl

/-! ### Turns of an endless run -/

/-- The turns decided at some time of a run are taken one after the other. -/
theorem EndlessRun.sched_after {r : Nat → State} (hr : EndlessRun r) {l rest : List Turn} {n : Nat}
    (h : (r n).sched = l ++ rest) : (r (n + l.length)).sched = rest := by
  induction l generalizing n with
  | nil => exact h
  | cons u l ih =>
    have hnext : (r (n + 1)).sched = l ++ rest := by
      rw [step_sched (hr n), takeTurn, h]
      rfl
    rw [List.length_cons, Nat.add_comm l.length, ← Nat.add_assoc]
    exact ih hnext

/-- A decided turn is taken. -/
theorem EndlessRun.decided_taken {r : Nat → State} (hr : EndlessRun r) {u : Turn} {n : Nat} (h : u ∈ (r n).sched) :
    ∃ m, n ≤ m ∧ (takeTurn (r m)).1 = u := by
  obtain ⟨l, rest, hl⟩ := List.append_of_mem h
  refine ⟨n + l.length, Nat.le_add_right .., ?_⟩
  rw [takeTurn, hr.sched_after hl]

/-- From a time at which no turn is decided, every agent has a turn. -/
theorem EndlessRun.free_taken {r : Nat → State} (hr : EndlessRun r) {n : Nat} (h : (r n).sched = []) (a : Agent) :
    ∃ m, n ≤ m ∧ (takeTurn (r m)).1 = .agent a := by
  obtain rfl | ha := List.mem_cons.mp (mem_fairStretch (Config.schedule (r n).tick) a)
  · exact ⟨n, le_rfl, by rw [takeTurn_free h]; rfl⟩
  · have hmem : Turn.agent a ∈ (r (n + 1)).sched := by
      rw [step_sched (hr n), takeTurn_free h]
      exact List.mem_map_of_mem ha
    obtain ⟨m, hm, ht⟩ := hr.decided_taken hmem
    exact ⟨m, Nat.le_of_succ_le hm, ht⟩

/-- Every agent has a turn again and again: the decided turns run out, and then a stretch of the free schedule begins. -/
theorem EndlessRun.turn_recurs {r : Nat → State} (hr : EndlessRun r) (a : Agent) (n : Nat) :
    ∃ m, n ≤ m ∧ (takeTurn (r m)).1 = .agent a := by
  have hfree : (r (n + (r n).sched.length)).sched = [] := hr.sched_after (List.append_nil _).symm
  obtain ⟨m, hm, ht⟩ := hr.free_taken hfree a
  exact ⟨m, Nat.le_of_add_right_le hm, ht⟩

/-- Settles O7: a stretch of the free schedule has every agent, and the decided turns of an endless run run out. -/
theorem freeScheduleStepsOneAgent : Obligations.FreeScheduleStepsOneAgent := by
  refine ⟨fun s hs => ?_, fun r hr => ⟨hr.turn_recurs, fun a n _ => hr.turn_recurs a n⟩⟩
  refine ⟨(Config.schedule s.tick).1, (fairStretch (Config.schedule s.tick)).tail,
    fun b => List.mem_cons.mp (mem_fairStretch _ b), ?_⟩
  rw [step, stepMachine, takeTurn_free hs]
  rfl

end Sys2Proof.Machine
end

section
/-! What one operation of the table can do to each part of the state (10_state.md R20 to R41), said once per part. -/

namespace Sys2Proof.Machine

/-! ### A channel -/

/-- Everything an operation `i` can do to channel `c`: the host's register writes (43_transfer_engine.md R192 to R195), where a
procedure writes only 0 to `c_CTRL` (44_host_procedures.md R241, R243), and what a beat leaves (R198, R199, R203). -/
inductive ChannelChange (i : Instr) (c : Chan) (ch : Channel) : Channel → Prop where
  | untouched : ChannelChange i c ch ch
  | enables (v : Word) (hv : i = wrCtrl c v ∨ v = 0#32) :
    ChannelChange i c ch { ch with ieDone := v.getLsbD 0, ieErr := v.getLsbD 1 }
  | doneCleared : ChannelChange i c ch { ch with done := false }
  | addressed (v : Word) (ha : accepts ch = true) : ChannelChange i c ch { ch with addr := v }
  | startFailed (v : Word) (code : BitVec 3) (ha : accepts ch = true) (he : startError ch.addr v = some code) :
    ChannelChange i c ch { ch with len := v, xfer := 0#32, done := false, busy := false, err := true, errcode := code }
  | started (v : Word) (ha : accepts ch = true) (he : startError ch.addr v = none) :
    ChannelChange i c ch { ch with len := v, xfer := 0#32, done := false, busy := true }
  | halted (code : BitVec 3) (hb : ch.busy = true) (hc : code = errDec ∨ code = errSlv) :
    ChannelChange i c ch { ch with busy := false, err := true, errcode := code }
  | counted (hb : ch.busy = true) (hl : lastBeat ch = false) : ChannelChange i c ch { ch with xfer := ch.xfer + 4#32 }
  | completed (hb : ch.busy = true) :
    ChannelChange i c ch { ch with xfer := ch.xfer + 4#32, busy := false, done := true }
  | overrun (hb : ch.busy = true) :
    ChannelChange i c ch { ch with xfer := ch.xfer + 4#32, busy := false, err := true, errcode := errOverrun }

/-- `t` comes from `s` by one access of the host at most: one channel changed, and the host's own fields. -/
def HostAccess (i : Instr) (s t : State) : Prop :=
  ∃ c ch h d, ChannelChange i c (s.chan c) ch ∧ t = { s.setChan c ch with host := h, draws := d }

variable {i : Instr} {c : Chan} {s t : State}

theorem HostAccess.ofHost (h : HostSide) (d : Nat) : HostAccess i s { s with host := h, draws := d } :=
  ⟨.tx, s.tx, h, d, .untouched, rfl⟩

theorem HostAccess.ofChannel {ch : Channel} (hc : ChannelChange i c (s.chan c) ch) : HostAccess i s (s.setChan c ch) :=
  ⟨c, ch, s.host, s.draws, hc, by cases c <;> rfl⟩

theorem HostAccess.withHost (h : HostAccess i s t) (g : HostSide) : HostAccess i s { t with host := g } := by
  obtain ⟨c, ch, _, d, hc, rfl⟩ := h
  exact ⟨c, ch, g, d, hc, rfl⟩

theorem hostAccess_writeCtrl {v : Word} (hv : i = wrCtrl c v ∨ v = 0#32) : HostAccess i s (writeCtrl c v s) :=
  .ofChannel (.enables v hv)

theorem hostAccess_writeStatus (c : Chan) (v : Word) : HostAccess i s (writeStatus c v s) := by
  obtain h | h := writeStatus_cases c v s
  · rw [h]
    exact .ofHost s.host s.draws
  · rw [h]
    exact .ofChannel .doneCleared

theorem hostAccess_of_writeAddr {v : Word} (h : writeAddr c v s = .next t) : HostAccess i s t := by
  obtain ⟨_, ⟨ha, rfl⟩ | ⟨_, rfl⟩⟩ := writeAddr_next h
  · exact .ofChannel (.addressed v ha)
  · exact .ofHost t.host t.draws

theorem hostAccess_of_writeLen {v : Word} (h : writeLen c v s = .next t) : HostAccess i s t := by
  obtain ⟨_, ⟨_, rfl⟩ | ⟨ha, ⟨code, he, rfl⟩ | ⟨he, rfl⟩⟩⟩ := writeLen_next h
  · exact .ofHost t.host t.draws
  · exact .ofChannel (.startFailed v code ha he)
  · exact .ofChannel (.started v ha he)

theorem hostAccess_checkSgThen (c : Chan) (n : Nat) : HostAccess i s (checkSgThen c n s) := by
  rw [checkSgThen_eq]
  split <;> exact .ofHost _ s.draws

theorem hostAccess_pollThen (c : Chan) {goOn : State → State} (hgo : ∀ u, ∃ g, goOn u = { u with host := g }) :
    HostAccess i s (pollThen c goOn s) := by
  rw [pollThen_eq]
  split
  · exact .ofHost _ s.draws
  · split
    · exact .ofHost _ s.draws
    · obtain ⟨g, hg⟩ := hgo (s.bind (readStatus c s))
      rw [hg]
      exact .ofHost g s.draws

theorem execInit_hostAccess (h : execInit s = .next t) : HostAccess i s t := by
  obtain ⟨_, ⟨_, rfl⟩ | ⟨_, rfl⟩⟩ | ⟨_, rfl⟩ | ⟨_, rfl⟩ | ⟨_, rfl⟩ := execInit_next h
  · exact .ofHost _ s.draws
  · exact hostAccess_checkSgThen ..
  · exact hostAccess_checkSgThen ..
  · exact (hostAccess_writeCtrl (.inr rfl)).withHost _
  · exact (hostAccess_writeCtrl (.inr rfl)).withHost _

theorem execTransmit_hostAccess {addr len : Word} (h : execTransmit addr len s = .next t) : HostAccess i s t := by
  obtain ⟨_, u, hu, rfl⟩ | ⟨_, u, hu, rfl⟩ | ⟨_, rfl⟩ := execTransmit_next h
  · exact (hostAccess_of_writeAddr hu).withHost _
  · exact (hostAccess_of_writeLen hu).withHost _
  · exact hostAccess_pollThen _ fun u => ⟨_, rfl⟩

theorem execReceive_hostAccess {addr len : Word} (h : execReceive addr len s = .next t) : HostAccess i s t := by
  obtain ⟨_, u, hu, rfl⟩ | ⟨_, u, hu, rfl⟩ | ⟨_, rfl⟩ := execReceive_next h
  · exact (hostAccess_of_writeAddr hu).withHost _
  · exact (hostAccess_of_writeLen hu).withHost _
  · exact hostAccess_pollThen _ fun u => ⟨_, rfl⟩

theorem execOffload_hostAccess {inbuf outbuf : Word} (h : execOffload inbuf outbuf s = .next t) : HostAccess i s t := by
  obtain ⟨_, u, hu, rfl⟩ | ⟨_, u, hu, rfl⟩ | ⟨_, rfl⟩ | ⟨_, u, hu, rfl⟩ | ⟨_, u, hu, rfl⟩ | ⟨_, rfl⟩ := execOffload_next h
  · exact (hostAccess_of_writeAddr hu).withHost _
  · exact (hostAccess_of_writeLen hu).withHost _
  · exact hostAccess_pollThen _ fun u => ⟨_, rfl⟩
  · exact (hostAccess_of_writeAddr hu).withHost _
  · exact (hostAccess_of_writeLen hu).withHost _
  · exact hostAccess_pollThen _ fun u => ⟨_, rfl⟩

/-- The steps of the kernel and of the channels, which the host cannot perform (44_host_procedures.md R240). -/
def hardwareSteps : List Instr := [.kLoadA, .kLoadB, .kCell, .kStore, .txBeat, .rxBeat]

/-- Every other operation of the table is an access of the host. -/
theorem exec_hostAccess (hi : i ∉ hardwareSteps) (h : exec i s = .next t) : HostAccess i s t := by
  cases i with
  | kLoadA | kLoadB | kCell | kStore | txBeat | rxBeat => simp [hardwareSteps] at hi
  | wrTxCtrl v | wrRxCtrl v =>
    cases h
    exact hostAccess_writeCtrl (.inl rfl)
  | wrTxStatus v | wrRxStatus v =>
    cases h
    exact hostAccess_writeStatus ..
  | wrTxAddr v | wrRxAddr v => exact hostAccess_of_writeAddr h
  | wrTxLen v | wrRxLen v => exact hostAccess_of_writeLen h
  | init => exact execInit_hostAccess h
  | disableIrq dir =>
    cases h
    exact (hostAccess_writeCtrl (.inr rfl)).withHost _
  | transmit addr len => exact execTransmit_hostAccess h
  | receive addr len => exact execReceive_hostAccess h
  | offload inbuf outbuf => exact execOffload_hostAccess h
  | fmul32 a b | fadd32 a b | fma32 a b c | mac acc a b =>
    cases h
    exact .ofHost _ _
  | _ =>
    cases h
    exact .ofHost _ s.draws

/-- An operation of the table is a kernel step, a beat, or an access of the host. -/
theorem exec_next (h : exec i s = .next t) :
    (i = .kLoadA ∧ execKLoadA s = .next t) ∨ (i = .kLoadB ∧ execKLoadB s = .next t) ∨
    (i = .kCell ∧ execKCell s = .next t) ∨ (i = .kStore ∧ execKStore s = .next t) ∨
    (i = .txBeat ∧ execTxBeat s = .next t) ∨ (i = .rxBeat ∧ execRxBeat s = .next t) ∨ HostAccess i s t := by
  cases i with
  | kLoadA | kLoadB | kCell | kStore | txBeat | rxBeat => simpa [exec] using Or.inl h
  | _ => exact .inr (.inr (.inr (.inr (.inr (.inr (exec_hostAccess (by simp [hardwareSteps]) h))))))

/-! ### A beat's channel -/

theorem execTxBeat_channel (h : execTxBeat s = .next t) (c : Chan) : ChannelChange i c (s.chan c) (t.chan c) := by
  obtain rfl | ⟨hb, _, ⟨code, he, rfl⟩ | ⟨_, _, ht⟩⟩ := execTxBeat_next h
  · exact .untouched
  · cases c
    · exact .halted code hb (beatError_code he)
    · exact .untouched
  · rw [ht]
    cases c
    · cases hl : lastBeat s.tx
      · exact .counted hb hl
      · exact .completed hb
    · exact .untouched

theorem execRxBeat_channel (h : execRxBeat s = .next t) (c : Chan) : ChannelChange i c (s.chan c) (t.chan c) := by
  obtain rfl | ⟨hb, w, _, _, ⟨code, he, rfl⟩ | ⟨_, rfl⟩⟩ := execRxBeat_next h
  · exact .untouched
  · cases c
    · exact .untouched
    · exact .halted code hb (beatError_code he)
  · cases c
    · exact .untouched
    · show ChannelChange i .rx s.rx (if w.last then _ else if lastBeat s.rx then _ else _)
      split
      · exact .completed hb
      · split
        · exact .overrun hb
        · rename_i hl
          exact .counted hb (by simpa using hl)

/-! ### What each part of the state can become -/

section
variable (h : exec i s = .next t)
include h

/-- The kernel is left alone, or moves on by its phase's step, which writes its own storage at the sequencer's index. -/
theorem exec_kernel : t.k = s.k ∨
    (i = .kLoadA ∧ s.k.phase = .loadA ∧ ∃ v, t.k = advance s.cfg { s.k with a := insertAt s.k.idx v s.k.a }) ∨
    (i = .kLoadB ∧ s.k.phase = .loadB ∧ ∃ v, t.k = advance s.cfg { s.k with b := insertAt s.k.idx v s.k.b }) ∨
    (i = .kCell ∧ s.k.phase = .compute ∧ ∃ v, t.k = advance s.cfg { s.k with out := insertAt s.k.idx v s.k.out }) ∨
    (i = .kStore ∧ s.k.phase = .store ∧ t.k = advance s.cfg s.k) := by
  obtain ⟨rfl, h⟩ | ⟨rfl, h⟩ | ⟨rfl, h⟩ | ⟨rfl, h⟩ | ⟨rfl, h⟩ | ⟨rfl, h⟩ | ⟨_, _, _, _, _, rfl⟩ := exec_next h
  · obtain rfl | ⟨hp, w, _, _, rfl⟩ := execKLoadA_next h
    · exact .inl rfl
    · exact .inr (.inl ⟨rfl, hp, w.data, rfl⟩)
  · obtain rfl | ⟨hp, w, _, _, rfl⟩ := execKLoadB_next h
    · exact .inl rfl
    · exact .inr (.inr (.inl ⟨rfl, hp, w.data, rfl⟩))
  · obtain rfl | ⟨hp, acc, _, rfl⟩ := execKCell_next h
    · exact .inl rfl
    · exact .inr (.inr (.inr (.inl ⟨rfl, hp, acc.1, rfl⟩)))
  · obtain rfl | ⟨hp, _, _, _, rfl⟩ := execKStore_next h
    · exact .inl rfl
    · exact .inr (.inr (.inr (.inr ⟨rfl, hp, rfl⟩)))
  · obtain rfl | ⟨_, _, ⟨_, _, rfl⟩ | ⟨_, _, ht⟩⟩ := execTxBeat_next h
    · exact .inl rfl
    · exact .inl rfl
    · exact .inl (ht ▸ rfl)
  · obtain rfl | ⟨_, _, _, _, ⟨_, _, rfl⟩ | ⟨_, rfl⟩⟩ := execRxBeat_next h <;> exact .inl rfl
  · exact .inl (setChan_k ..)

/-- `IN` is left alone, gets one word of TX.BEAT at the tail where it has room, or loses its head to a load step. -/
theorem exec_inq : t.inq = s.inq ∨
    (i = .txBeat ∧ hasRoom s.inq s.cfg.inDepth = true ∧ ∃ v l, t.inq = s.inq ++ [encodeWord v l]) ∨
    ((i = .kLoadA ∨ i = .kLoadB) ∧ ∃ w, s.inq = w :: t.inq) := by
  obtain ⟨rfl, h⟩ | ⟨rfl, h⟩ | ⟨rfl, h⟩ | ⟨rfl, h⟩ | ⟨rfl, h⟩ | ⟨rfl, h⟩ | ⟨_, _, _, _, _, rfl⟩ := exec_next h
  · obtain rfl | ⟨_, w, _, hq, rfl⟩ := execKLoadA_next h
    · exact .inl rfl
    · exact .inr (.inr ⟨.inl rfl, w, hq⟩)
  · obtain rfl | ⟨_, w, _, hq, rfl⟩ := execKLoadB_next h
    · exact .inl rfl
    · exact .inr (.inr ⟨.inr rfl, w, hq⟩)
  · obtain rfl | ⟨_, _, _, rfl⟩ := execKCell_next h <;> exact .inl rfl
  · obtain rfl | ⟨_, _, _, _, rfl⟩ := execKStore_next h <;> exact .inl rfl
  · obtain rfl | ⟨_, hr, ⟨_, _, rfl⟩ | ⟨_, hq, _⟩⟩ := execTxBeat_next h
    · exact .inl rfl
    · exact .inl rfl
    · exact .inr (.inl ⟨rfl, hr, _, _, hq⟩)
  · obtain rfl | ⟨_, _, _, _, ⟨_, _, rfl⟩ | ⟨_, rfl⟩⟩ := execRxBeat_next h <;> exact .inl rfl
  · exact .inl (setChan_inq ..)

/-- `OUT` is left alone, gets one word of K.STORE at the tail where it has room, or loses its head to RX.BEAT. -/
theorem exec_outq : t.outq = s.outq ∨
    (i = .kStore ∧ hasRoom s.outq s.cfg.outDepth = true ∧ ∃ v l, t.outq = s.outq ++ [encodeWord v l]) ∨
    (i = .rxBeat ∧ ∃ w, s.outq = w :: t.outq) := by
  obtain ⟨rfl, h⟩ | ⟨rfl, h⟩ | ⟨rfl, h⟩ | ⟨rfl, h⟩ | ⟨rfl, h⟩ | ⟨rfl, h⟩ | ⟨_, _, _, _, _, rfl⟩ := exec_next h
  · obtain rfl | ⟨_, _, _, _, rfl⟩ := execKLoadA_next h <;> exact .inl rfl
  · obtain rfl | ⟨_, _, _, _, rfl⟩ := execKLoadB_next h <;> exact .inl rfl
  · obtain rfl | ⟨_, _, _, rfl⟩ := execKCell_next h <;> exact .inl rfl
  · obtain rfl | ⟨_, hr, v, _, rfl⟩ := execKStore_next h
    · exact .inl rfl
    · exact .inr (.inl ⟨rfl, hr, v, _, rfl⟩)
  · obtain rfl | ⟨_, _, ⟨_, _, rfl⟩ | ⟨_, _, ht⟩⟩ := execTxBeat_next h
    · exact .inl rfl
    · exact .inl rfl
    · exact .inl (ht ▸ rfl)
  · obtain rfl | ⟨_, w, _, hq, ⟨_, _, rfl⟩ | ⟨_, rfl⟩⟩ := execRxBeat_next h
    · exact .inl rfl
    · exact .inl rfl
    · exact .inr (.inr ⟨rfl, w, hq⟩)
  · exact .inl (setChan_outq ..)

/-- Host memory is left alone, or RX.BEAT writes the word at its mapped beat address. -/
theorem exec_mem : t.mem = s.mem ∨
    (i = .rxBeat ∧ mappedWord s.cfg (beatAddr s.rx) = true ∧ ∃ v, t.mem = Memory.writeWord s.mem (beatAddr s.rx) v) := by
  obtain ⟨rfl, h⟩ | ⟨rfl, h⟩ | ⟨rfl, h⟩ | ⟨rfl, h⟩ | ⟨rfl, h⟩ | ⟨rfl, h⟩ | ⟨_, _, _, _, _, rfl⟩ := exec_next h
  · obtain rfl | ⟨_, _, _, _, rfl⟩ := execKLoadA_next h <;> exact .inl rfl
  · obtain rfl | ⟨_, _, _, _, rfl⟩ := execKLoadB_next h <;> exact .inl rfl
  · obtain rfl | ⟨_, _, _, rfl⟩ := execKCell_next h <;> exact .inl rfl
  · obtain rfl | ⟨_, _, _, _, rfl⟩ := execKStore_next h <;> exact .inl rfl
  · obtain rfl | ⟨_, _, ⟨_, _, rfl⟩ | ⟨_, _, ht⟩⟩ := execTxBeat_next h
    · exact .inl rfl
    · exact .inl rfl
    · exact .inl (ht ▸ rfl)
  · obtain rfl | ⟨_, w, _, _, ⟨_, _, rfl⟩ | ⟨hm, rfl⟩⟩ := execRxBeat_next h
    · exact .inl rfl
    · exact .inl rfl
    · exact .inr ⟨rfl, ((beatError_none_iff ..).mp hm).1, w.data, rfl⟩
  · exact .inl (setChan_mem ..)

/-- A channel changes by a register write or a beat. -/
theorem exec_channel (c : Chan) : ChannelChange i c (s.chan c) (t.chan c) := by
  obtain ⟨rfl, h⟩ | ⟨rfl, h⟩ | ⟨rfl, h⟩ | ⟨rfl, h⟩ | ⟨rfl, h⟩ | ⟨rfl, h⟩ | ⟨d, ch, _, _, hc, rfl⟩ := exec_next h
  · obtain rfl | ⟨_, _, _, _, rfl⟩ := execKLoadA_next h <;> exact .untouched
  · obtain rfl | ⟨_, _, _, _, rfl⟩ := execKLoadB_next h <;> exact .untouched
  · obtain rfl | ⟨_, _, _, rfl⟩ := execKCell_next h <;> exact .untouched
  · obtain rfl | ⟨_, _, _, _, rfl⟩ := execKStore_next h <;> exact .untouched
  · exact execTxBeat_channel h c
  · exact execRxBeat_channel h c
  · change ChannelChange i c (s.chan c) ((s.setChan d ch).chan c)
    by_cases hd : c = d
    · subst hd
      rwa [chan_setChan_same]
    · rw [chan_setChan_other s d c ch hd]
      exact .untouched

end

/-! ### The statements about single operations -/

/-- Settles O56: no operation writes what steers the machine, and no agent and no reset a parameter. -/
theorem parametersNeverChange : Obligations.ParametersNeverChange := by
  refine ⟨fun s t h => ?_, fun i s t h => ?_⟩
  · obtain ⟨_, _, rfl | ⟨a, ha⟩⟩ := step_next h
    · rfl
    · exact (stepAgent_schedule ha).1
  · have hs := exec_steering h
    simp only [State.steering, Prod.mk.injEq] at hs
    exact hs.2

/-- Settles O58: a kernel step writes its own storage at the sequencer's index, and no other operation touches the kernel. -/
theorem kernelStorageWriters : Obligations.KernelStorageWriters := by
  intro i s t h
  obtain hk | ⟨rfl, _, v, hk⟩ | ⟨rfl, _, v, hk⟩ | ⟨rfl, _, v, hk⟩ | ⟨rfl, _, hk⟩ := exec_kernel h <;> rw [hk]
  · simp
  · simpa using fun j hj => lookup_insertAt_other v s.k.a hj
  · simpa using fun j hj => lookup_insertAt_other v s.k.b hj
  · simpa using fun j hj => lookup_insertAt_other v s.k.out hj
  · simp

/-- Settles O59: each stream by what an operation can make of it. -/
theorem streamsAreFifo : Obligations.StreamsAreFifo := by
  intro i s t h
  refine ⟨?_, ?_⟩
  · obtain hq | ⟨hi, _, v, l, hq⟩ | ⟨hi, w, hq⟩ := exec_inq h
    · exact .inl hq
    · exact .inr (.inl ⟨hi, _, hq⟩)
    · exact .inr (.inr ⟨hi, w, hq⟩)
  · obtain hq | ⟨hi, _, v, l, hq⟩ | ⟨hi, w, hq⟩ := exec_outq h
    · exact .inl hq
    · exact .inr (.inl ⟨hi, _, hq⟩)
    · exact .inr (.inr ⟨hi, w, hq⟩)

/-- The request line is high exactly where an enabled source has its flag set (10_state.md R40). -/
theorem irq_iff (ch : Channel) : irq ch = true ↔ (ch.ieDone = true ∧ ch.done = true) ∨ (ch.ieErr = true ∧ ch.err = true) := by
  simp [irq]

/-- Only a write of a non-zero enable to the channel's own `c_CTRL` enables a source (60_exceptions.md R263). -/
theorem ChannelChange.enables_stay_low {ch ch' : Channel} (h : ChannelChange i c ch ch') (hd : ch.ieDone = false)
    (he : ch.ieErr = false) (hi : ∀ v, i = wrCtrl c v → v.extractLsb' 0 2 = 0#2) :
    ch'.ieDone = false ∧ ch'.ieErr = false := by
  cases h with
  | enables v hv =>
    have hz : v.extractLsb' 0 2 = 0#2 := hv.elim (hi v) fun h0 => by rw [h0]; rfl
    have h0 : (v.extractLsb' 0 2).getLsbD 0 = false := by rw [hz]; rfl
    have h1 : (v.extractLsb' 0 2).getLsbD 1 = false := by rw [hz]; rfl
    simpa using And.intro h0 h1
  | _ => exact ⟨hd, he⟩

/-- Settles O60: the line is the enabled flags, and a channel's enables stay 0 through every other change. -/
theorem interruptsStayDisabled : Obligations.InterruptsStayDisabled :=
  ⟨irq_iff, fun _ s _ c h hd he => ⟨by simp [irq, hd, he], (exec_channel h c).enables_stay_low hd he⟩⟩

end Sys2Proof.Machine
end

section
/-! Every step keeps the machine's invariant (10_state.md R22 to R41): part by part for an operation of the table, then for the
host's turn, and so for a step of the machine. -/

namespace Sys2Proof.Machine

/-! ### Channels -/

variable {i : Instr} {s t : State}

/-- A multiple of 4 added to a count below a length that is one stays within the length, and does not wrap. -/
theorem toNat_xfer_add_four {ch : Channel} (hl : ch.len.toNat % 4 = 0) (hx : ch.xfer.toNat < ch.len.toNat)
    (hm : ch.xfer.toNat % 4 = 0) : (ch.xfer + 4#32).toNat % 4 = 0 ∧
      (lastBeat ch = false → (ch.xfer + 4#32).toNat < ch.len.toNat) := by
  have hlen : ch.len.toNat < 2 ^ 32 := ch.len.isLt
  have hadd : (ch.xfer + 4#32).toNat = (ch.xfer.toNat + 4) % 2 ^ 32 := BitVec.toNat_add ..
  simp only [lastBeat, decide_eq_false_iff_not]
  omega

/-- A register write and a beat keep the channel's fields consistent (10_state.md R39, 60_exceptions.md R261). -/
theorem ChannelChange.keeps_inv {c : Chan} {ch ch' : Channel} (h : ChannelChange i c ch ch') (hi : Channel.Inv ch) :
    Channel.Inv ch' := by
  obtain ⟨hbusy, herr, hok⟩ := hi
  cases h with
  | untouched => exact ⟨hbusy, herr, hok⟩
  | enables v _ => exact ⟨hbusy, herr, hok⟩
  | doneCleared =>
    refine ⟨fun hb => ?_, fun he => ?_, hok⟩
    · obtain ⟨hne, _, hrest⟩ := hbusy hb
      exact ⟨hne, rfl, hrest⟩
    · obtain ⟨hnb, _, hcode⟩ := herr he
      exact ⟨hnb, rfl, hcode⟩
  | addressed v ha =>
    obtain ⟨hnb, hne⟩ := (accepts_iff ch).mp ha
    simp [Channel.Inv, hnb, hne, hok hne]
  | startFailed v code ha he =>
    obtain rfl | rfl | rfl := startError_code he <;> simp [Channel.Inv]
  | started v ha he =>
    obtain ⟨_, hne⟩ := (accepts_iff ch).mp ha
    obtain ⟨h0, hl, haddr, hsum⟩ := (startError_none_iff ..).mp he
    have hpos : v.toNat ≠ 0 := fun h => h0 (BitVec.eq_of_toNat_eq h)
    exact ⟨fun _ => ⟨hne, rfl, hl, haddr, Nat.pos_of_ne_zero hpos, rfl, hsum⟩,
      fun he => absurd (hne.symm.trans he) Bool.false_ne_true, fun _ => hok hne⟩
  | halted code hb hc =>
    obtain ⟨_, hnd, _⟩ := hbusy hb
    obtain rfl | rfl := hc <;> simp [Channel.Inv, hnd, errDec, errSlv]
  | counted hb hl =>
    obtain ⟨hne, hnd, hlen, haddr, hx, hxm, hsum⟩ := hbusy hb
    obtain ⟨hm, hlt⟩ := toNat_xfer_add_four hlen hx hxm
    exact ⟨fun _ => ⟨hne, hnd, hlen, haddr, hlt hl, hm, hsum⟩, herr, hok⟩
  | completed hb =>
    obtain ⟨hne, _⟩ := hbusy hb
    simp [Channel.Inv, hne, hok hne]
  | overrun hb =>
    obtain ⟨_, hnd, _⟩ := hbusy hb
    simp [Channel.Inv, hnd, errOverrun]

/-! ### Streams -/

theorem canonicalWord_encodeWord (v : Word) (l : Bool) : canonicalWord (encodeWord v l) = true := by
  simp [canonicalWord, encodeWord]

theorem StreamInv.push {q : List StreamWord} {d : Depth} (hq : StreamInv q d) (hr : hasRoom q d = true) (v : Word)
    (l : Bool) : StreamInv (q ++ [encodeWord v l]) d := by
  obtain ⟨hc, _⟩ := hq
  refine ⟨fun w hw => ?_, ?_⟩
  · obtain hw | hw := List.mem_append.mp hw
    · exact hc w hw
    · rw [List.mem_singleton.mp hw]
      exact canonicalWord_encodeWord v l
  · have hroom := (hasRoom_iff q d).mp hr
    cases d with
    | unbounded => trivial
    | bounded extra => simpa [fits] using hroom

theorem StreamInv.pop {w : StreamWord} {q : List StreamWord} {d : Depth} (hq : StreamInv (w :: q) d) : StreamInv q d := by
  obtain ⟨hc, hf⟩ := hq
  refine ⟨fun u hu => hc u (List.mem_cons_of_mem _ hu), ?_⟩
  cases d with
  | unbounded => trivial
  | bounded extra => exact Nat.le_of_succ_le hf

/-! ### Host memory -/

theorem MemInv.writeByte {m : List Host.Cell} {a : Nat} (hm : MemInv m) (ha : a < 2 ^ 32) (v : Byte) :
    MemInv (Memory.writeByte m a v) := by
  obtain ⟨hwf, hlt⟩ := hm
  refine ⟨Memory.wf_writeByte a v hwf, fun e he => ?_⟩
  obtain rfl | he := Memory.mem_writeByte he
  · exact ha
  · exact hlt e he

theorem MemInv.writeWord {c : Config} {m : List Host.Cell} {a : Nat} (hm : MemInv m) (ha : mappedWord c a = true) (v : Word) :
    MemInv (Memory.writeWord m a v) := by
  have hlt (n : Nat) (hn : n < 4) : a + n < 2 ^ 32 := mapped_lt ((mappedWord_iff c a).mp ha n hn)
  exact (((hm.writeByte (hlt 0 (by decide)) _).writeByte (hlt 1 (by decide)) _).writeByte (hlt 2 (by decide)) _).writeByte
    (hlt 3 (by decide)) _

/-! ### The kernel -/

theorem cellsWf.insertAt {c : Config} {l : Cells} {k : Nat} (hl : cellsWf c l) (hk : k < c.n) (v : Word) :
    cellsWf c (insertAt k v l) := by
  obtain ⟨hr, hlt⟩ := hl
  refine ⟨rising_insertAt k v hr, fun e he => ?_⟩
  obtain rfl | he := mem_insertAt he
  · exact hk
  · exact hlt e he

/-- One more cell written at the end of the cells written. -/
theorem written.insertAt {l : Cells} {n : Nat} (hl : written l n) (v : Word) : written (insertAt n v l) (n + 1) := by
  intro j hj
  by_cases hjn : j = n
  · rw [hjn, lookup_insertAt_same]
    rfl
  · rw [lookup_insertAt_other v l hjn]
    exact hl j (by omega)

theorem written_zero (l : Cells) : written l 0 := fun j hj => absurd hj (Nat.not_lt_zero j)

/-- What has been written when phase `p` has done its first `n` elements (42_compute_kernel.md R167). -/
def phaseWritten (c : Config) (k : Kernel) (n : Nat) : Phase → Prop
  | .loadA   => written k.a n
  | .loadB   => written k.a c.n ∧ written k.b n
  | .compute => written k.a c.n ∧ written k.b c.n ∧ written k.out n
  | .store   => written k.out c.n

theorem kernelInv_iff (c : Config) (k : Kernel) :
    Kernel.Inv c k ↔ k.idx < c.n ∧ cellsWf c k.a ∧ cellsWf c k.b ∧ cellsWf c k.out ∧ phaseWritten c k k.idx k.phase := Iff.rfl

/-- A phase that has done all its elements leaves the next one what it reads. -/
theorem phaseWritten_next {c : Config} {k : Kernel} {p : Phase} (h : phaseWritten c k c.n p) :
    phaseWritten c k 0 (nextPhase p) := by
  cases p with
  | loadA => exact ⟨h, written_zero _⟩
  | loadB =>
    obtain ⟨ha, hb⟩ := h
    exact ⟨ha, hb, written_zero _⟩
  | compute =>
    obtain ⟨_, _, ho⟩ := h
    exact ho
  | store => exact written_zero _

/-- The sequencer's move keeps the invariant once the phase has done the element at the index. -/
theorem advance_inv {c : Config} {k : Kernel} (hidx : k.idx < c.n) (ha : cellsWf c k.a) (hb : cellsWf c k.b)
    (ho : cellsWf c k.out) (hw : phaseWritten c k (k.idx + 1) k.phase) : Kernel.Inv c (advance c k) := by
  rw [advance_eq, kernelInv_iff]
  by_cases hl : k.idx + 1 = c.n
  · rw [if_pos hl, if_pos hl]
    exact ⟨Nat.zero_lt_of_lt hidx, ha, hb, ho, phaseWritten_next (hl ▸ hw)⟩
  · rw [if_neg hl, if_neg hl]
    exact ⟨Nat.lt_of_le_of_ne hidx hl, ha, hb, ho, hw⟩

/-- A phase's step does the element at the sequencer's index, and the sequencer moves on. -/
theorem exec_keeps_kernelInv (h : exec i s = .next t) (hk : Kernel.Inv s.cfg s.k) : Kernel.Inv s.cfg t.k := by
  obtain ⟨hidx, ha, hb, ho, hw⟩ := (kernelInv_iff ..).mp hk
  obtain ht | ⟨_, hp, v, ht⟩ | ⟨_, hp, v, ht⟩ | ⟨_, hp, v, ht⟩ | ⟨_, hp, ht⟩ := exec_kernel h
  · rwa [ht]
  all_goals rw [hp] at hw; rw [ht]
  · exact advance_inv hidx (ha.insertAt hidx v) hb ho (hp ▸ hw.insertAt v)
  · obtain ⟨hA, hB⟩ := hw
    exact advance_inv hidx ha (hb.insertAt hidx v) ho (hp ▸ ⟨hA, hB.insertAt v⟩)
  · obtain ⟨hA, hB, hO⟩ := hw
    exact advance_inv hidx ha hb (ho.insertAt hidx v) (hp ▸ ⟨hA, hB, hO.insertAt v⟩)
  · exact advance_inv hidx ha hb ho (hp ▸ hw)

/-! ### The machine without its host -/

/-- The invariant of everything but the host. -/
def State.HardwareInv (s : State) : Prop :=
  s.cfg.wellFormed = true ∧ Kernel.Inv s.cfg s.k ∧ StreamInv s.inq s.cfg.inDepth ∧ StreamInv s.outq s.cfg.outDepth ∧
    (∀ c, Channel.Inv (s.chan c)) ∧ MemInv s.mem

theorem inv_iff (s : State) : s.Inv ↔ s.HardwareInv ∧ HostSide.Inv s.host := by
  constructor
  · rintro ⟨hc, hk, hi, ho, htx, hrx, hm, hh⟩
    refine ⟨⟨hc, hk, hi, ho, fun c => ?_, hm⟩, hh⟩
    cases c
    · exact htx
    · exact hrx
  · rintro ⟨⟨hc, hk, hi, ho, hch, hm⟩, hh⟩
    exact ⟨hc, hk, hi, ho, hch .tx, hch .rx, hm, hh⟩

theorem exec_keeps_hardwareInv (h : exec i s = .next t) (hs : s.HardwareInv) : t.HardwareInv := by
  obtain ⟨hc, hk, hi, ho, hch, hm⟩ := hs
  have hcfg : t.cfg = s.cfg := (exec_schedule h).1
  rw [State.HardwareInv, hcfg]
  refine ⟨hc, exec_keeps_kernelInv h hk, ?_, ?_, fun c => (exec_channel h c).keeps_inv (hch c), ?_⟩
  · obtain hq | ⟨_, hr, v, l, hq⟩ | ⟨_, w, hq⟩ := exec_inq h
    · rwa [hq]
    · rw [hq]
      exact hi.push hr v l
    · exact (hq ▸ hi).pop
  · obtain hq | ⟨_, hr, v, l, hq⟩ | ⟨_, w, hq⟩ := exec_outq h
    · rwa [hq]
    · rw [hq]
      exact ho.push hr v l
    · exact (hq ▸ ho).pop
  · obtain hq | ⟨_, ha, v, hq⟩ := exec_mem h
    · rwa [hq]
    · rw [hq]
      exact hm.writeWord ha v

theorem hardReset_hardwareInv (hs : s.HardwareInv) : (hardReset s).HardwareInv := by
  obtain ⟨hc, ⟨hidx, _⟩, _, _, _, hm⟩ := hs
  have hnil : cellsWf s.cfg [] := ⟨rfl, fun e he => absurd he List.not_mem_nil⟩
  have hempty (d : Depth) : StreamInv [] d := by
    refine ⟨fun w hw => absurd hw List.not_mem_nil, ?_⟩
    cases d <;> simp [fits]
  refine ⟨hc, ⟨Nat.zero_lt_of_lt hidx, hnil, hnil, hnil, written_zero _⟩, hempty _, hempty _, fun c => ?_, hm⟩
  cases c <;> simp [Channel.Inv, Channel.reset]

/-- The host's loads, stores and lines keep the hardware's invariant: they perform operations, write mapped memory, or change the
host alone. -/
theorem hostOp_keeps_hardwareInv {op : HostOp} (h : hostOp op s = .next t) (hs : s.HardwareInv) : t.HardwareInv := by
  have hword {w : OpWord} {u : State} (hw : hostWord w s = .next u) : u.HardwareInv := by
    obtain ⟨_, _, _, hi⟩ := hostWord_next hw
    exact exec_keeps_hardwareInv hi hs
  obtain ⟨_, hw⟩ | ⟨_, _, u, hw, rfl⟩ | ⟨_, _, _, _, u, _, _, hw, _, rfl⟩ | ⟨_, _, rfl⟩ | ⟨_, v, ha, rfl⟩ |
    ⟨_, v, ha, rfl⟩ | rfl | ⟨_, rfl⟩ := hostOp_next h
  · exact hword hw
  · exact (hword hw :)
  · exact (hword hw :)
  · exact hs
  · obtain ⟨hc, hk, hi, ho, hch, hm⟩ := hs
    exact ⟨hc, hk, hi, ho, hch, hm.writeWord ha v⟩
  · obtain ⟨hc, hk, hi, ho, hch, hm⟩ := hs
    exact ⟨hc, hk, hi, ho, hch, hm.writeByte (mapped_lt ha) v⟩
  · exact hs
  · exact hs

/-! ### The host -/

theorem writeStatus_host (c : Chan) (v : Word) (s : State) : (writeStatus c v s).host = s.host := by
  obtain ⟨ch, h⟩ := writeStatus_setChan c v s
  rw [h, setChan_host]

theorem writeAddr_host {c : Chan} {v : Word} (h : writeAddr c v s = .next t) : t.host = s.host := by
  obtain ⟨ch, rfl⟩ := writeAddr_setChan h
  exact setChan_host ..

theorem writeLen_host {c : Chan} {v : Word} (h : writeLen c v s = .next t) : t.host = s.host := by
  obtain ⟨ch, rfl⟩ := writeLen_setChan h
  exact setChan_host ..

theorem pos_pollThen_le {n : Nat} (c : Chan) {goOn : State → State} (hgo : ∀ u, (goOn u).host.pos ≤ n)
    (hs : s.host.pos ≤ n) : (pollThen c goOn s).host.pos ≤ n := by
  rw [pollThen_eq]
  split
  · exact hs
  · split
    · exact Nat.zero_le n
    · exact hgo _

theorem pos_checkSgThen_le (c : Chan) (n : Nat) : (checkSgThen c n s).host.pos ≤ n := by
  rw [checkSgThen_eq]
  split
  · exact Nat.zero_le n
  · exact le_rfl

theorem execInit_pos_le (h : execInit s = .next t) : t.host.pos ≤ 3 := by
  obtain ⟨_, ⟨_, rfl⟩ | ⟨_, rfl⟩⟩ | ⟨_, rfl⟩ | ⟨_, rfl⟩ | ⟨_, rfl⟩ := execInit_next h
  · exact Nat.zero_le 3
  · exact (pos_checkSgThen_le ..).trans (by decide)
  · exact (pos_checkSgThen_le ..).trans (by decide)
  · exact le_rfl
  · exact Nat.zero_le 3

theorem execTransmit_pos_le {addr len : Word} (h : execTransmit addr len s = .next t) (hs : s.host.pos ≤ 2) :
    t.host.pos ≤ 2 := by
  obtain ⟨_, u, _, rfl⟩ | ⟨_, u, _, rfl⟩ | ⟨_, rfl⟩ := execTransmit_next h
  · exact Nat.le_succ 1
  · exact le_rfl
  · exact pos_pollThen_le _ (fun _ => Nat.zero_le 2) hs

theorem execReceive_pos_le {addr len : Word} (h : execReceive addr len s = .next t) (hs : s.host.pos ≤ 2) :
    t.host.pos ≤ 2 := by
  obtain ⟨_, u, _, rfl⟩ | ⟨_, u, _, rfl⟩ | ⟨_, rfl⟩ := execReceive_next h
  · exact Nat.le_succ 1
  · exact le_rfl
  · exact pos_pollThen_le _ (fun _ => Nat.zero_le 2) hs

theorem execOffload_pos_le {inbuf outbuf : Word} (h : execOffload inbuf outbuf s = .next t) (hs : s.host.pos ≤ 5) :
    t.host.pos ≤ 5 := by
  obtain ⟨_, u, _, rfl⟩ | ⟨_, u, _, rfl⟩ | ⟨_, rfl⟩ | ⟨_, u, _, rfl⟩ | ⟨_, u, _, rfl⟩ | ⟨_, rfl⟩ := execOffload_next h
  · exact Nat.le_add_left 1 4
  · exact Nat.le_add_left 2 3
  · exact pos_pollThen_le _ (fun _ => Nat.le_add_left 3 2) hs
  · exact Nat.le_add_left 4 1
  · exact le_rfl
  · exact pos_pollThen_le _ (fun _ => Nat.zero_le 5) hs

theorem exec_host_of_hardwareStep (hi : i ∈ hardwareSteps) (h : exec i s = .next t) : t.host = s.host := by
  cases i with
  | kLoadA => obtain rfl | ⟨_, _, _, _, rfl⟩ := execKLoadA_next h <;> rfl
  | kLoadB => obtain rfl | ⟨_, _, _, _, rfl⟩ := execKLoadB_next h <;> rfl
  | kCell => obtain rfl | ⟨_, _, _, rfl⟩ := execKCell_next h <;> rfl
  | kStore => obtain rfl | ⟨_, _, _, _, rfl⟩ := execKStore_next h <;> rfl
  | txBeat =>
    obtain rfl | ⟨_, _, ⟨_, _, rfl⟩ | ⟨_, _, ht⟩⟩ := execTxBeat_next h
    · rfl
    · rfl
    · rw [ht]
  | rxBeat => obtain rfl | ⟨_, _, _, _, ⟨_, _, rfl⟩ | ⟨_, rfl⟩⟩ := execRxBeat_next h <;> rfl
  | _ => simp [hardwareSteps] at hi

/-- A procedure's access leaves the host at a position of the procedure; no other operation moves it (44_host_procedures.md
R240). -/
theorem exec_pos_le (h : exec i s = .next t) (hs : s.host.pos ≤ procedureStages i) : t.host.pos ≤ procedureStages i := by
  cases i with
  | init => exact execInit_pos_le h
  | transmit addr len => exact execTransmit_pos_le h hs
  | receive addr len => exact execReceive_pos_le h hs
  | offload inbuf outbuf => exact execOffload_pos_le h hs
  | isSg | disableIrq dir =>
    cases h
    exact le_rfl
  | kLoadA | kLoadB | kCell | kStore | txBeat | rxBeat => rwa [exec_host_of_hardwareStep (by simp [hardwareSteps]) h]
  | wrTxStatus v | wrRxStatus v =>
    cases h
    rwa [writeStatus_host]
  | wrTxAddr v | wrRxAddr v => rwa [writeAddr_host h]
  | wrTxLen v | wrRxLen v => rwa [writeLen_host h]
  | _ =>
    cases h
    exact hs

/-- An operation the host performs leaves its queue and its names, and a position of the operation's own. -/
theorem hostWord_host {w : OpWord} (h : hostWord w s = .next t) :
    t.host.queue = s.host.queue ∧ t.host.env = s.host.env ∧ (s.host.pos ≤ wordStages w → t.host.pos ≤ wordStages w) := by
  obtain ⟨_, i, hi, hx⟩ := hostWord_next h
  have hs := exec_steering hx
  simp only [State.steering, Prod.mk.injEq] at hs
  obtain ⟨_, _, _, hq, he⟩ := hs
  rw [wordStages, hi]
  exact ⟨hq, he, exec_pos_le hx⟩

theorem procedureStages_of_decodeRead {reg : BitVec 6} (h : decodeRead reg = .ok i) : procedureStages i = 0 := by
  unfold decodeRead at h
  split at h <;> cases h <;> rfl

theorem procedureStages_of_decodeWrite {reg : BitVec 6} {v : Word} (h : decodeWrite reg v = .ok i) :
    procedureStages i = 0 := by
  unfold decodeWrite at h
  split at h <;> cases h <;> rfl

theorem wordStages_encodeRead (reg : BitVec 6) : wordStages (encodeRead reg) = 0 := by
  rw [wordStages, decode_encodeRead]
  cases h : decodeRead reg with
  | error e => rfl
  | ok i => exact procedureStages_of_decodeRead h

theorem wordStages_encodeWrite (reg : BitVec 6) (v : Word) : wordStages (encodeWrite reg v) = 0 := by
  rw [wordStages, decode_encodeWrite]
  cases h : decodeWrite reg v with
  | error e => rfl
  | ok i => exact procedureStages_of_decodeWrite h

theorem HostSide.inv_cons {g : HostSide} {op : HostOp} {q : List HostOp} (hq : g.queue = op :: q) :
    HostSide.Inv g ↔ rising g.env = true ∧ g.pos ≤ hostStages g.env op := by
  simp [HostSide.Inv, hq]

theorem HostSide.inv_of_pos_zero {g : HostSide} (he : rising g.env = true) (hp : g.pos = 0) : HostSide.Inv g := by
  refine ⟨he, ?_⟩
  rw [hp]
  exact Nat.zero_le _

/-- An operation without positions is made at position 0 and leaves the host there. -/
theorem hostWord_keeps_pos_zero {w : OpWord} (hw : wordStages w = 0) (h : hostWord w s = .next t)
    (he : rising s.host.env = true) (hp : s.host.pos = 0) : rising t.host.env = true ∧ t.host.pos = 0 := by
  obtain ⟨_, henv, hpos⟩ := hostWord_host h
  rw [hw, hp] at hpos
  exact ⟨henv ▸ he, Nat.le_zero.mp (hpos le_rfl)⟩

theorem HostSide.inv_bindName (x : Nat) (he : rising s.host.env = true) (hp : s.host.pos = 0) :
    HostSide.Inv (s.bindName x).host :=
  inv_of_pos_zero (rising_insertAt x s.host.x he) hp

/-- An operation that the host performs by a packed form, and stays at or leaves. -/
theorem hostWord_keeps_hostInv {op : HostOp} {q : List HostOp} {w : OpWord} (hq : s.host.queue = op :: q)
    (hi : HostSide.Inv s.host) (hw : hostStages s.host.env op = wordStages w) (h : hostWord w s = .next t) :
    HostSide.Inv t.host := by
  obtain ⟨he, hp⟩ := (HostSide.inv_cons hq).mp hi
  obtain ⟨hqueue, henv, hpos⟩ := hostWord_host h
  rw [HostSide.inv_cons (hqueue.trans hq), henv, hw]
  exact ⟨he, hpos (hw ▸ hp)⟩

theorem hostOp_keeps_hostInv {op : HostOp} {q : List HostOp} (hq : s.host.queue = op :: q) (hi : HostSide.Inv s.host)
    (h : hostOp op s = .next t) : HostSide.Inv t.host := by
  obtain ⟨he, hp⟩ := (HostSide.inv_cons hq).mp hi
  cases op with
  | op w => exact hostWord_keeps_hostInv hq hi rfl h
  | wr reg v =>
    obtain ⟨w, _, h⟩ := withValue_next h
    exact hostWord_keeps_hostInv hq hi (wordStages_encodeWrite ..).symm h
  | rd x reg =>
    obtain ⟨u, hu, rfl⟩ := nameResult_next h
    obtain ⟨he, hp⟩ := hostWord_keeps_pos_zero (wordStages_encodeRead reg) hu he (Nat.le_zero.mp hp)
    exact HostSide.inv_bindName x he hp
  | poll x reg mask want =>
    obtain ⟨u, m, w, hu, _, _, rfl⟩ := hostPoll_next h
    obtain ⟨hqueue, henv, _⟩ := hostWord_host hu
    refine (HostSide.inv_cons (g := ((u.bindName x).atPos _).host) (hqueue.trans hq)).mpr
      ⟨rising_insertAt x u.host.x (henv ▸ he), ?_⟩
    change (if _ then 0 else 1) ≤ 1
    split <;> decide
  | st a v =>
    obtain ⟨b, _, h⟩ := withValue_next h
    obtain ⟨w, _, h⟩ := withValue_next h
    obtain h | ⟨_, rfl⟩ := hostStore_next h
    · exact hostWord_keeps_hostInv hq hi (wordStages_encodeWrite ..).symm h
    · exact hi
  | ld x a =>
    obtain ⟨b, _, h⟩ := withValue_next h
    obtain ⟨u, hu, rfl⟩ := nameResult_next h
    obtain hu | rfl := hostLoad_next hu
    · obtain ⟨he, hp⟩ := hostWord_keeps_pos_zero (wordStages_encodeRead _) hu he (Nat.le_zero.mp hp)
      exact HostSide.inv_bindName x he hp
    · exact HostSide.inv_bindName x he (Nat.le_zero.mp hp)
  | stByte a v =>
    obtain ⟨b, _, h⟩ := withValue_next h
    obtain ⟨w, _, h⟩ := withValue_next h
    obtain ⟨_, rfl⟩ := hostStoreByte_next h
    exact hi
  | ldByte x a =>
    obtain ⟨b, _, h⟩ := withValue_next h
    obtain ⟨u, hu, rfl⟩ := nameResult_next h
    obtain rfl := hostLoadByte_next hu
    exact HostSide.inv_bindName x he (Nat.le_zero.mp hp)
  | call p args =>
    obtain ⟨ws, hws, h⟩ := withBound_next h
    exact hostWord_keeps_hostInv hq hi (by rw [hostStages, hws]) h
  | failIf c kind =>
    obtain rfl | ⟨r, rfl⟩ := failIf_next h
    · exact hi
    · exact HostSide.inv_of_pos_zero he rfl

/-- The queue moves on only at position 0, which every operation may have. -/
theorem retire_hostInv (hi : HostSide.Inv s.host) : HostSide.Inv (retire s).host := by
  unfold retire
  split
  · rename_i hp
    obtain ⟨he, _⟩ := hi
    exact HostSide.inv_of_pos_zero he hp
  · exact hi

/-! ### A step of the machine -/

theorem retire_hardwareInv (hs : s.HardwareInv) : (retire s).HardwareInv := by
  unfold retire
  split <;> exact hs

theorem stepHost_keeps_inv (h : stepHost s = .next t) (hs : s.Inv) : t.Inv := by
  obtain ⟨_, rfl⟩ | ⟨op, q, u, hq, hu, rfl⟩ := stepHost_next h
  · exact hs
  · obtain ⟨hw, hh⟩ := (inv_iff s).mp hs
    exact (inv_iff _).mpr
      ⟨retire_hardwareInv (hostOp_keeps_hardwareInv hu hw), retire_hostInv (hostOp_keeps_hostInv hq hh hu)⟩

theorem hardwareStep_keeps_inv (hi : i ∈ hardwareSteps) (h : exec i s = .next t) (hs : s.Inv) : t.Inv := by
  obtain ⟨hw, hh⟩ := (inv_iff s).mp hs
  refine (inv_iff t).mpr ⟨exec_keeps_hardwareInv h hw, ?_⟩
  rwa [exec_host_of_hardwareStep hi h]

theorem decodeKstep_mem_hardwareSteps (p : Phase) : decodeKstep (phaseCode p) ∈ hardwareSteps := by
  cases p <;> decide

theorem stepAgent_keeps_inv {a : Agent} (h : stepAgent a s = .next t) (hs : s.Inv) : t.Inv := by
  cases a with
  | host => exact stepHost_keeps_inv h hs
  | tx => exact hardwareStep_keeps_inv (i := .txBeat) (by decide) ((stepChannel_tx s).symm.trans h) hs
  | rx => exact hardwareStep_keeps_inv (i := .rxBeat) (by decide) ((stepChannel_rx s).symm.trans h) hs
  | kernel => exact hardwareStep_keeps_inv (decodeKstep_mem_hardwareSteps s.k.phase) h hs

theorem hardReset_inv (hs : s.Inv) : (hardReset s).Inv := by
  obtain ⟨hw, hh⟩ := (inv_iff s).mp hs
  exact (inv_iff _).mpr ⟨hardReset_hardwareInv hw, hh⟩

/-- Settles O55: taking a turn touches only the schedule, and every agent's step and the reset keep the invariant. -/
theorem stepKeepsInvariant : Obligations.StepKeepsInvariant := by
  intro s t hs h
  obtain ⟨sched, tick, rfl | ⟨a, ha⟩⟩ := step_next h
  · exact hardReset_inv hs
  · exact stepAgent_keeps_inv ha hs

end Sys2Proof.Machine
end

section
/-! What the platform's reset leaves (10_state.md R43), and the register accesses that are refused (10_state.md R38). -/

namespace Sys2Proof.Machine

/-- The state of a reset's turn: a decided one, which the platform takes. -/
theorem step_reset {s : State} {rest : List Turn} (h : s.sched = .reset :: rest) :
    step s = .next (hardReset { s with sched := rest }) := by
  rw [step, stepMachine, takeTurn, h]
  rfl

theorem hardReset_chan (s : State) (c : Chan) : (hardReset s).chan c = Channel.reset := by
  cases c <;> rfl

/-- Settles O53: the turn is the reset, whose state has the reset values field by field. -/
theorem resetValues : Obligations.ResetValues := by
  intro s rest h
  refine ⟨_, step_reset h, rfl, rfl, fun _ => ⟨rfl, rfl, rfl⟩, rfl, rfl, fun c => ?_, rfl, rfl, rfl, rfl⟩
  rw [hardReset_chan]
  decide

/-! ### Register accesses of another form -/

/-- Bits 33:32 of a transaction are its offset modulo 4. -/
theorem toNat_offset_mod_four (bits : BitVec 39) : (bits.extractLsb' 32 6).toNat % 4 = (bits.extractLsb' 32 2).toNat := by
  simp only [BitVec.extractLsb'_toNat]
  omega

theorem hostWord_refused {w : OpWord} {e : DecodeError} (hs : hostSelects w = true) (h : decode w = .error e) (s : State) :
    hostWord w s = .refused (refusalOf e) := by
  rw [hostWord, if_pos hs, h]

section
variable {reg : BitVec 6} (h : reg.toNat % 4 ≠ 0)
include h

theorem hostWord_read_misaligned (s : State) : hostWord (encodeRead reg) s = .refused .registerAccessForm :=
  hostWord_refused (w := encodeRead reg) rfl ((decode_encodeRead reg).trans (decodeRead_misaligned h)) s

theorem hostWord_write_misaligned (v : Word) (s : State) :
    hostWord (encodeWrite reg v) s = .refused .registerAccessForm :=
  hostWord_refused (w := encodeWrite reg v) rfl ((decode_encodeWrite reg v).trans (decodeWrite_misaligned v h)) s

end

theorem hostWord_bus_misaligned {bits : BitVec 39} (h : bits.extractLsb' 32 2 ≠ 0#2) (s : State) :
    hostWord (.bus bits) s = .refused .registerAccessForm := by
  have hoff : (bits.extractLsb' 32 6).toNat % 4 ≠ 0 := by
    rw [toNat_offset_mod_four]
    exact fun h0 => h (BitVec.eq_of_toNat_eq h0)
  refine hostWord_refused (w := .bus bits) (e := .misalignedOffset) rfl ?_ s
  rw [decode, decodeBus]
  split
  · exact decodeWrite_misaligned _ hoff
  · exact decodeRead_misaligned hoff

theorem inRegisterBlock_iff (c : Config) (a : Nat) :
    inRegisterBlock c a = true ↔ btcBase c ≤ a ∧ a < btcBase c + 0x40 := by
  simp [inRegisterBlock]

theorem touchesRegisterBlock_iff (c : Config) (a : Nat) :
    touchesRegisterBlock c a = true ↔ ∃ n < 4, inRegisterBlock c (a + n) = true := by
  simp only [touchesRegisterBlock, Bool.or_eq_true]
  constructor
  · rintro (((h | h) | h) | h)
    · exact ⟨0, by decide, h⟩
    · exact ⟨1, by decide, h⟩
    · exact ⟨2, by decide, h⟩
    · exact ⟨3, by decide, h⟩
  · rintro ⟨n, hn, h⟩
    match n, hn with
    | 0, _ => exact .inl (.inl (.inl h))
    | 1, _ => exact .inl (.inl (.inr h))
    | 2, _ => exact .inl (.inr h)
    | 3, _ => exact .inr h

/-- The block is 64-byte aligned, so an offset in it is a multiple of 4 where its address is. -/
theorem toNat_blockOffset_mod_four {c : Config} {a : Word} (h : btcBase c ≤ a.toNat) :
    (blockOffset c a).toNat % 4 = a.toNat % 4 := by
  simp only [blockOffset, BitVec.toNat_ofNat, btcBase] at h ⊢
  omega

section
variable {s : State} {a : Word} (ha : a.toNat % 4 ≠ 0) (ht : touchesRegisterBlock s.cfg a.toNat = true)
include ha

/-- An address in the block that is no multiple of 4 is no register's. -/
theorem blockOffset_misaligned (hb : inRegisterBlock s.cfg a.toNat = true) : (blockOffset s.cfg a).toNat % 4 ≠ 0 := by
  rwa [toNat_blockOffset_mod_four ((inRegisterBlock_iff ..).mp hb).1]

include ht

theorem hostLoad_misaligned : hostLoad a s = .refused .registerAccessForm := by
  by_cases hb : inRegisterBlock s.cfg a.toNat = true
  · rw [hostLoad, if_pos hb, hostWord_read_misaligned (blockOffset_misaligned ha hb)]
  · rw [hostLoad, if_neg hb, if_pos ht]

theorem hostStore_misaligned (v : Word) : hostStore a v s = .refused .registerAccessForm := by
  by_cases hb : inRegisterBlock s.cfg a.toNat = true
  · rw [hostStore, if_pos hb, hostWord_write_misaligned (blockOffset_misaligned ha hb)]
  · rw [hostStore, if_neg hb, if_pos ht]

end

/-- Settles O36: each form comes to a misaligned offset, or to an address that touches the block in another way. -/
theorem oddRegisterAccessRefused : Obligations.OddRegisterAccessRefused := by
  intro s bits reg a v x
  refine ⟨fun h => hostWord_bus_misaligned h s, fun h => ⟨hostWord_write_misaligned h v s, ?_, fun mask want => ?_⟩,
    fun ha ⟨n, hn, hin⟩ => ?_, fun hlo hhi => ?_⟩
  · rw [hostOp, hostWord_read_misaligned h]
    rfl
  · rw [hostOp, hostPoll, hostWord_read_misaligned h]
    rfl
  · have ht : touchesRegisterBlock s.cfg a.toNat = true :=
      (touchesRegisterBlock_iff ..).mpr ⟨n, hn, (inRegisterBlock_iff ..).mpr hin⟩
    refine ⟨?_, hostStore_misaligned ha ht v⟩
    rw [hostOp, withValue_num, hostLoad_misaligned ha ht]
    rfl
  · have hb : inRegisterBlock s.cfg a.toNat = true := (inRegisterBlock_iff ..).mpr ⟨hlo, hhi⟩
    refine ⟨?_, if_pos hb⟩
    rw [hostOp, withValue_num, hostLoadByte, if_pos hb]
    rfl

end Sys2Proof.Machine
end

section
/-! Host memory: the bytes of a word (20_memory.md R61), and which operation of the table writes them (R60, R66). -/

namespace Sys2Proof.Machine

/-- Byte `n` of a word read (20_memory.md R61). -/
theorem Memory.extractLsb'_readWord (m : List Host.Cell) (a : Nat) {n : Nat} (hn : n < 4) :
    (Memory.readWord m a).extractLsb' (8 * n) 8 = Memory.readByte m (a + n) := by
  rw [Memory.readWord, BitVec.extractLsb'_cast]
  match n, hn with
  | 0, _ => exact BitVec.extractLsb'_append_eq_right
  | 1, _ =>
    rw [BitVec.extractLsb'_append_eq_of_le (by decide)]
    exact BitVec.extractLsb'_append_eq_right
  | 2, _ =>
    rw [BitVec.extractLsb'_append_eq_of_le (by decide), BitVec.extractLsb'_append_eq_of_le (by decide)]
    exact BitVec.extractLsb'_append_eq_right
  | 3, _ =>
    rw [BitVec.extractLsb'_append_eq_of_le (by decide), BitVec.extractLsb'_append_eq_of_le (by decide)]
    exact BitVec.extractLsb'_append_eq_left

/-- Settles O51: a byte of a word written or read is one of its four byte accesses. -/
theorem littleEndianMemory : Obligations.LittleEndianMemory := fun m a v h =>
  ⟨Memory.wf_writeWord a v h, fun _ hn => Memory.readByte_writeWord_inside a v h hn,
    fun _ hb => Memory.readByte_writeWord_outside m v hb, fun _ hn => Memory.extractLsb'_readWord m a hn⟩

/-- Settles O57: what an operation can make of host memory is nothing, or RX.BEAT's word write at its beat address. -/
theorem onlyRxBeatWritesMemory : Obligations.OnlyRxBeatWritesMemory := by
  intro i s t h
  obtain hm | ⟨rfl, _, v, hm⟩ := exec_mem h
  · exact ⟨fun _ => hm, fun b _ => by rw [hm]⟩
  · refine ⟨fun hi => absurd rfl hi, fun b hb => ?_⟩
    rw [hm]
    exact Memory.readByte_writeWord_outside s.mem v hb

end Sys2Proof.Machine
end

section
/-! The decoder and the encoder (30_encoding.md R90 to R103): each is the other's inverse, and which packed forms are decoded. -/

namespace Sys2Proof

/-! ### A packed form is put together from its own fields -/

theorem ofBool_getLsbD {n : Nat} (x : BitVec n) (i : Nat) : BitVec.ofBool (x.getLsbD i) = x.extractLsb' i 1 := by
  ext j hj
  obtain rfl : j = 0 := by omega
  simp

theorem packBus_fields (bits : BitVec 39) :
    packBus (bits.getLsbD 38) (bits.extractLsb' 32 6) (bits.extractLsb' 0 32) = bits := by
  simp (disch := decide) only [packBus, ofBool_getLsbD, BitVec.extractLsb'_append_extractLsb'_eq_extractLsb']
  exact BitVec.extractLsb'_eq_self

/-- Without its data bits a transaction is packed from `rw` and `offset` alone (30_encoding.md R96). -/
theorem bus_mask (bits : BitVec 39) :
    bits &&& 0x7F00000000#39 = packBus (bits.getLsbD 38) (bits.extractLsb' 32 6) 0#32 := by
  rw [← packBus_mask _ _ (bits.extractLsb' 0 32), packBus_fields]

@[simp] theorem pack_unpackStream (bits : BitVec 51) : packStream (unpackStream bits) = bits := by
  simp (disch := decide) only [packStream, unpackStream, ofBool_getLsbD,
    BitVec.extractLsb'_append_extractLsb'_eq_extractLsb']
  exact BitVec.extractLsb'_eq_self

/-- A packed stream word is determined by its end-of-frame bit, its side bits and its payload. -/
theorem sw_ext {x y : BitVec 51} (hlast : x.getLsbD 50 = y.getLsbD 50)
    (hside : x.extractLsb' 32 18 = y.extractLsb' 32 18) (hdata : x.extractLsb' 0 32 = y.extractLsb' 0 32) : x = y := by
  have parts (z : BitVec 51) :
      (BitVec.ofBool (z.getLsbD 50) ++ z.extractLsb' 32 18 ++ z.extractLsb' 0 32 : BitVec (1 + 18 + 32)) = z := by
    simp (disch := decide) only [ofBool_getLsbD, BitVec.extractLsb'_append_extractLsb'_eq_extractLsb']
    exact BitVec.extractLsb'_eq_self
  rw [← parts x, ← parts y, hlast, hside, hdata]

/-- A canonical packed word is the one `ENCODE` produces from its payload and end-of-frame bit (30_encoding.md R93). -/
theorem packStream_of_canonicalSide {bits : BitVec 51} (h : canonicalSide bits = true) :
    packStream ⟨bits.extractLsb' 0 32, 0xF#4, 0#4, 0#5, 0#5, bits.getLsbD 50⟩ = bits := by
  refine sw_ext (packStream_last _) ?_ (packStream_data _)
  exact (eq_of_beq (canonicalSide_produced _ _)).trans (eq_of_beq h).symm

/-! ### Decoding what was encoded -/

/-- The fields of a packed stream word and of a packed transaction are read back; the other forms carry their operands as
they are. -/
@[simp] theorem decode_encode (i : Instr) : decode (encode i) = .ok i := by
  cases i with
  | encode v l =>
    rw [encode, decode, decodeSw, if_pos (canonicalSide_produced v l), packStream_data, packStream_last]
  | decode w => rw [encode, decode, decodeSw, unpack_packStream]
  | rdTxCtrl | rdTxStatus | rdTxAddr | rdTxLen | rdTxXfer | rdRxCtrl | rdRxStatus | rdRxAddr | rdRxLen | rdRxXfer
  | rdRsvd14 | rdRsvd18 | rdRsvd1C | rdRsvd34 | rdRsvd38 | rdRsvd3C => exact decode_encodeRead _
  | wrTxCtrl v | wrTxStatus v | wrTxAddr v | wrTxLen v | wrTxXfer v | wrRxCtrl v | wrRxStatus v | wrRxAddr v | wrRxLen v
  | wrRxXfer v | wrRsvd14 v | wrRsvd18 v | wrRsvd1C v | wrRsvd34 v | wrRsvd38 v | wrRsvd3C v =>
    exact decode_encodeWrite _ v
  | disableIrq dir => cases dir <;> rfl
  | _ => rfl

/-- Settles O1: the decoder inverts the encoder on every operation. -/
theorem decodeEncodeRoundTrip : Obligations.DecodeEncodeRoundTrip := fun i _ => decode_encode i

/-! ### Encoding what was decoded, format by format -/

theorem encode_of_decodeRead {offset : BitVec 6} {i : Instr} (h : decodeRead offset = .ok i) :
    encode i = encodeRead offset := by
  unfold decodeRead at h
  split at h <;> cases h <;> rfl

theorem encode_of_decodeWrite {offset : BitVec 6} {v : Word} {i : Instr} (h : decodeWrite offset v = .ok i) :
    encode i = encodeWrite offset v := by
  unfold decodeWrite at h
  split at h <;> cases h <;> rfl

/-- A write is packed again as it was; a read with its data bits 0. -/
theorem encode_of_decodeBus {bits : BitVec 39} {i : Instr} (h : decodeBus bits = .ok i) :
    encode i = .bus bits ∨ (bits.getLsbD 38 = false ∧ encode i = .bus (bits &&& 0x7F00000000#39)) := by
  unfold decodeBus at h
  split at h
  · rename_i hrw
    have hpack := packBus_fields bits
    rw [hrw] at hpack
    exact .inl ((encode_of_decodeWrite h).trans (congrArg OpWord.bus hpack))
  · rename_i hrw
    rw [Bool.not_eq_true] at hrw
    rw [bus_mask, hrw]
    exact .inr ⟨rfl, encode_of_decodeRead h⟩

theorem encode_of_decodeSw {use : CodecUse} {bits : BitVec 51} {i : Instr} (h : decodeSw use bits = .ok i) :
    encode i = .sw use bits := by
  cases use with
  | produced =>
    rw [decodeSw] at h
    split at h
    · rename_i hc
      cases h
      rw [encode, packStream_of_canonicalSide hc]
    · cases h
  | accepted =>
    cases h
    rw [encode, pack_unpackStream]

theorem encode_decodeKstep (code : BitVec 2) : encode (decodeKstep code) = .kstep code := by
  revert code
  decide

theorem encode_of_decodeChstep {c : Chan} {busy : BitVec 1} {i : Instr} (h : decodeChstep c busy = .ok i) :
    encode i = .chstep c busy := by
  unfold decodeChstep at h
  split at h
  · rename_i hb
    subst hb
    cases c <;> cases h <;> rfl
  · cases h

theorem encode_of_decodePrim {p : Prim} {args : List Word} {i : Instr} (h : decodePrim p args = .ok i) :
    encode i = .prim p args := by
  unfold decodePrim at h
  split at h <;> cases h <;> rfl

/-- The direction word of `DISABLE_IRQ` is 0 for TX and 1 for RX. -/
theorem decodePseudo_disableIrq_iff (dir : Word) (i : Instr) :
    decodePseudo .disableIrq [dir] = .ok i ↔ (dir = 0#32 ∧ i = .disableIrq .tx) ∨ (dir = 1#32 ∧ i = .disableIrq .rx) := by
  by_cases h0 : dir = 0#32
  · simp [decodePseudo, h0, eq_comm]
  · by_cases h1 : dir = 1#32 <;> simp [decodePseudo, h0, h1, eq_comm]

theorem encode_of_decodePseudo {p : Proc} {args : List Word} {i : Instr} (h : decodePseudo p args = .ok i) :
    encode i = .pseudo p args := by
  have hdir := h
  unfold decodePseudo at h
  split at h
  case h_3 dir => obtain ⟨rfl, rfl⟩ | ⟨rfl, rfl⟩ := (decodePseudo_disableIrq_iff dir i).mp hdir <;> rfl
  all_goals cases h <;> rfl

/-- Settles O3: in every format but the read the packed form is rebuilt from the fields the decoder took. -/
theorem encodeOfDecodedWord : Obligations.EncodeOfDecodedWord := by
  intro w i h
  cases w with
  | sw use bits => exact .inl (encode_of_decodeSw h)
  | bus bits => exact (encode_of_decodeBus h).imp_right fun hread => ⟨bits, rfl, hread⟩
  | kstep code =>
    cases h
    exact .inl (encode_decodeKstep code)
  | chstep c busy => exact .inl (encode_of_decodeChstep h)
  | prim p args => exact .inl (encode_of_decodePrim h)
  | pseudo p args => exact .inl (encode_of_decodePseudo h)

/-- Settles O4: the decoder evaluated on the eleven words. -/
theorem specWordsDecode : Obligations.SpecWordsDecode := by
  unfold Obligations.SpecWordsDecode
  decide

/-! ### Which packed forms are decoded, format by format -/

theorem exists_four_mul {offset : BitVec 6} (h : offset.toNat % 4 = 0) :
    ∃ k : Fin 16, offset = BitVec.ofNat 6 (4 * k) := by
  revert offset
  decide

/-- Every word of the register block is a register, reserved ones included (43_transfer_engine.md R197). -/
theorem aligned_offset_selects {offset : BitVec 6} (v : Word) (h : offset.toNat % 4 = 0) :
    (∃ i, decodeRead offset = .ok i) ∧ ∃ i, decodeWrite offset v = .ok i := by
  obtain ⟨k, rfl⟩ := exists_four_mul h
  fin_cases k <;> exact ⟨⟨_, rfl⟩, ⟨_, rfl⟩⟩

theorem decodeBus_ok_iff (bits : BitVec 39) : (∃ i, decodeBus bits = .ok i) ↔ (OpWord.bus bits).wellFormed = true := by
  have hmod : (bits.extractLsb' 32 6).toNat % 4 = 0 ↔ (OpWord.bus bits).wellFormed = true := by
    rw [Machine.toNat_offset_mod_four, OpWord.wellFormed, beq_iff_eq]
    exact BitVec.toNat_inj (y := 0#2)
  rw [← hmod, decodeBus]
  constructor
  · rintro ⟨i, h⟩
    by_contra hoff
    rw [decodeRead_misaligned hoff, decodeWrite_misaligned _ hoff, ite_self] at h
    cases h
  · intro hoff
    obtain ⟨hread, hwrite⟩ := aligned_offset_selects (bits.extractLsb' 0 32) hoff
    split
    · exact hwrite
    · exact hread

theorem decodeSw_ok_iff (use : CodecUse) (bits : BitVec 51) :
    (∃ i, decodeSw use bits = .ok i) ↔ (OpWord.sw use bits).wellFormed = true := by
  cases use with
  | produced => cases hc : canonicalSide bits <;> simp [decodeSw, OpWord.wellFormed, hc]
  | accepted => simp [decodeSw, OpWord.wellFormed]

theorem decodeChstep_ok_iff (c : Chan) (busy : BitVec 1) :
    (∃ i, decodeChstep c busy = .ok i) ↔ (OpWord.chstep c busy).wellFormed = true := by
  by_cases hb : busy = 1#1
  · cases c <;> simp [decodeChstep, OpWord.wellFormed, hb]
  · simp [decodeChstep, OpWord.wellFormed, hb]

theorem decodePrim_ok_iff (p : Prim) (args : List Word) :
    (∃ i, decodePrim p args = .ok i) ↔ (OpWord.prim p args).wellFormed = true := by
  rw [OpWord.wellFormed, beq_iff_eq]
  constructor
  · rintro ⟨i, h⟩
    unfold decodePrim at h
    split at h <;> cases h <;> rfl
  · intro h
    cases p with
    | fmul32 | fadd32 =>
      obtain ⟨a, b, rfl⟩ := List.length_eq_two.mp h
      exact ⟨_, rfl⟩
    | fma32 | mac =>
      obtain ⟨a, b, c, rfl⟩ := List.length_eq_three.mp h
      exact ⟨_, rfl⟩

theorem decodePseudo_ok_iff (p : Proc) (args : List Word) :
    (∃ i, decodePseudo p args = .ok i) ↔ (OpWord.pseudo p args).wellFormed = true := by
  constructor
  · rintro ⟨i, h⟩
    have hdir := h
    unfold decodePseudo at h
    split at h
    case h_3 dir => obtain ⟨rfl, _⟩ | ⟨rfl, _⟩ := (decodePseudo_disableIrq_iff dir i).mp hdir <;> rfl
    all_goals cases h <;> rfl
  · intro h
    rw [OpWord.wellFormed, Bool.and_eq_true, beq_iff_eq] at h
    obtain ⟨hlen, hdir⟩ := h
    cases p with
    | init | isSg =>
      obtain rfl := List.length_eq_zero_iff.mp hlen
      exact ⟨_, rfl⟩
    | disableIrq =>
      obtain ⟨dir, rfl⟩ := List.length_eq_one_iff.mp hlen
      obtain rfl | rfl : dir = 0#32 ∨ dir = 1#32 := by simpa using hdir
      · exact ⟨_, rfl⟩
      · exact ⟨_, rfl⟩
    | transmit | receive | offload =>
      obtain ⟨a, b, rfl⟩ := List.length_eq_two.mp hlen
      exact ⟨_, rfl⟩

/-- Settles O2: format by format the decoder's tests are those of well-formedness. -/
theorem decodesExactlyWellFormedWords : Obligations.DecodesExactlyWellFormedWords := by
  intro w
  cases w with
  | sw use bits => exact decodeSw_ok_iff use bits
  | bus bits => exact decodeBus_ok_iff bits
  | kstep code => exact ⟨fun _ => rfl, fun _ => ⟨_, rfl⟩⟩
  | chstep c busy => exact decodeChstep_ok_iff c busy
  | prim p args => exact decodePrim_ok_iff p args
  | pseudo p args => exact decodePseudo_ok_iff p args

end Sys2Proof
end

section
/-! What a decided turn performs, and a word of the opcode table placed for the next step (30_encoding.md R98, R103). -/

namespace Sys2Proof.Machine

/-! ### Decided turns -/

theorem step_agent {s : State} {a : Agent} {rest : List Turn} (h : s.sched = .agent a :: rest) :
    step s = stepAgent a { s with sched := rest } := by
  rw [step, stepMachine, takeTurn, h]
  rfl

/-- An agent that is not enabled uses its turn up and changes nothing else (00_scope.md R9). -/
theorem step_agent_not_enabled {s : State} {a : Agent} {rest : List Turn} (h : s.sched = .agent a :: rest)
    (he : agentEnabled a s = false) : step s = .next { s with sched := rest } :=
  (step_agent h).trans (stepAgent_not_enabled he)

/-- The kernel's turn performs the step of its phase (30_encoding.md R98). -/
theorem step_kernel {s : State} {rest : List Turn} {p : Phase} (h : s.sched = .agent .kernel :: rest)
    (hp : s.k.phase = p) : step s = exec (decodeKstep (phaseCode p)) { s with sched := rest } := by
  subst hp
  exact step_agent h

/-- Settles O6: a turn is its agent's step, which the phase or `BUSY` selects; an idle channel is not enabled. -/
theorem hardwareStepRunsSelectedStep : Obligations.HardwareStepRunsSelectedStep := by
  refine ⟨fun s rest => ⟨fun h => ?_, fun h => ?_, fun h => ?_⟩, fun s rest a => step_agent_not_enabled⟩
  · exact ⟨step_kernel h, step_kernel h, step_kernel h, step_kernel h⟩
  · exact ⟨fun _ => (step_agent h).trans (stepChannel_tx _),
      fun hb => step_agent_not_enabled h (by simp [agentEnabled, hb])⟩
  · exact ⟨fun _ => (step_agent h).trans (stepChannel_rx _),
      fun hb => step_agent_not_enabled h (by simp [agentEnabled, hb])⟩

/-! ### Words of the opcode table -/

/-- A register transaction and a stream word are made in one access. -/
theorem procedureStages_of_decodeBus {bits : BitVec 39} {i : Instr} (h : decodeBus bits = .ok i) :
    procedureStages i = 0 := by
  unfold decodeBus at h
  split at h
  · exact procedureStages_of_decodeWrite h
  · exact procedureStages_of_decodeRead h

theorem procedureStages_of_decodeSw {use : CodecUse} {bits : BitVec 51} {i : Instr} (h : decodeSw use bits = .ok i) :
    procedureStages i = 0 := by
  cases use with
  | produced =>
    rw [decodeSw] at h
    split at h <;> cases h
    rfl
  | accepted =>
    cases h
    rfl

/-- A word of the table is TX's `BUSY`, a phase, or a word of the host that selects an operation of one access. -/
theorem tableOpWord_cases {nbits w : Nat} {op : OpWord} (h : tableOpWord nbits w = some op) :
    (∃ busy, op = .chstep .tx busy) ∨ (∃ code, op = .kstep code) ∨
      (hostSelects op = true ∧ ∀ i, decode op = .ok i → procedureStages i = 0) := by
  unfold tableOpWord at h
  split at h
  · cases h
  split at h
  · split at h <;> cases h
    exact .inl ⟨_, rfl⟩
  split at h
  · split at h <;> cases h
    exact .inr (.inl ⟨_, rfl⟩)
  split at h
  · split at h <;> cases h
    exact .inr (.inr ⟨rfl, fun _ => procedureStages_of_decodeBus⟩)
  split at h
  · split at h <;> cases h
    exact .inr (.inr ⟨rfl, fun _ => procedureStages_of_decodeSw⟩)
  · cases h

theorem withFetchWord_eq {nbits w : Nat} {op : OpWord} (h : tableOpWord nbits w = some op) (s : State) :
    s.withFetchWord nbits w = placeWord op s := by
  rw [State.withFetchWord, placeTableWord, h]

/-! ### The step that finds a placed word -/

/-- A phase that is placed selects its kernel step. -/
theorem step_placeWord_kstep (code : BitVec 2) (s : State) :
    step (placeWord (.kstep code) s) = exec (decodeKstep code) { s with k := { s.k with phase := phaseOfCode code } } := by
  have h : step (placeWord (.kstep code) s) = _ := step_kernel (p := phaseOfCode code) rfl rfl
  rwa [phaseCode_phaseOfCode] at h

/-- `BUSY` that is placed selects TX's beat. -/
theorem step_placeWord_chstep (s : State) :
    step (placeWord (.chstep .tx 1#1) s) = exec .txBeat { s with tx := { s.tx with busy := true } } :=
  stepChannel_tx { s with tx := { s.tx with busy := true } }

/-- The host with the packed form `w` put before its queue. -/
def State.enqueue (w : OpWord) (s : State) : State :=
  { s with host := { s.host with queue := .op w :: s.host.queue, pos := 0 } }

theorem placeWord_of_hostSelects {w : OpWord} (h : hostSelects w = true) (s : State) :
    placeWord w s = (s.enqueue w).nextTurn .host := by
  cases w with
  | kstep code | chstep c busy => cases h
  | _ => rfl

theorem hostWord_of_decode {w : OpWord} {i : Instr} (hs : hostSelects w = true) (h : decode w = .ok i) (s : State) :
    hostWord w s = exec i s := by
  rw [hostWord, if_pos hs, h]

/-- An operation of one access is over after its step and leaves the queue as it was before. -/
theorem retire_of_exec_enqueue {w : OpWord} {i : Instr} {s t : State} (hi : procedureStages i = 0)
    (h : exec i (s.enqueue w) = .next t) : retire t = { t with host := { t.host with queue := s.host.queue } } := by
  have hpos : t.host.pos = 0 := Nat.le_zero.mp (hi ▸ exec_pos_le h (Nat.zero_le _))
  have hsteer := exec_steering h
  simp only [State.steering, Prod.mk.injEq] at hsteer
  obtain ⟨_, _, _, hqueue, _⟩ := hsteer
  rw [retire, if_pos hpos, hqueue]
  rfl

/-- A word of one access that is placed for the host is performed from the queue's head, which it leaves. -/
theorem step_placeWord_host {w : OpWord} {i : Instr} (hs : hostSelects w = true) (hd : decode w = .ok i)
    (hi : procedureStages i = 0) (s : State) :
    step (placeWord w s) =
      andThen (exec i (s.enqueue w)) fun t => .next { t with host := { t.host with queue := s.host.queue } } := by
  have hstep : step (placeWord w s) = andThen (exec i (s.enqueue w)) fun t => .next (retire t) := by
    rw [placeWord_of_hostSelects hs, ← hostWord_of_decode hs hd]
    rfl
  rw [hstep]
  cases ht : exec i (s.enqueue w) with
  | next t => exact congrArg Host.Outcome.next (retire_of_exec_enqueue hi ht)
  | fault e => rfl
  | refused e => rfl

/-- Settles O8: the agent that a word is placed for has the next turn, and finds the word where its step looks. -/
theorem placedWordRunsNext : Obligations.PlacedWordRunsNext := by
  intro s nbits w i h
  unfold decodeTableWord at h
  split at h
  · rename_i op hop
    have hd : decode op = .ok i := by
      cases hop' : decode op <;> rw [hop'] at h <;> cases h
      rfl
    rw [withFetchWord_eq hop]
    obtain ⟨busy, rfl⟩ | ⟨code, rfl⟩ | ⟨hs, hi⟩ := tableOpWord_cases hop
    · obtain rfl : busy = 1#1 := eq_of_beq ((decodeChstep_ok_iff .tx busy).mp ⟨i, hd⟩)
      cases hd
      exact .inr (.inl ⟨rfl, step_placeWord_chstep s⟩)
    · cases hd
      exact .inl ⟨phaseOfCode code, congrArg decodeKstep (phaseCode_phaseOfCode code), step_placeWord_kstep code s⟩
    · exact .inr (.inr ⟨op, hs, hd, step_placeWord_host hs hd (hi i hd) s⟩)
  · cases h

end Sys2Proof.Machine
end

section
/-! The Word Codec (40_word_codec.md R120 to R122): the payload passes through unchanged, and of the accepted words exactly the
canonical ones are rebuilt from payload and end-of-frame bit. -/

namespace Sys2Proof.Machine

@[simp] theorem decodeWord_encodeWord (v : Word) (l : Bool) : decodeWord (encodeWord v l) = v := rfl

/-- Encoding fixes the four side fields and leaves payload and end-of-frame bit free (40_word_codec.md R120). -/
theorem encodeWord_eq_iff (v : Word) (l : Bool) (w : StreamWord) :
    encodeWord v l = w ↔
      w.data = v ∧ w.last = l ∧ w.keep = 0xF#4 ∧ w.user = 0#4 ∧ w.id = idConst ∧ w.dest = destConst := by
  constructor
  · rintro rfl
    exact ⟨rfl, rfl, rfl, rfl, rfl, rfl⟩
  · obtain ⟨data, keep, user, id, dest, last⟩ := w
    rintro ⟨rfl, rfl, rfl, rfl, rfl, rfl⟩
    rfl

/-- Settles O9: the payload field is what encoding stores, and re-encoding a word's own payload and end-of-frame bit can
differ from it in the side fields only. -/
theorem codecRoundTrip : Obligations.CodecRoundTrip := by
  refine ⟨decodeWord_encodeWord, fun w => ?_⟩
  have hdata : w.data = decodeWord w := rfl
  rw [encodeWord_eq_iff, and_iff_right hdata, and_iff_right rfl, idConst, destConst]

/-- `ENCODE` has no branch: in every state the host holds the encoded word (40_word_codec.md R120). -/
theorem exec_encode (v : Word) (l : Bool) (s : State) : exec (.encode v l) s = .next (s.bindWord (encodeWord v l)) := rfl

/-- `DECODE` has no branch: in every state the host binds the payload (40_word_codec.md R121). -/
theorem exec_decode (w : StreamWord) (s : State) : exec (.decode w) s = .next (s.bind (decodeWord w)) := rfl

/-- Settles O10: binding a word changes the host's word alone, and the encoded word's side fields are the constants. -/
theorem encodeGivesCanonicalWord : Obligations.EncodeGivesCanonicalWord := exec_encode

/-- Settles O11: binding a value changes the host's result alone, and the decoded value is the data field. -/
theorem decodeGivesPayload : Obligations.DecodeGivesPayload := exec_decode

end Sys2Proof.Machine
end

section
/-! The binary32 format (41_fp_numerics.md R130): the classes by the fields of a word, the range of a magnitude, the grid on
which the words of one binade lie, and that a finite word is determined by its value and sign. -/

namespace Sys2Proof.Machine

/-! ### Fields -/

theorem fpSign_eq (w : Word) : fpSign w = w.getLsbD 31 := rfl

theorem fpExp_lt (w : Word) : fpExp w < 2 ^ 8 := (w.extractLsb' 23 8).isLt

theorem fpFrac_lt (w : Word) : fpFrac w < 2 ^ 23 := (w.extractLsb' 0 23).isLt

theorem fpExp_eq_iff (w : Word) (e : BitVec 8) : fpExp w = e.toNat ↔ w.extractLsb' 23 8 = e := BitVec.toNat_inj

theorem fpFrac_eq_iff (w : Word) (f : BitVec 23) : fpFrac w = f.toNat ↔ w.extractLsb' 0 23 = f := BitVec.toNat_inj

/-- Bits 30:0 are the exponent above the fraction. -/
theorem toNat_extractLsb'_31 (w : Word) : (w.extractLsb' 0 31).toNat = fpExp w * 2 ^ 23 + fpFrac w := by
  simp only [fpExp, fpFrac, BitVec.extractLsb'_toNat, Nat.shiftRight_eq_div_pow]
  omega

theorem extractLsb'_31_eq_iff (w : Word) (v : BitVec 31) :
    w.extractLsb' 0 31 = v ↔ fpExp w * 2 ^ 23 + fpFrac w = v.toNat := by
  rw [← toNat_extractLsb'_31, BitVec.toNat_inj]

/-- The low bit of a word is that of its fraction. -/
theorem getLsbD_zero_eq (w : Word) : w.getLsbD 0 = decide (fpFrac w % 2 = 1) := by
  have h : w.getLsbD 0 = (w.extractLsb' 0 23).getLsbD 0 := by simp
  rw [h, BitVec.getLsbD, Nat.testBit_zero, fpFrac]

/-! ### Classes -/

theorem isNaN_iff (w : Word) : isNaN w = true ↔ fpExp w = 255 ∧ fpFrac w ≠ 0 := by simp [isNaN]

theorem isInf_iff (w : Word) : isInf w = true ↔ fpExp w = 255 ∧ fpFrac w = 0 := by simp [isInf]

theorem isZero_iff (w : Word) : isZero w = true ↔ fpExp w = 0 ∧ fpFrac w = 0 := by simp [isZero]

theorem isFinite_iff (w : Word) : isFinite w = true ↔ fpExp w ≠ 255 := by simp [isFinite]

/-- An infinity is bits 30:0 of `0x7F800000`. -/
theorem isInf_iff_extractLsb' (w : Word) : isInf w = true ↔ w.extractLsb' 0 31 = 0x7F800000#31 := by
  have := fpFrac_lt w
  rw [isInf_iff, extractLsb'_31_eq_iff]
  change _ ↔ _ = 2139095040
  omega

/-- A zero is bits 30:0 all clear. -/
theorem isZero_iff_extractLsb' (w : Word) : isZero w = true ↔ w.extractLsb' 0 31 = 0#31 := by
  have := fpFrac_lt w
  rw [isZero_iff, extractLsb'_31_eq_iff]
  change _ ↔ _ = 0
  omega

theorem isNaN_iff_extractLsb' (w : Word) :
    isNaN w = true ↔ w.extractLsb' 23 8 = 0xFF#8 ∧ w.extractLsb' 0 23 ≠ 0#23 := by
  rw [isNaN_iff, ← fpExp_eq_iff, ne_eq, ne_eq, ← fpFrac_eq_iff]
  rfl

theorem isNaN_eq_false_of_isFinite {w : Word} (h : isFinite w = true) : isNaN w = false := by
  rw [isFinite_iff] at h
  simp [isNaN, h]

theorem isInf_eq_false_of_isFinite {w : Word} (h : isFinite w = true) : isInf w = false := by
  rw [isFinite_iff] at h
  simp [isInf, h]

theorem isNaN_eq_false_of_isInf {w : Word} (h : isInf w = true) : isNaN w = false := by
  rw [isInf_iff] at h
  simp [isNaN, h]

theorem isFinite_of_isZero {w : Word} (h : isZero w = true) : isFinite w = true := by
  rw [isZero_iff] at h
  simp [isFinite, h]

/-- The three classes of R130 leave no other word. -/
theorem isFinite_of_not {w : Word} (hn : ¬ isNaN w = true) (hi : ¬ isInf w = true) : isFinite w = true := by
  rw [isFinite_iff]
  intro he
  by_cases hf : fpFrac w = 0
  · exact hi ((isInf_iff w).mpr ⟨he, hf⟩)
  · exact hn ((isNaN_iff w).mpr ⟨he, hf⟩)

/-- Two infinities of one sign are one word. -/
theorem eq_of_isInf {v w : Word} (hv : isInf v = true) (hw : isInf w = true) (hs : fpSign v = fpSign w) : v = w := by
  obtain ⟨hev, hfv⟩ := (isInf_iff v).mp hv
  obtain ⟨hew, hfw⟩ := (isInf_iff w).mp hw
  exact fp_ext hs (hev.trans hew.symm) (hfv.trans hfw.symm)

/-- Two zeros of one sign are one word. -/
theorem eq_of_isZero {v w : Word} (hv : isZero v = true) (hw : isZero w = true) (hs : fpSign v = fpSign w) : v = w := by
  obtain ⟨hev, hfv⟩ := (isZero_iff v).mp hv
  obtain ⟨hew, hfw⟩ := (isZero_iff w).mp hw
  exact fp_ext hs (hev.trans hew.symm) (hfv.trans hfw.symm)

@[simp] theorem fpSign_fpInf (s : Bool) : fpSign (fpInf s) = s := fpSign_fpPack ..

@[simp] theorem isInf_fpInf (s : Bool) : isInf (fpInf s) = true := by simp [isInf, fpInf]

@[simp] theorem isNaN_fpInf (s : Bool) : isNaN (fpInf s) = false := isNaN_eq_false_of_isInf (isInf_fpInf s)

@[simp] theorem isFinite_fpInf (s : Bool) : isFinite (fpInf s) = false := by simp [isFinite, fpInf]

theorem fpZero_false : fpZero false = 0x00000000#32 := rfl

theorem fpZero_eq (s : Bool) : fpZero s = if s then 0x80000000#32 else 0x00000000#32 := by
  cases s <;> rfl

theorem fpZero_eq_bif (s : Bool) : fpZero s = bif s then 0x80000000#32 else 0x00000000#32 := by
  cases s <;> rfl

@[simp] theorem fpSign_fpZero (s : Bool) : fpSign (fpZero s) = s := fpSign_fpPack ..

@[simp] theorem isZero_fpZero (s : Bool) : isZero (fpZero s) = true := by simp [isZero, fpZero]

@[simp] theorem isFinite_fpZero (s : Bool) : isFinite (fpZero s) = true := by simp [isFinite, fpZero]

@[simp] theorem fpVal_fpZero (s : Bool) : fpVal (fpZero s) = 0 := by cases s <;> decide

/-! ### Magnitudes -/

@[simp] theorem natAbs_fpVal (w : Word) : (fpVal w).natAbs = fpMag w := by
  unfold fpVal
  split <;> simp

theorem fpMag_of_fpExp_eq_zero {w : Word} (h : fpExp w = 0) : fpMag w = fpFrac w := if_pos h

theorem fpMag_of_fpExp_ne_zero {w : Word} (h : fpExp w ≠ 0) :
    fpMag w = (2 ^ 23 + fpFrac w) * 2 ^ (fpExp w - 1) := if_neg h

/-- The magnitude is below the end of the word's binade. -/
theorem fpMag_lt (w : Word) : fpMag w < 2 ^ 23 * 2 ^ fpExp w := by
  have hf := fpFrac_lt w
  by_cases h : fpExp w = 0
  · rw [fpMag_of_fpExp_eq_zero h, h]
    exact hf
  · rw [fpMag_of_fpExp_ne_zero h, ← Nat.two_pow_pred_mul_two (Nat.pos_of_ne_zero h)]
    have := Nat.mul_lt_mul_of_pos_right (show 2 ^ 23 + fpFrac w < 2 ^ 23 * 2 by omega) (Nat.two_pow_pos (fpExp w - 1))
    nlinarith

/-- The magnitude of a normal word is at least the start of its binade. -/
theorem le_fpMag {w : Word} (h : fpExp w ≠ 0) : 2 ^ 23 * 2 ^ (fpExp w - 1) ≤ fpMag w := by
  rw [fpMag_of_fpExp_ne_zero h]
  exact Nat.mul_le_mul_right _ (Nat.le_add_right _ _)

theorem fpMag_eq_zero_iff (w : Word) : fpMag w = 0 ↔ isZero w = true := by
  rw [isZero_iff]
  by_cases h : fpExp w = 0
  · rw [fpMag_of_fpExp_eq_zero h, and_iff_right h]
  · have := le_fpMag h
    have : 0 < 2 ^ 23 * 2 ^ (fpExp w - 1) := by positivity
    constructor
    · intro h0
      omega
    · intro h0
      exact absurd h0.1 h

theorem fpVal_eq_zero_iff (w : Word) : fpVal w = 0 ↔ isZero w = true := by
  rw [← Int.natAbs_eq_zero, natAbs_fpVal, fpMag_eq_zero_iff]

/-- Every word is on the grid of ulp `2^e`, or below the first binade of that grid. -/
theorem dvd_fpMag_or_lt (w : Word) (e : Nat) : 2 ^ e ∣ fpMag w ∨ (e ≠ 0 ∧ fpMag w < 2 ^ 23 * 2 ^ e) := by
  by_cases h0 : e = 0
  · exact .inl (h0 ▸ one_dvd _)
  by_cases h : fpExp w ≤ e
  · exact .inr ⟨h0, (fpMag_lt w).trans_le (Nat.mul_le_mul_left _ (Nat.pow_le_pow_right two_pos h))⟩
  · rw [fpMag_of_fpExp_ne_zero (by omega)]
    exact .inl (Dvd.dvd.mul_left (Nat.pow_dvd_pow 2 (by omega)) _)

/-- The largest finite magnitude. -/
theorem fpMag_le_of_isFinite {w : Word} (h : isFinite w = true) : fpMag w ≤ (2 ^ 24 - 1) * 2 ^ 253 := by
  have hf := fpFrac_lt w
  have he := fpExp_lt w
  rw [isFinite_iff] at h
  by_cases h0 : fpExp w = 0
  · rw [fpMag_of_fpExp_eq_zero h0]
    omega
  · rw [fpMag_of_fpExp_ne_zero h0]
    exact Nat.mul_le_mul (by omega) (Nat.pow_le_pow_right two_pos (by omega))

/-- A larger exponent is a larger magnitude. -/
theorem fpMag_lt_of_fpExp_lt {v w : Word} (h : fpExp v < fpExp w) : fpMag v < fpMag w :=
  calc fpMag v < 2 ^ 23 * 2 ^ fpExp v := fpMag_lt v
    _ ≤ 2 ^ 23 * 2 ^ (fpExp w - 1) := Nat.mul_le_mul_left _ (Nat.pow_le_pow_right two_pos (by omega))
    _ ≤ fpMag w := le_fpMag (by omega)

/-- A word is determined by its sign and magnitude. -/
theorem eq_of_fpMag_eq {v w : Word} (hs : fpSign v = fpSign w) (hm : fpMag v = fpMag w) : v = w := by
  have he : fpExp v = fpExp w := by
    rcases Nat.lt_trichotomy (fpExp v) (fpExp w) with h | h | h
    · exact absurd hm (fpMag_lt_of_fpExp_lt h).ne
    · exact h
    · exact absurd hm (fpMag_lt_of_fpExp_lt h).ne'
  refine fp_ext hs he ?_
  by_cases h0 : fpExp v = 0
  · rwa [fpMag_of_fpExp_eq_zero h0, fpMag_of_fpExp_eq_zero (he ▸ h0)] at hm
  · rw [fpMag_of_fpExp_ne_zero h0, fpMag_of_fpExp_ne_zero (he ▸ h0), he] at hm
    exact Nat.add_left_cancel (Nat.eq_of_mul_eq_mul_right (Nat.two_pow_pos _) hm)

theorem fpVal_of_fpSign_true {w : Word} (h : fpSign w = true) : fpVal w = -(fpMag w : Int) := if_pos h

theorem fpVal_of_fpSign_false {w : Word} (h : fpSign w = false) : fpVal w = fpMag w := by simp [fpVal, h]

/-- The sign bit is the sign of a non-zero value. -/
theorem fpSign_eq_decide {w : Word} (h0 : fpVal w ≠ 0) : fpSign w = decide (fpVal w < 0) := by
  cases hs : fpSign w
  · have := fpVal_of_fpSign_false hs
    exact (decide_eq_false (by omega)).symm
  · have := fpVal_of_fpSign_true hs
    exact (decide_eq_true (by omega)).symm

/-- A word of a non-zero value is determined by it. -/
theorem eq_of_fpVal_eq {v w : Word} (h : fpVal v = fpVal w) (h0 : fpVal w ≠ 0) : v = w := by
  refine eq_of_fpMag_eq ?_ (by rw [← natAbs_fpVal, h, natAbs_fpVal])
  rw [fpSign_eq_decide (h ▸ h0), fpSign_eq_decide h0, h]

/-- Settles O12: the fields give the classes, and the value is the magnitude with the word's sign. -/
theorem binary32Classes : Obligations.Binary32Classes := by
  intro w
  refine ⟨isNaN_iff_extractLsb' w, isInf_iff_extractLsb' w, isZero_iff_extractLsb' w, fun h => ?_, fun h _ => ?_,
    fun h => ?_, fun h => ?_⟩
  · rw [natAbs_fpVal, fpMag_of_fpExp_eq_zero ((fpExp_eq_iff w 0#8).mpr h), fpFrac]
  · have h0 : fpExp w ≠ 0 := fun h' => h ((fpExp_eq_iff w 0#8).mp h')
    rw [natAbs_fpVal, fpMag_of_fpExp_ne_zero h0, ← fpExp, ← fpFrac]
    calc 2 * ((2 ^ 23 + fpFrac w) * 2 ^ (fpExp w - 1)) = (2 ^ 23 + fpFrac w) * (2 ^ (fpExp w - 1) * 2) := by ring
      _ = (2 ^ 23 + fpFrac w) * 2 ^ fpExp w := by rw [Nat.two_pow_pred_mul_two (Nat.pos_of_ne_zero h0)]
  · rw [fpVal_of_fpSign_true h]
    omega
  · rw [fpVal_of_fpSign_false h]
    omega

end Sys2Proof.Machine
end

section
/-! Rounding (41_fp_numerics.md R131): the word of a significand and an exponent, the binade of a value, and that no word is
nearer to a value than its rounded word. -/

namespace Sys2Proof.Machine

/-! ### The word of a significand -/

/-- The word of sign `s` and magnitude `n * 2^e` (units of `2^-149`), for a significand `n` up to the carry `2^24`: the last three
steps of `round32` (41_fp_numerics.md R131). -/
def assemble (s : Bool) (n e : Nat) : Word :=
  if n = 2 ^ 24 then fpPack s (BitVec.ofNat 8 (e + 2)) 0#23
  else if n < 2 ^ 23 then fpPack s 0#8 (BitVec.ofNat 23 n)
  else fpPack s (BitVec.ofNat 8 (e + 1)) (BitVec.ofNat 23 n)

/-- A significand that fits its binade, and a magnitude below `2^128`. -/
structure Assembles (n e : Nat) : Prop where
  le : n ≤ 2 ^ 24
  normal : n < 2 ^ 23 → e = 0
  bounded : n * 2 ^ (149 + e) < 2 ^ 426

theorem add_lt_of_mul_two_pow_lt {k n e c : Nat} (hk : 2 ^ k ≤ n) (h : n * 2 ^ e < 2 ^ c) : k + e < c := by
  have hlt : 2 ^ k * 2 ^ e < 2 ^ c := (Nat.mul_le_mul_right _ hk).trans_lt h
  rwa [← Nat.pow_add, Nat.pow_lt_pow_iff_right one_lt_two] at hlt

/-- A normal significand below `2^128` has an exponent that fits its field. -/
theorem Assembles.exponent_lt {n e : Nat} (h : Assembles n e) {k : Nat} (hk : 2 ^ k ≤ n) : k + e < 277 := by
  have := add_lt_of_mul_two_pow_lt hk h.bounded
  omega

/-- The exponent and the fraction of an assembled word. -/
theorem assemble_fields (s : Bool) {n e : Nat} (h : Assembles n e) :
    fpExp (assemble s n e) = (if n = 2 ^ 24 then e + 2 else if n < 2 ^ 23 then 0 else e + 1) ∧
      fpFrac (assemble s n e) = n % 2 ^ 23 := by
  unfold assemble
  by_cases hc : n = 2 ^ 24
  · have := h.exponent_lt hc.ge
    rw [if_pos hc, if_pos hc, fpExp_fpPack, fpFrac_fpPack, BitVec.toNat_ofNat, hc]
    exact ⟨Nat.mod_eq_of_lt (by omega), rfl⟩
  rw [if_neg hc, if_neg hc]
  by_cases hs : n < 2 ^ 23
  · rw [if_pos hs, if_pos hs, fpExp_fpPack, fpFrac_fpPack, BitVec.toNat_ofNat]
    exact ⟨rfl, rfl⟩
  · have := h.exponent_lt (Nat.le_of_not_lt hs)
    rw [if_neg hs, if_neg hs, fpExp_fpPack, fpFrac_fpPack, BitVec.toNat_ofNat, BitVec.toNat_ofNat]
    exact ⟨Nat.mod_eq_of_lt (by omega), rfl⟩

@[simp] theorem fpSign_assemble (s : Bool) (n e : Nat) : fpSign (assemble s n e) = s := by
  unfold assemble
  split
  · exact fpSign_fpPack ..
  split <;> exact fpSign_fpPack ..

theorem isFinite_assemble (s : Bool) {n e : Nat} (h : Assembles n e) : isFinite (assemble s n e) = true := by
  rw [isFinite_iff, (assemble_fields s h).1]
  split
  · rename_i hc
    have := h.exponent_lt hc.ge
    omega
  split
  · decide
  · rename_i hs
    have := h.exponent_lt (Nat.le_of_not_lt hs)
    omega

theorem fpMag_assemble (s : Bool) {n e : Nat} (h : Assembles n e) : fpMag (assemble s n e) = n * 2 ^ e := by
  have hle := h.le
  obtain ⟨hexp, hfrac⟩ := assemble_fields s h
  by_cases hc : n = 2 ^ 24
  · rw [if_pos hc] at hexp
    rw [fpMag_of_fpExp_ne_zero (by omega), hexp, hfrac, hc]
    change 2 ^ 23 * 2 ^ (e + 1) = _
    ring
  rw [if_neg hc] at hexp
  by_cases hs : n < 2 ^ 23
  · rw [if_pos hs] at hexp
    rw [fpMag_of_fpExp_eq_zero hexp, hfrac, h.normal hs, Nat.mod_eq_of_lt hs, Nat.pow_zero, Nat.mul_one]
  · rw [if_neg hs] at hexp
    rw [fpMag_of_fpExp_ne_zero (by omega), hexp, hfrac, Nat.add_sub_cancel]
    congr 1
    omega

theorem getLsbD_zero_assemble (s : Bool) {n e : Nat} (h : Assembles n e) :
    (assemble s n e).getLsbD 0 = decide (n % 2 = 1) := by
  rw [getLsbD_zero_eq, (assemble_fields s h).2, Nat.mod_mod_of_dvd n (by decide)]

/-! ### The nearest integer -/

/-- `nearestEven` is the quotient or the next integer. -/
theorem nearestEven_cases (m sh : Nat) :
    (nearestEven m sh = m / 2 ^ sh ∧
      (2 * (m % 2 ^ sh) < 2 ^ sh ∨ (2 * (m % 2 ^ sh) = 2 ^ sh ∧ (m / 2 ^ sh) % 2 = 0))) ∨
    (nearestEven m sh = m / 2 ^ sh + 1 ∧
      (2 ^ sh < 2 * (m % 2 ^ sh) ∨ (2 * (m % 2 ^ sh) = 2 ^ sh ∧ (m / 2 ^ sh) % 2 = 1))) := by
  unfold nearestEven
  dsimp only
  split
  · exact .inr ⟨rfl, .inl ‹_›⟩
  split
  · exact .inr ⟨rfl, .inr ‹_›⟩
  · exact .inl ⟨rfl, by omega⟩

/-- No multiple `j * 2^sh` is nearer to `m` than the rounded one, and one as near leaves the even integer. -/
theorem nearestEven_nearest (m sh j : Nat) :
    ((m : Int) - (nearestEven m sh * 2 ^ sh : Nat)).natAbs ≤ ((m : Int) - (j * 2 ^ sh : Nat)).natAbs ∧
    (((m : Int) - (nearestEven m sh * 2 ^ sh : Nat)).natAbs = ((m : Int) - (j * 2 ^ sh : Nat)).natAbs →
      j ≠ nearestEven m sh → nearestEven m sh % 2 = 0) := by
  have hm := Nat.div_add_mod' m (2 ^ sh)
  have hr := Nat.mod_lt m (Nat.two_pow_pos sh)
  have hn := nearestEven_cases m sh
  generalize nearestEven m sh = n at *
  generalize m / 2 ^ sh = q at *
  generalize m % 2 ^ sh = r at *
  generalize 2 ^ sh = p at *
  have hj : (j + 1 ≤ q ∧ j * p + p ≤ q * p) ∨ j = q ∨ j = q + 1 ∨ (q + 2 ≤ j ∧ q * p + 2 * p ≤ j * p) := by
    rcases Nat.lt_or_ge j q with h | h
    · exact .inl ⟨h, by have := Nat.mul_le_mul_right p h; rwa [Nat.succ_mul] at this⟩
    rcases Nat.lt_or_ge j (q + 2) with h' | h'
    · omega
    · exact .inr (.inr (.inr ⟨h', by have := Nat.mul_le_mul_right p h'; rwa [Nat.add_mul] at this⟩))
  have hq1 : (q + 1) * p = q * p + p := Nat.succ_mul ..
  obtain ⟨rfl, hn⟩ | ⟨rfl, hn⟩ := hn
  · obtain ⟨hj, hj'⟩ | rfl | rfl | ⟨hj, hj'⟩ := hj <;> omega
  · obtain ⟨hj, hj'⟩ | rfl | rfl | ⟨hj, hj'⟩ := hj <;> omega

/-! ### The binade of a value -/

/-- The exponent, over the smallest binade's, of the clamped binade of a magnitude `m` in units of `2^-298`. -/
def binade (m : Nat) : Nat := max m.log2 172 - 172

/-- The significand of the rounded magnitude: a multiple of the binade's ulp. -/
def significand (m : Nat) : Nat := nearestEven m (149 + binade m)

/-- The rounded magnitude in units of `2^-298`. -/
def rounded (m : Nat) : Nat := significand m * 2 ^ (149 + binade m)

/-- R131 in these terms. -/
theorem round32_eq {x : Int} (h : x ≠ 0) (zs : Bool) :
    round32 x zs = if 2 ^ 426 ≤ rounded x.natAbs then fpInf (decide (x < 0))
      else assemble (decide (x < 0)) (significand x.natAbs) (binade x.natAbs) := by
  have hsh : max x.natAbs.log2 172 - 23 = 149 + binade x.natAbs := by
    unfold binade
    omega
  have h170 : max x.natAbs.log2 172 - 170 = binade x.natAbs + 2 := by
    unfold binade
    omega
  have h171 : max x.natAbs.log2 172 - 171 = binade x.natAbs + 1 := by
    unfold binade
    omega
  rw [round32, if_neg h]
  dsimp only
  rw [hsh, h170, h171]
  rfl

/-- A magnitude lies below the end of its binade. -/
theorem lt_binade (m : Nat) : m < 2 ^ 173 * 2 ^ binade m := by
  have h : m < 2 ^ (m.log2 + 1) := Nat.lt_log2_self
  rw [← Nat.pow_add]
  exact h.trans_le (Nat.pow_le_pow_right two_pos (by unfold binade; omega))

/-- A magnitude lies above the start of its binade, but in the smallest one. -/
theorem binade_le {m : Nat} (h : binade m ≠ 0) : 2 ^ 172 * 2 ^ binade m ≤ m := by
  have hlog : 172 + binade m = m.log2 := by
    unfold binade at h ⊢
    omega
  rw [← Nat.pow_add, hlog]
  exact Nat.log2_self_le (by rintro rfl; exact h (by decide))

theorem significand_le (m : Nat) : significand m ≤ 2 ^ 24 := by
  have hq : m / 2 ^ (149 + binade m) < 2 ^ 24 := by
    rw [Nat.div_lt_iff_lt_mul (Nat.two_pow_pos _)]
    calc m < 2 ^ 173 * 2 ^ binade m := lt_binade m
      _ = 2 ^ 24 * 2 ^ (149 + binade m) := by ring
  rcases nearestEven_cases m (149 + binade m) with ⟨h, -⟩ | ⟨h, -⟩ <;> rw [significand, h] <;> omega

/-- Only in the smallest binade is the significand below `2^23`. -/
theorem le_significand {m : Nat} (h : binade m ≠ 0) : 2 ^ 23 ≤ significand m := by
  have hq : 2 ^ 23 ≤ m / 2 ^ (149 + binade m) := by
    rw [Nat.le_div_iff_mul_le (Nat.two_pow_pos _)]
    calc 2 ^ 23 * 2 ^ (149 + binade m) = 2 ^ 172 * 2 ^ binade m := by ring
      _ ≤ m := binade_le h
  rcases nearestEven_cases m (149 + binade m) with ⟨h, -⟩ | ⟨h, -⟩ <;> rw [significand, h] <;> omega

theorem rounded_eq (m : Nat) : rounded m = significand m * 2 ^ binade m * 2 ^ 149 := by
  unfold rounded
  ring

theorem assembles_of_rounded_lt {m : Nat} (h : rounded m < 2 ^ 426) : Assembles (significand m) (binade m) where
  le := significand_le m
  normal := fun hn => by
    by_contra he
    have := le_significand he
    omega
  bounded := h

/-! ### No word is nearer -/

/-- No magnitude of a word is nearer to `m` than the rounded one; at a tie with another the significand is even. -/
theorem rounded_nearest (m : Nat) (w : Word) :
    ((m : Int) - rounded m).natAbs ≤ ((m : Int) - (fpMag w * 2 ^ 149 : Nat)).natAbs ∧
    (((m : Int) - rounded m).natAbs = ((m : Int) - (fpMag w * 2 ^ 149 : Nat)).natAbs →
      fpMag w * 2 ^ 149 ≠ rounded m → significand m % 2 = 0) := by
  obtain ⟨j, hj⟩ | ⟨he, hlt⟩ := dvd_fpMag_or_lt w (binade m)
  · have hgrid : fpMag w * 2 ^ 149 = j * 2 ^ (149 + binade m) := by
      rw [hj]
      ring
    rw [hgrid]
    obtain ⟨hle, htie⟩ := nearestEven_nearest m (149 + binade m) j
    exact ⟨hle, fun heq hne => htie heq fun h => hne (by rw [h]; rfl)⟩
  · have hstart : 2 ^ 23 * 2 ^ (149 + binade m) ≤ m :=
      calc 2 ^ 23 * 2 ^ (149 + binade m) = 2 ^ 172 * 2 ^ binade m := by ring
        _ ≤ m := binade_le he
    have hbelow : fpMag w * 2 ^ 149 < 2 ^ 23 * 2 ^ (149 + binade m) :=
      calc fpMag w * 2 ^ 149 < 2 ^ 23 * 2 ^ binade m * 2 ^ 149 := Nat.mul_lt_mul_of_pos_right hlt (Nat.two_pow_pos _)
        _ = 2 ^ 23 * 2 ^ (149 + binade m) := by ring
    have hle : ((m : Int) - rounded m).natAbs ≤ ((m : Int) - (2 ^ 23 * 2 ^ (149 + binade m) : Nat)).natAbs :=
      (nearestEven_nearest m (149 + binade m) (2 ^ 23)).1
    omega

/-! ### Overflow -/

/-- The rounded magnitude reaches `2^128` exactly from half an ulp above the largest finite magnitude on. -/
theorem overflow_iff (m : Nat) : 2 ^ 426 ≤ rounded m ↔ (2 ^ 25 - 1) * 2 ^ 401 ≤ m := by
  have h426 : 2 ^ 426 = 2 ^ 25 * 2 ^ 401 := by decide +kernel
  rw [h426]
  have hpos : 0 < 2 ^ 401 := pow_pos two_pos 401
  rcases Nat.lt_trichotomy (binade m) 253 with he | he | he
  · have hm : m < 2 ^ 24 * 2 ^ 401 :=
      calc m < 2 ^ 173 * 2 ^ binade m := lt_binade m
        _ ≤ 2 ^ 173 * 2 ^ 252 := Nat.mul_le_mul_left _ (Nat.pow_le_pow_right two_pos (by omega))
        _ = 2 ^ 24 * 2 ^ 401 := by decide +kernel
    have hr : rounded m ≤ 2 ^ 24 * 2 ^ 401 :=
      Nat.mul_le_mul (significand_le m) (pow_le_pow_right₀ one_le_two (by omega))
    generalize 2 ^ 401 = u at *
    omega
  · have hn := significand_le m
    have hulp : 2 ^ (149 + binade m) = 2 * 2 ^ 401 := by rw [he, ← Nat.pow_succ']
    have hcases := nearestEven_cases m (149 + binade m)
    have hdiv := Nat.div_add_mod' m (2 ^ (149 + binade m))
    rw [hulp] at hcases hdiv
    rw [rounded, hulp]
    change nearestEven m (149 + binade m) ≤ 2 ^ 24 at hn
    change _ ≤ nearestEven m (149 + binade m) * _ ↔ _
    generalize 2 ^ 401 = u at *
    generalize nearestEven m (149 + binade m) = n at *
    have hr : m % (2 * u) < 2 * u := Nat.mod_lt _ (by omega)
    generalize m % (2 * u) = r at *
    generalize m / (2 * u) = q at *
    obtain rfl | hn := hn.eq_or_lt
    · obtain ⟨rfl, h⟩ | ⟨h, h'⟩ := hcases
      · omega
      · obtain rfl : q = 2 ^ 24 - 1 := by omega
        omega
    · have hn' := Nat.mul_le_mul_right (2 * u) (Nat.succ_le_of_lt hn)
      rw [Nat.succ_mul] at hn'
      obtain ⟨rfl, h⟩ | ⟨rfl, h⟩ := hcases
      · by_cases hq : n = 2 ^ 24 - 1
        · subst hq
          omega
        · have hq' := Nat.mul_le_mul_right (2 * u) (show n + 2 ≤ 2 ^ 24 by omega)
          rw [Nat.add_mul] at hq'
          omega
      · rw [Nat.succ_mul] at hn' ⊢
        omega
  · have hstart : 2 ^ 25 * 2 ^ 401 ≤ 2 ^ 23 * 2 ^ (149 + binade m) :=
      calc 2 ^ 25 * 2 ^ 401 = 2 ^ 23 * 2 ^ 403 := by decide +kernel
        _ ≤ 2 ^ 23 * 2 ^ (149 + binade m) := Nat.mul_le_mul_left _ (Nat.pow_le_pow_right two_pos (by omega))
    have hm : 2 ^ 23 * 2 ^ (149 + binade m) ≤ m :=
      calc 2 ^ 23 * 2 ^ (149 + binade m) = 2 ^ 172 * 2 ^ binade m := by ring
        _ ≤ m := binade_le (by omega)
    have hr : 2 ^ 23 * 2 ^ (149 + binade m) ≤ rounded m := Nat.mul_le_mul_right _ (le_significand (by omega))
    generalize 2 ^ 401 = u at *
    omega

/-! ### The rounded word -/

theorem round32_of_overflow {x : Int} (zs : Bool) (h : (2 ^ 25 - 1) * 2 ^ 401 ≤ x.natAbs) :
    round32 x zs = fpInf (decide (x < 0)) := by
  have h0 : x ≠ 0 := by
    rintro rfl
    exact absurd h (by decide +kernel)
  rw [round32_eq h0, if_pos ((overflow_iff _).mpr h)]

theorem round32_of_no_overflow {x : Int} (zs : Bool) (h0 : x ≠ 0) (h : x.natAbs < (2 ^ 25 - 1) * 2 ^ 401) :
    round32 x zs = assemble (decide (x < 0)) (significand x.natAbs) (binade x.natAbs) ∧
      Assembles (significand x.natAbs) (binade x.natAbs) := by
  have hlt : ¬ 2 ^ 426 ≤ rounded x.natAbs := fun hr => (Nat.not_le_of_lt h) ((overflow_iff _).mp hr)
  exact ⟨by rw [round32_eq h0, if_neg hlt], assembles_of_rounded_lt (Nat.lt_of_not_le hlt)⟩

theorem fpSign_round32 {x : Int} (zs : Bool) (h0 : x ≠ 0) : fpSign (round32 x zs) = decide (x < 0) := by
  rw [round32_eq h0]
  split
  · exact fpSign_fpInf _
  · exact fpSign_assemble ..

/-- Only an overflow leaves the finite words. -/
theorem isFinite_round32_iff {x : Int} (zs : Bool) (h0 : x ≠ 0) :
    isFinite (round32 x zs) = true ↔ x.natAbs < (2 ^ 25 - 1) * 2 ^ 401 := by
  rcases Nat.lt_or_ge x.natAbs ((2 ^ 25 - 1) * 2 ^ 401) with h | h
  · obtain ⟨heq, ha⟩ := round32_of_no_overflow zs h0 h
    rw [heq]
    exact iff_of_true (isFinite_assemble _ ha) h
  · rw [round32_of_overflow zs h]
    exact iff_of_false (by simp) (Nat.not_lt_of_le h)

theorem isInf_round32_iff {x : Int} (zs : Bool) (h0 : x ≠ 0) :
    isInf (round32 x zs) = true ↔ (2 ^ 25 - 1) * 2 ^ 401 ≤ x.natAbs := by
  rcases Nat.lt_or_ge x.natAbs ((2 ^ 25 - 1) * 2 ^ 401) with h | h
  · have hf := isInf_eq_false_of_isFinite ((isFinite_round32_iff zs h0).mpr h)
    exact iff_of_false (by simp [hf]) (Nat.not_le_of_lt h)
  · rw [round32_of_overflow zs h]
    exact iff_of_true (isInf_fpInf _) h

theorem isNaN_round32 {x : Int} (zs : Bool) (h0 : x ≠ 0) : isNaN (round32 x zs) = false := by
  rcases Nat.lt_or_ge x.natAbs ((2 ^ 25 - 1) * 2 ^ 401) with h | h
  · exact isNaN_eq_false_of_isFinite ((isFinite_round32_iff zs h0).mpr h)
  · rw [round32_of_overflow zs h]
    exact isNaN_fpInf _

/-! ### Distances -/

/-- The distance of a word on the side of `x` is that of the magnitudes. -/
theorem fpDistance_of_same_sign {x : Int} {w : Word} (h : fpSign w = decide (x < 0)) :
    fpDistance x w = ((x.natAbs : Int) - (fpMag w * 2 ^ 149 : Nat)).natAbs := by
  by_cases hx : x < 0
  · rw [fpDistance, fpVal_of_fpSign_true (h.trans (decide_eq_true hx))]
    omega
  · rw [fpDistance, fpVal_of_fpSign_false (h.trans (decide_eq_false hx))]
    omega

/-- The distance of a word on the other side of zero is the sum of the magnitudes. -/
theorem fpDistance_of_other_sign {x : Int} {w : Word} (h : fpSign w ≠ decide (x < 0)) :
    fpDistance x w = x.natAbs + fpMag w * 2 ^ 149 := by
  by_cases hx : x < 0
  · have hs : fpSign w = false := by simpa [hx] using h
    rw [fpDistance, fpVal_of_fpSign_false hs]
    omega
  · have hs : fpSign w = true := by simpa [hx] using h
    rw [fpDistance, fpVal_of_fpSign_true hs]
    omega

theorem natAbs_sub_le_fpDistance (x : Int) (w : Word) :
    ((x.natAbs : Int) - (fpMag w * 2 ^ 149 : Nat)).natAbs ≤ fpDistance x w := by
  by_cases h : fpSign w = decide (x < 0)
  · exact (fpDistance_of_same_sign h).ge
  · rw [fpDistance_of_other_sign h]
    omega

/-- Without overflow the rounded word's distance is that of the rounded magnitude. -/
theorem fpDistance_round32 {x : Int} (zs : Bool) (h0 : x ≠ 0) (h : x.natAbs < (2 ^ 25 - 1) * 2 ^ 401) :
    fpDistance x (round32 x zs) = ((x.natAbs : Int) - rounded x.natAbs).natAbs := by
  obtain ⟨heq, ha⟩ := round32_of_no_overflow zs h0 h
  rw [fpDistance_of_same_sign (fpSign_round32 zs h0), heq, fpMag_assemble _ ha, ← rounded_eq]

/-- No word is nearer than the rounded one (41_fp_numerics.md R131). -/
theorem fpDistance_round32_le {x : Int} (zs : Bool) (h0 : x ≠ 0) (h : x.natAbs < (2 ^ 25 - 1) * 2 ^ 401) (w : Word) :
    fpDistance x (round32 x zs) ≤ fpDistance x w := by
  rw [fpDistance_round32 zs h0 h]
  exact (rounded_nearest x.natAbs w).1.trans (natAbs_sub_le_fpDistance x w)

/-- At a tie between two words the rounded one is even (41_fp_numerics.md R131). -/
theorem getLsbD_zero_round32_of_tie {x : Int} (zs : Bool) (h0 : x ≠ 0) (h : x.natAbs < (2 ^ 25 - 1) * 2 ^ 401) {w : Word}
    (htie : fpDistance x (round32 x zs) = fpDistance x w) (hne : round32 x zs ≠ w) :
    (round32 x zs).getLsbD 0 = false := by
  obtain ⟨heq, ha⟩ := round32_of_no_overflow zs h0 h
  have hmag : fpMag (round32 x zs) * 2 ^ 149 = rounded x.natAbs := by rw [heq, fpMag_assemble _ ha, rounded_eq]
  have heven : significand x.natAbs % 2 = 0 := by
    obtain ⟨hle, hgrid⟩ := rounded_nearest x.natAbs w
    have hge := natAbs_sub_le_fpDistance x w
    rw [fpDistance_round32 zs h0 h] at htie
    by_cases hw : fpMag w * 2 ^ 149 = rounded x.natAbs
    · -- the same magnitude with the other sign is as near only where both are zero
      have hs : fpSign w ≠ decide (x < 0) := fun hs =>
        hne (eq_of_fpMag_eq ((fpSign_round32 zs h0).trans hs.symm) (by omega))
      rw [fpDistance_of_other_sign hs, hw] at htie
      have hzero : rounded x.natAbs = 0 := by omega
      have : significand x.natAbs = 0 := (Nat.mul_eq_zero.mp hzero).resolve_right (Nat.two_pow_pos _).ne'
      rw [this]
    · exact hgrid (by omega) hw
  rw [heq, getLsbD_zero_assemble _ ha, heven]
  rfl

/-- Settles O13: sign, overflow boundary, nearest and ties to even are facts about the rounded significand. -/
theorem roundIsNearestEven : Obligations.RoundIsNearestEven := by
  intro x zs h0
  refine ⟨?_, isNaN_round32 zs h0, isInf_round32_iff zs h0, fun hfin w _ => ?_⟩
  · rw [← fpSign_eq, fpSign_round32 zs h0, decide_eq_true_iff]
  · have h := (isFinite_round32_iff zs h0).mp hfin
    exact ⟨fpDistance_round32_le zs h0 h w, getLsbD_zero_round32_of_tie zs h0 h⟩

/-! ### Representable values -/

/-- A finite word's value lies below the overflow boundary. -/
theorem fpVal_no_overflow {w : Word} (h : isFinite w = true) : (fpVal w * 2 ^ 149).natAbs < (2 ^ 25 - 1) * 2 ^ 401 := by
  rw [Int.natAbs_mul, natAbs_fpVal]
  change fpMag w * 2 ^ 149 < _
  calc fpMag w * 2 ^ 149 ≤ (2 ^ 24 - 1) * 2 ^ 253 * 2 ^ 149 := Nat.mul_le_mul_right _ (fpMag_le_of_isFinite h)
    _ < (2 ^ 25 - 1) * 2 ^ 401 := by decide +kernel

/-- Rounding the value of a finite non-zero word gives that word: it is at distance 0. -/
theorem round32_fpVal {w : Word} (zs : Bool) (hfin : isFinite w = true) (h0 : fpVal w ≠ 0) :
    round32 (fpVal w * 2 ^ 149) zs = w := by
  have hx : fpVal w * 2 ^ 149 ≠ 0 := by omega
  have hle := fpDistance_round32_le zs hx (fpVal_no_overflow hfin) w
  unfold fpDistance at hle
  exact eq_of_fpVal_eq (by omega) h0

theorem round32_zero (zs : Bool) : round32 0 zs = fpZero zs := if_pos rfl

/-- Settles O14: no other word is as near to a finite word's value as that word. -/
theorem roundIsExactOnFinite : Obligations.RoundIsExactOnFinite := by
  refine ⟨fun w zs hfin hz => round32_fpVal zs hfin ?_, round32_zero false, round32_zero true⟩
  rw [ne_eq, fpVal_eq_zero_iff, hz]
  decide

end Sys2Proof.Machine
end

section
/-! The primitives (41_fp_numerics.md R132 to R136): what each gives in each case of its rule, and the signs and NaNs that a
cell sum keeps (R142, R145). -/

namespace Sys2Proof.Machine

/-! ### NaN results -/

/-- The NaN an operation returns is one that R132 allows. -/
theorem isReturnedNaN_nanResult (p : NanPolicy) (draws : Nat) :
    isReturnedNaN p draws (nanResult p draws).1 (nanResult p draws).2 := by
  cases p with
  | canonical => exact ⟨rfl, rfl⟩
  | anyQuiet =>
    refine ⟨?_, rfl⟩
    have hc : canonicalNaN.extractLsb' 22 9 = BitVec.allOnes 9 := by decide
    change (Config.nanDraw draws ||| canonicalNaN).extractLsb' 22 9 = _
    rw [BitVec.extractLsb'_or, hc, BitVec.or_allOnes]
    decide

/-- An operation gives a word that is no NaN only as its value. -/
theorem settle_ne {w : Word} (p : NanPolicy) (draws : Nat) {r : Option Word} (hw : isNaN w = false) (h : r ≠ some w) :
    (settle p draws r).1 ≠ w := by
  cases r with
  | none =>
    intro he
    have hn : isNaN (settle p draws none).1 = true := isNaN_nanResult p draws
    rw [he, hw] at hn
    exact absurd hn (by decide)
  | some v => exact fun hv => h (congrArg some hv)

/-! ### FMUL32 -/

/-- The operands for which R133 returns a NaN. -/
abbrev FmulInvalid (a b : Word) : Prop :=
  isNaN a = true ∨ isNaN b = true ∨ (isInf a = true ∧ isZero b = true) ∨ (isZero a = true ∧ isInf b = true)

theorem FmulInvalid.symm {a b : Word} : FmulInvalid a b → FmulInvalid b a := by
  rintro (h | h | h | h)
  · exact .inr (.inl h)
  · exact .inl h
  · exact .inr (.inr (.inr h.symm))
  · exact .inr (.inr (.inl h.symm))

theorem isFinite_of_not_fmulInvalid {a b : Word} (hv : ¬ FmulInvalid a b) (hi : ¬ (isInf a = true ∨ isInf b = true)) :
    isFinite a = true ∧ isFinite b = true :=
  ⟨isFinite_of_not (fun h => hv (.inl h)) fun h => hi (.inl h),
    isFinite_of_not (fun h => hv (.inr (.inl h))) fun h => hi (.inr h)⟩

theorem fmulVal_of_invalid {a b : Word} (h : FmulInvalid a b) : fmulVal a b = none := by
  unfold fmulVal
  obtain h | h | ⟨h, h'⟩ | ⟨h, h'⟩ := h <;> simp [*]

theorem fmulVal_of_isInf {a b : Word} (hv : ¬ FmulInvalid a b) (h : isInf a = true ∨ isInf b = true) :
    fmulVal a b = some (fpInf (fpSign a ^^ fpSign b)) := by
  simp only [FmulInvalid, not_or, Bool.not_eq_true] at hv
  obtain ⟨hna, hnb, hab, hba⟩ := hv
  simp [fmulVal, hna, hnb, hab, hba, h]

theorem fmulVal_of_isFinite {a b : Word} (ha : isFinite a = true) (hb : isFinite b = true) :
    fmulVal a b = some (round32 (fpVal a * fpVal b) (fpSign a ^^ fpSign b)) := by
  simp [fmulVal, isNaN_eq_false_of_isFinite, isInf_eq_false_of_isFinite, ha, hb]

theorem fmulVal_comm (a b : Word) : fmulVal b a = fmulVal a b := by
  by_cases hv : FmulInvalid a b
  · rw [fmulVal_of_invalid hv, fmulVal_of_invalid hv.symm]
  by_cases hi : isInf a = true ∨ isInf b = true
  · rw [fmulVal_of_isInf hv hi, fmulVal_of_isInf (fun h => hv h.symm) hi.symm, Bool.xor_comm]
  · obtain ⟨ha, hb⟩ := isFinite_of_not_fmulInvalid hv hi
    rw [fmulVal_of_isFinite ha hb, fmulVal_of_isFinite hb ha, Int.mul_comm, Bool.xor_comm]

/-- `FMUL32` has no branch on the state: the host binds the product, whose draws are counted. -/
theorem exec_fmul32 (a b : Word) (s : State) :
    exec (.fmul32 a b) s = .next (bindFp (settle s.cfg.nanPolicy s.draws (fmulVal a b)) s) := rfl

/-- Bits 30:0 of an infinity, as the statements write them. -/
theorem fpInf_view (s : Bool) : (fpInf s).getLsbD 31 = s ∧ (fpInf s).extractLsb' 0 31 = 0x7F800000#31 :=
  ⟨fpSign_fpInf s, (isInf_iff_extractLsb' _).mp (isInf_fpInf s)⟩

/-- Settles O15: the three cases of the product, each by its own equation, and the symmetry of all of them. -/
theorem fmulResult : Obligations.FmulResult := by
  intro a b s
  refine ⟨_, _, exec_fmul32 a b s, by rw [exec_fmul32, exec_fmul32, fmulVal_comm], fun h => ?_, fun h => ?_⟩
  · rw [fmulVal_of_invalid h]
    exact isReturnedNaN_nanResult _ _
  by_cases hi : isInf a = true ∨ isInf b = true
  · rw [fmulVal_of_isInf h hi]
    exact ⟨rfl, fun _ => fpInf_view _, fun hn => absurd hi hn⟩
  · obtain ⟨ha, hb⟩ := isFinite_of_not_fmulInvalid h hi
    rw [fmulVal_of_isFinite ha hb]
    exact ⟨rfl, fun hi' => absurd hi' hi, fun _ => rfl⟩

/-! ### FADD32 -/

/-- The operands for which R134 returns a NaN. -/
abbrev FaddInvalid (a b : Word) : Prop :=
  isNaN a = true ∨ isNaN b = true ∨ (isInf a = true ∧ isInf b = true ∧ a.getLsbD 31 ≠ b.getLsbD 31)

theorem FaddInvalid.symm {a b : Word} : FaddInvalid a b → FaddInvalid b a := by
  rintro (h | h | ⟨ha, hb, h⟩)
  · exact .inr (.inl h)
  · exact .inl h
  · exact .inr (.inr ⟨hb, ha, h.symm⟩)

theorem faddVal_of_invalid {a b : Word} (h : FaddInvalid a b) : faddVal a b = none := by
  unfold faddVal
  obtain h | h | ⟨ha, hb, h⟩ := h
  · simp [h]
  · simp [h]
  · have hs : ¬ fpSign a = fpSign b := h
    simp [ha, hb, hs]

theorem faddVal_of_isInf_left {a b : Word} (hv : ¬ FaddInvalid a b) (h : isInf a = true) : faddVal a b = some a := by
  simp only [FaddInvalid, not_or, Bool.not_eq_true] at hv
  obtain ⟨hna, hnb, hab⟩ := hv
  unfold faddVal
  by_cases hb : isInf b = true
  · have hs : fpSign a = fpSign b := not_not.mp fun hs => hab ⟨h, hb, hs⟩
    simp [hna, hnb, h, hb, hs]
  · simp [hna, hnb, h, hb]

theorem faddVal_of_isInf_right {a b : Word} (hv : ¬ FaddInvalid a b) (h : isInf b = true) : faddVal a b = some b := by
  by_cases ha : isInf a = true
  · have hs : fpSign a = fpSign b := not_not.mp fun hs => hv (.inr (.inr ⟨ha, h, hs⟩))
    rw [faddVal_of_isInf_left hv ha, eq_of_isInf ha h hs]
  · simp only [FaddInvalid, not_or, Bool.not_eq_true] at hv
    obtain ⟨hna, hnb, -⟩ := hv
    simp [faddVal, hna, hnb, ha, h]

theorem isFinite_of_not_faddInvalid {a b : Word} (hv : ¬ FaddInvalid a b) (ha : ¬ isInf a = true) (hb : ¬ isInf b = true) :
    isFinite a = true ∧ isFinite b = true :=
  ⟨isFinite_of_not (fun h => hv (.inl h)) ha, isFinite_of_not (fun h => hv (.inr (.inl h))) hb⟩

/-- The sum of two finite words by R134: two zeros, an exact cancellation, or one rounding. -/
theorem faddVal_of_isFinite {a b : Word} (ha : isFinite a = true) (hb : isFinite b = true) :
    faddVal a b = some
      (if fpVal a + fpVal b = 0 then fpZero (isZero a && isZero b && (fpSign a && fpSign b))
        else round32 ((fpVal a + fpVal b) * 2 ^ 149) false) := by
  simp only [faddVal, isNaN_eq_false_of_isFinite, isInf_eq_false_of_isFinite, ha, hb, Bool.or_self, Bool.and_self,
    Bool.false_eq_true, if_false]
  split
  · cases isZero a && isZero b <;> simp [fpZero_false]
  · rfl

theorem faddVal_comm (a b : Word) : faddVal b a = faddVal a b := by
  by_cases hv : FaddInvalid a b
  · rw [faddVal_of_invalid hv, faddVal_of_invalid hv.symm]
  have hv' : ¬ FaddInvalid b a := fun h => hv h.symm
  by_cases ha : isInf a = true
  · rw [faddVal_of_isInf_left hv ha, faddVal_of_isInf_right hv' ha]
  by_cases hb : isInf b = true
  · rw [faddVal_of_isInf_right hv hb, faddVal_of_isInf_left hv' hb]
  · obtain ⟨hfa, hfb⟩ := isFinite_of_not_faddInvalid hv ha hb
    rw [faddVal_of_isFinite hfa hfb, faddVal_of_isFinite hfb hfa, Int.add_comm, Bool.and_comm (isZero b),
      Bool.and_comm (fpSign b)]

/-- `FADD32` has no branch on the state: the host binds the sum, whose draws are counted. -/
theorem exec_fadd32 (a b : Word) (s : State) :
    exec (.fadd32 a b) s = .next (bindFp (settle s.cfg.nanPolicy s.draws (faddVal a b)) s) := rfl

/-- R134 for operands that do not make a NaN. -/
theorem faddVal_of_not_invalid {a b : Word} (hv : ¬ FaddInvalid a b) :
    ∃ r, faddVal a b = some r ∧ (isInf a = true → r = a) ∧ (isInf b = true → r = b) ∧
      (isInf a = false → isInf b = false →
        (isZero a = true → isZero b = true → r = fpZero (fpSign a && fpSign b)) ∧
        (¬ (isZero a = true ∧ isZero b = true) → fpVal a + fpVal b = 0 → r = fpZero false) ∧
        (fpVal a + fpVal b ≠ 0 → r = round32 ((fpVal a + fpVal b) * 2 ^ 149) false)) := by
  by_cases ha : isInf a = true
  · exact ⟨a, faddVal_of_isInf_left hv ha, fun _ => rfl,
      fun hb => Option.some.inj ((faddVal_of_isInf_left hv ha).symm.trans (faddVal_of_isInf_right hv hb)),
      fun h => absurd ha (by simp [h])⟩
  by_cases hb : isInf b = true
  · exact ⟨b, faddVal_of_isInf_right hv hb, fun h => absurd h ha, fun _ => rfl, fun _ h => absurd hb (by simp [h])⟩
  obtain ⟨hfa, hfb⟩ := isFinite_of_not_faddInvalid hv ha hb
  refine ⟨_, faddVal_of_isFinite hfa hfb, fun h => absurd h ha, fun h => absurd h hb, fun _ _ => ⟨fun hza hzb => ?_,
    fun hz h0 => ?_, fun h0 => if_neg h0⟩⟩
  · have h0 : fpVal a + fpVal b = 0 := by rw [(fpVal_eq_zero_iff a).mpr hza, (fpVal_eq_zero_iff b).mpr hzb, Int.add_zero]
    rw [if_pos h0, hza, hzb, Bool.true_and, Bool.true_and]
  · have hz' : (isZero a && isZero b) = false := by
      rw [Bool.eq_false_iff, ne_eq, Bool.and_eq_true]
      exact hz
    rw [if_pos h0, hz', Bool.false_and]

/-- Settles O16: the cases of the sum, each by its own equation, and the symmetry of all of them. -/
theorem faddResult : Obligations.FaddResult := by
  intro a b s
  refine ⟨_, _, exec_fadd32 a b s, by rw [exec_fadd32, exec_fadd32, faddVal_comm], fun h => ?_, fun h => ?_⟩
  · rw [faddVal_of_invalid h]
    exact isReturnedNaN_nanResult _ _
  · obtain ⟨r, hr, ha, hb, hfin⟩ := faddVal_of_not_invalid h
    rw [hr, ← fpZero_eq_bif]
    exact ⟨rfl, ha, hb, hfin⟩

/-! ### FMA32 -/

/-- The operands for which R135 returns a NaN. -/
abbrev FmaInvalid (a b c : Word) : Prop :=
  isNaN a = true ∨ isNaN b = true ∨ isNaN c = true ∨ (isInf a = true ∧ isZero b = true) ∨
    (isZero a = true ∧ isInf b = true) ∨
    ((isInf a = true ∨ isInf b = true) ∧ isInf c = true ∧ c.getLsbD 31 ≠ (a.getLsbD 31 ^^ b.getLsbD 31))

theorem fmaVal_of_invalid {a b c : Word} (h : FmaInvalid a b c) : fmaVal a b c = none := by
  unfold fmaVal
  obtain h | h | h | ⟨h, h'⟩ | ⟨h, h'⟩ | ⟨hab, hc, hs⟩ := h
  · simp [h]
  · simp [h]
  · simp [h]
  · simp [h, h']
  · simp [h, h']
  · have hs : ¬ fpSign c = (fpSign a ^^ fpSign b) := hs
    simp [hab, hc, hs]

theorem fmaVal_of_isInf_product {a b c : Word} (hv : ¬ FmaInvalid a b c) (h : isInf a = true ∨ isInf b = true) :
    fmaVal a b c = some (fpInf (fpSign a ^^ fpSign b)) := by
  simp only [FmaInvalid, not_or, Bool.not_eq_true] at hv
  obtain ⟨hna, hnb, hnc, hab, hba, hc⟩ := hv
  have hs : isInf c = true → fpSign c = (fpSign a ^^ fpSign b) := fun hi => not_not.mp fun hs => hc ⟨h, hi, hs⟩
  simpa [fmaVal, hna, hnb, hnc, hab, hba, h] using hs

theorem isFinite_of_not_fmaInvalid {a b c : Word} (hv : ¬ FmaInvalid a b c) (hi : ¬ (isInf a = true ∨ isInf b = true)) :
    isFinite a = true ∧ isFinite b = true :=
  ⟨isFinite_of_not (fun h => hv (.inl h)) fun h => hi (.inl h),
    isFinite_of_not (fun h => hv (.inr (.inl h))) fun h => hi (.inr h)⟩

theorem fmaVal_of_isInf_addend {a b c : Word} (ha : isFinite a = true) (hb : isFinite b = true) (hc : isInf c = true) :
    fmaVal a b c = some c := by
  simp [fmaVal, isNaN_eq_false_of_isFinite, isInf_eq_false_of_isFinite, isNaN_eq_false_of_isInf, ha, hb, hc]

/-- The fused result of three finite words by R135: two zeros, an exact cancellation, or one rounding. -/
theorem fmaVal_of_isFinite {a b c : Word} (ha : isFinite a = true) (hb : isFinite b = true) (hc : isFinite c = true) :
    fmaVal a b c = some
      (if fpVal a * fpVal b + fpVal c * 2 ^ 149 = 0 then
        fpZero (decide (fpVal a * fpVal b = 0) && isZero c && ((fpSign a ^^ fpSign b) && fpSign c))
      else round32 (fpVal a * fpVal b + fpVal c * 2 ^ 149) false) := by
  simp only [fmaVal, isNaN_eq_false_of_isFinite, isInf_eq_false_of_isFinite, ha, hb, hc, Bool.or_self, Bool.false_and,
    Bool.and_false, Bool.false_eq_true, if_false]
  split
  · by_cases hz : fpVal a * fpVal b = 0 ∧ isZero c = true
    · rw [if_pos hz, hz.2, decide_eq_true hz.1, Bool.true_and, Bool.true_and]
    · have hz' : (decide (fpVal a * fpVal b = 0) && isZero c) = false := by
        rw [Bool.eq_false_iff, ne_eq, Bool.and_eq_true, decide_eq_true_iff]
        exact hz
      rw [if_neg hz, hz', Bool.false_and, fpZero_false]
  · rfl

/-- `FMA32` has no branch on the state: the host binds the fused result, whose draws are counted. -/
theorem exec_fma32 (a b c : Word) (s : State) :
    exec (.fma32 a b c) s = .next (bindFp (settle s.cfg.nanPolicy s.draws (fmaVal a b c)) s) := rfl

/-- R135 for operands that do not make a NaN. -/
theorem fmaVal_of_not_invalid {a b c : Word} (hv : ¬ FmaInvalid a b c) :
    ∃ r, fmaVal a b c = some r ∧
      (isInf a = true ∨ isInf b = true → r = fpInf (fpSign a ^^ fpSign b)) ∧
      (¬ (isInf a = true ∨ isInf b = true) → isInf c = true → r = c) ∧
      (¬ (isInf a = true ∨ isInf b = true) → isInf c = false →
        (fpVal a * fpVal b + fpVal c * 2 ^ 149 ≠ 0 → r = round32 (fpVal a * fpVal b + fpVal c * 2 ^ 149) false) ∧
        (fpVal a * fpVal b + fpVal c * 2 ^ 149 = 0 →
          r = fpZero (decide (fpVal a * fpVal b = 0) && isZero c && ((fpSign a ^^ fpSign b) && fpSign c)))) := by
  by_cases hi : isInf a = true ∨ isInf b = true
  · exact ⟨_, fmaVal_of_isInf_product hv hi, fun _ => rfl, absurd hi, absurd hi⟩
  obtain ⟨ha, hb⟩ := isFinite_of_not_fmaInvalid hv hi
  by_cases hc : isInf c = true
  · exact ⟨_, fmaVal_of_isInf_addend ha hb hc, fun h => absurd h hi, fun _ _ => rfl, fun _ h => absurd hc (by simp [h])⟩
  · have hfc := isFinite_of_not (fun h => hv (.inr (.inr (.inl h)))) hc
    exact ⟨_, fmaVal_of_isFinite ha hb hfc, fun h => absurd h hi, fun _ h => absurd h hc,
      fun _ _ => ⟨fun h0 => if_neg h0, fun h0 => if_pos h0⟩⟩

/-- Settles O17: the cases of the fused result, each by its own equation. -/
theorem fmaResult : Obligations.FmaResult := by
  intro a b c s
  refine ⟨_, _, exec_fma32 a b c s, fun h => ?_, fun h => ?_⟩
  · rw [fmaVal_of_invalid h]
    exact isReturnedNaN_nanResult _ _
  · obtain ⟨r, hr, hinf, hc, hfin⟩ := fmaVal_of_not_invalid h
    rw [hr, ← fpZero_eq_bif]
    refine ⟨rfl, fun hi => hinf hi ▸ fpInf_view _, hc, fun hi hci => ?_⟩
    obtain ⟨hsum, hzero⟩ := hfin hi hci
    refine ⟨hsum, fun h0 => ⟨fun hp hz => ?_, fun hn => ?_⟩⟩
    · rw [settle_some, hzero h0, hz, decide_eq_true hp]
      rfl
    · have hn' : (decide (fpVal a * fpVal b = 0) && isZero c) = false := by
        rw [Bool.eq_false_iff, ne_eq, Bool.and_eq_true, decide_eq_true_iff]
        exact hn
      rw [settle_some, hzero h0, hn', Bool.false_and, fpZero_false]

/-! ### MAC -/

/-- Settles O18: the accumulation step is by definition the two primitives in sequence, or the fused one. -/
theorem macResult : Obligations.MacResult := by
  intro acc a b s
  refine ⟨_, _, rfl, fun h => ⟨_, exec_fmul32 a b s, ?_⟩, fun h => ?_⟩
  · rw [h]
    rfl
  · rw [h]
    rfl

/-- Settles O21: a NaN operand makes the sum and the fused result a NaN. -/
theorem naNAccumulatorStaysNaN : Obligations.NaNAccumulatorStaysNaN := by
  intro mode p draws acc a b h
  cases mode with
  | separate =>
    change isNaN (settle p _ (faddVal acc _)).1 = true
    rw [faddVal_of_invalid (.inl h)]
    exact isNaN_nanResult _ _
  | fused =>
    change isNaN (settle p _ (fmaVal a b acc)).1 = true
    rw [fmaVal_of_invalid (.inr (.inr (.inl h)))]
    exact isNaN_nanResult _ _

/-! ### No cell sum in separate mode is -0 -/

theorem eq_negZero_iff (w : Word) : w = 0x80000000#32 ↔ isZero w = true ∧ fpSign w = true := by
  constructor
  · rintro rfl
    decide
  · rintro ⟨hz, hs⟩
    exact eq_of_isZero hz (by decide) hs

theorem fpDistance_mul (k : Int) (w : Word) : fpDistance (k * 2 ^ 149) w = (k - fpVal w).natAbs * 2 ^ 149 := by
  rw [fpDistance, ← Int.sub_mul, Int.natAbs_mul]
  rfl

/-- A non-zero multiple of the smallest subnormal does not underflow: a subnormal word is nearer than zero. -/
theorem isZero_round32_mul {k : Int} (zs : Bool) (h0 : k ≠ 0) : isZero (round32 (k * 2 ^ 149) zs) = false := by
  rw [Bool.eq_false_iff]
  intro hz
  have hx : k * 2 ^ 149 ≠ 0 := by omega
  have hno : (k * 2 ^ 149).natAbs < (2 ^ 25 - 1) * 2 ^ 401 := by
    rw [← isFinite_round32_iff zs hx]
    exact isFinite_of_isZero hz
  have hle (w : Word) : (k - 0).natAbs ≤ (k - fpVal w).natAbs := by
    have h := fpDistance_round32_le zs hx hno w
    rw [fpDistance_mul, fpDistance_mul, (fpVal_eq_zero_iff _).mpr hz] at h
    exact Nat.le_of_mul_le_mul_right h (Nat.two_pow_pos _)
  have hpos := hle 0x00000001#32
  have hneg := hle 0x80000001#32
  rw [show fpVal 0x00000001#32 = 1 by decide] at hpos
  rw [show fpVal 0x80000001#32 = -1 by decide] at hneg
  omega

/-- A sum is -0 only where its left operand is (41_fp_numerics.md R142). -/
theorem faddVal_ne_negZero {a b : Word} (h : a ≠ 0x80000000#32) : faddVal a b ≠ some 0x80000000#32 := by
  by_cases hv : FaddInvalid a b
  · rw [faddVal_of_invalid hv]
    exact (Option.some_ne_none _).symm
  by_cases ha : isInf a = true
  · rw [faddVal_of_isInf_left hv ha]
    exact fun he => h (Option.some.inj he)
  by_cases hb : isInf b = true
  · rw [faddVal_of_isInf_right hv hb]
    intro he
    rw [Option.some.inj he] at hb
    exact absurd hb (by decide)
  obtain ⟨hfa, hfb⟩ := isFinite_of_not_faddInvalid hv ha hb
  rw [faddVal_of_isFinite hfa hfb, ne_eq, Option.some.injEq, eq_negZero_iff]
  rintro ⟨hz, hs⟩
  by_cases h0 : fpVal a + fpVal b = 0
  · rw [if_pos h0, fpSign_fpZero, Bool.and_eq_true, Bool.and_eq_true, Bool.and_eq_true] at hs
    obtain ⟨⟨hza, -⟩, hsa, -⟩ := hs
    exact h ((eq_negZero_iff a).mpr ⟨hza, hsa⟩)
  · rw [if_neg h0, isZero_round32_mul false h0] at hz
    exact absurd hz (by decide)

theorem mac_separate_ne_negZero (p : NanPolicy) (draws : Nat) {acc : Word} (a b : Word) (h : acc ≠ 0x80000000#32) :
    (mac .separate p draws acc a b).1 ≠ 0x80000000#32 :=
  settle_ne p _ (by decide) (faddVal_ne_negZero h)

/-- A cell sum is `+0.0`, or one accumulation step after a shorter one (41_fp_numerics.md R137). -/
theorem accumulate_succ_some {c : Config} {a b : Cells} {draws ia ib m : Nat} {r : Word × Nat}
    (h : accumulate c a b draws ia ib (m + 1) = some r) :
    ∃ acc x y, accumulate c a b draws ia ib m = some acc ∧ r = mac c.macMode c.nanPolicy acc.2 acc.1 x y := by
  rw [accumulate] at h
  split at h
  · rename_i acc x y hacc _ _
    exact ⟨acc, x, y, hacc, (Option.some.inj h).symm⟩
  · cases h

/-- Settles O20, by induction on the steps: the start is `+0`, and no sum is -0 whose left operand is not. -/
theorem separateSumNeverNegativeZero : Obligations.SeparateSumNeverNegativeZero := by
  intro c a b draws ia ib m r hmode hr
  induction m generalizing r with
  | zero =>
    obtain rfl := Option.some.inj hr
    exact (by decide : 0x00000000#32 ≠ 0x80000000#32)
  | succ m ih =>
    obtain ⟨acc, x, y, hacc, rfl⟩ := accumulate_succ_some hr
    rw [hmode]
    exact mac_separate_ne_negZero _ _ x y (ih acc hacc)

end Sys2Proof.Machine
end

section
/-! Exactness (41_fp_numerics.md R143): where binary32 represents the exact product, sum or fused result, it is the result; and
cells of integers. -/

namespace Sys2Proof.Machine

/-! ### Representable results of the primitives -/

/-- Rounding a represented value gives a zero of the passed sign, or the word that represents it. -/
theorem round32_of_represented {w : Word} (zs : Bool) (hw : isFinite w = true) :
    round32 (fpVal w * 2 ^ 149) zs = if isZero w = true then fpZero zs else w := by
  split
  · rename_i hz
    rw [(fpVal_eq_zero_iff w).mpr hz, Int.zero_mul, round32_zero]
  · rename_i hz
    exact round32_fpVal zs hw (mt (fpVal_eq_zero_iff w).mp hz)

theorem fmulVal_of_represented {a b w : Word} (ha : isFinite a = true) (hb : isFinite b = true) (hw : isFinite w = true)
    (h : fpVal a * fpVal b = fpVal w * 2 ^ 149) :
    fmulVal a b = some (if isZero w = true then fpZero (fpSign a ^^ fpSign b) else w) := by
  rw [fmulVal_of_isFinite ha hb, h, round32_of_represented _ hw]

theorem faddVal_of_represented {a b w : Word} (ha : isFinite a = true) (hb : isFinite b = true) (hw : isFinite w = true)
    (h : fpVal a + fpVal b = fpVal w) :
    faddVal a b =
      some (if isZero w = true then fpZero (isZero a && isZero b && (fpSign a && fpSign b)) else w) := by
  rw [faddVal_of_isFinite ha hb, h, round32_of_represented _ hw]
  by_cases hz : isZero w = true
  · rw [if_pos ((fpVal_eq_zero_iff w).mpr hz), if_pos hz]
  · rw [if_neg (mt (fpVal_eq_zero_iff w).mp hz), if_neg hz, if_neg hz]

theorem fmaVal_of_represented {a b c w : Word} (ha : isFinite a = true) (hb : isFinite b = true) (hc : isFinite c = true)
    (hw : isFinite w = true) (h : fpVal a * fpVal b + fpVal c * 2 ^ 149 = fpVal w * 2 ^ 149) :
    fmaVal a b c = some (if isZero w = true then
      fpZero (decide (fpVal a * fpVal b = 0) && isZero c && ((fpSign a ^^ fpSign b) && fpSign c)) else w) := by
  rw [fmaVal_of_isFinite ha hb hc, h, round32_of_represented _ hw]
  by_cases hz : isZero w = true
  · have h0 : fpVal w * 2 ^ 149 = 0 := by rw [(fpVal_eq_zero_iff w).mpr hz, Int.zero_mul]
    rw [if_pos h0, if_pos hz]
  · have h0 : fpVal w * 2 ^ 149 ≠ 0 := by
      have := mt (fpVal_eq_zero_iff w).mp hz
      omega
    rw [if_neg h0, if_neg hz, if_neg hz]

/-- Separate mode in the values of the primitives (41_fp_numerics.md R136). -/
theorem mac_separate_canonical (c a b : Word) : mac .separate .canonical 0 c a b =
    ((faddVal c ((fmulVal a b).getD canonicalNaN)).getD canonicalNaN, 0) := by
  simp only [mac, fmul32, fadd32, settle_canonical]

/-- Fused mode in the value of the primitive (41_fp_numerics.md R136). -/
theorem mac_fused_canonical (c a b : Word) : mac .fused .canonical 0 c a b = ((fmaVal a b c).getD canonicalNaN, 0) :=
  settle_canonical 0 (fmaVal a b c)

/-- With a represented product and a represented sum both modes give one word (41_fp_numerics.md R136, R143). -/
theorem mac_of_represented {a b c w p : Word} (ha : isFinite a = true) (hb : isFinite b = true) (hc : isFinite c = true)
    (hw : isFinite w = true) (hp : isFinite p = true) (hprod : fpVal a * fpVal b = fpVal p * 2 ^ 149)
    (hsum : fpVal c + fpVal p = fpVal w) (mode : MacMode) :
    mac mode .canonical 0 c a b =
      (if isZero w = true then fpZero (isZero c && isZero p && (fpSign c && (fpSign a ^^ fpSign b))) else w, 0) := by
  cases mode with
  | separate =>
    rw [mac_separate_canonical, fmulVal_of_represented ha hb hp hprod, Option.getD_some]
    by_cases hz : isZero p = true
    · have hval : fpVal p = 0 := (fpVal_eq_zero_iff p).mpr hz
      rw [if_pos hz, faddVal_of_represented hc (isFinite_fpZero _) hw (by rw [fpVal_fpZero, ← hval, hsum])]
      simp [hz]
    · rw [if_neg hz, faddVal_of_represented hc hp hw hsum]
      simp [hz]
  | fused =>
    have hdec : decide (fpVal a * fpVal b = 0) = isZero p := by
      rw [Bool.eq_iff_iff, decide_eq_true_iff, ← fpVal_eq_zero_iff, hprod]
      omega
    have hfused : fpVal a * fpVal b + fpVal c * 2 ^ 149 = fpVal w * 2 ^ 149 := by
      rw [hprod, ← hsum]
      ring
    rw [mac_fused_canonical, fmaVal_of_represented ha hb hc hw hfused, hdec, Option.getD_some,
      Bool.and_comm (isZero p), Bool.and_comm (fpSign c)]

/-! ### Integers up to `2^24` -/

theorem assembles_of_le {n e : Nat} (hn : n ≤ 2 ^ 24) (he : e ≤ 252) (h : n < 2 ^ 23 → e = 0) : Assembles n e where
  le := hn
  normal := h
  bounded :=
    calc n * 2 ^ (149 + e) ≤ 2 ^ 24 * 2 ^ 401 := Nat.mul_le_mul hn (pow_le_pow_right₀ one_le_two (by omega))
      _ < 2 ^ 426 := by decide +kernel

/-- Every `n * 2^e` with `n` up to `2^24` is the magnitude of a word, well below the overflow. -/
theorem exists_fpMag_eq (s : Bool) {n e : Nat} (hn : n ≤ 2 ^ 24) (he : e ≤ 252) :
    ∃ w : Word, isFinite w = true ∧ fpSign w = s ∧ fpMag w = n * 2 ^ e := by
  induction e generalizing n with
  | zero =>
    have h := assembles_of_le hn he fun _ => rfl
    exact ⟨assemble s n 0, isFinite_assemble s h, fpSign_assemble .., fpMag_assemble s h⟩
  | succ e ih =>
    by_cases hsmall : n < 2 ^ 23
    · obtain ⟨w, hfin, hs, hm⟩ := ih (n := 2 * n) (by omega) (by omega)
      exact ⟨w, hfin, hs, by rw [hm]; ring⟩
    · have h := assembles_of_le hn he fun hlt => absurd hlt hsmall
      exact ⟨assemble s n (e + 1), isFinite_assemble s h, fpSign_assemble .., fpMag_assemble s h⟩

/-- Binary32 represents every integer of magnitude up to `2^24`. -/
theorem exists_fpVal_eq_integer {n : Int} (hn : n.natAbs ≤ 2 ^ 24) :
    ∃ w : Word, isFinite w = true ∧ fpVal w = n * 2 ^ 149 := by
  obtain ⟨w, hfin, hs, hm⟩ := exists_fpMag_eq (decide (n < 0)) hn (show 149 ≤ 252 by decide)
  refine ⟨w, hfin, ?_⟩
  by_cases h : n < 0
  · rw [fpVal_of_fpSign_true (hs.trans (decide_eq_true h)), hm]
    omega
  · rw [fpVal_of_fpSign_false (hs.trans (decide_eq_false h)), hm]
    omega

/-- One accumulation step on integers: from an accumulator that is not -0, the exact sum, and again not -0. -/
theorem mac_of_integers {a b c : Word} {u v n : Int} (mode : MacMode) (ha : isFinite a = true) (hb : isFinite b = true)
    (hc : isFinite c = true) (hu : fpVal a = u * 2 ^ 149) (hv : fpVal b = v * 2 ^ 149) (hn : fpVal c = n * 2 ^ 149)
    (hprod : (u * v).natAbs ≤ 2 ^ 24) (hsum : (n + u * v).natAbs ≤ 2 ^ 24) (hneg : c ≠ 0x80000000#32) :
    isFinite (mac mode .canonical 0 c a b).1 = true ∧
      fpVal (mac mode .canonical 0 c a b).1 = (n + u * v) * 2 ^ 149 ∧
      (mac mode .canonical 0 c a b).1 ≠ 0x80000000#32 := by
  obtain ⟨p, hp, hpv⟩ := exists_fpVal_eq_integer hprod
  obtain ⟨w, hw, hwv⟩ := exists_fpVal_eq_integer hsum
  have hpos : (isZero c && isZero p && (fpSign c && (fpSign a ^^ fpSign b))) = false := by
    rw [Bool.eq_false_iff]
    intro h
    simp only [Bool.and_eq_true] at h
    obtain ⟨⟨hz, -⟩, hs, -⟩ := h
    exact hneg ((eq_negZero_iff c).mpr ⟨hz, hs⟩)
  rw [mac_of_represented ha hb hc hw hp (by rw [hu, hv, hpv]; ring) (by rw [hn, hpv, hwv]; ring) mode, hpos]
  by_cases hz : isZero w = true
  · simp only [if_pos hz]
    exact ⟨isFinite_fpZero _, by rw [fpVal_fpZero, ← hwv, (fpVal_eq_zero_iff w).mpr hz], by decide⟩
  · simp only [if_neg hz]
    exact ⟨hw, hwv, fun h => hz ((eq_negZero_iff w).mp h).1⟩

/-- Settles O19: the equations of represented results, and for cells an induction on the steps. -/
theorem exactResultsAreExact : Obligations.ExactResultsAreExact := by
  refine ⟨fun a b c w p ha hb hc hw hp => ⟨fun h => ?_, fun h => ?_, fun hprod hsum mode => ?_⟩, ?_⟩
  · rw [fmulVal_of_represented ha hb hw h, fpZero_eq]
    rfl
  · rw [faddVal_of_represented ha hb hw h, fpZero_eq, ← Bool.and_assoc]
    rfl
  · rw [mac_of_represented ha hb hc hw hp hprod hsum mode, fpZero_eq, ← Bool.and_assoc]
    rfl
  · intro x y u v sum m hcell h0 hbound mode
    induction m with
    | zero =>
      rw [h0]
      exact (by decide : isFinite 0x00000000#32 = true ∧ fpVal 0x00000000#32 = 0 * 2 ^ 149 ∧
        0x00000000#32 ≠ 0x80000000#32)
    | succ m ih =>
      obtain ⟨hfin, hval, hneg⟩ := ih (fun k hk => hcell k (by omega)) fun k hk => hbound k (by omega)
      obtain ⟨hx, hy, hu, hv, hprod, hsum⟩ := hcell m (Nat.lt_succ_self m)
      rw [hsum]
      exact mac_of_integers mode hx hy hfin hu hv hval hprod (hsum ▸ hbound (m + 1) le_rfl) hneg

end Sys2Proof.Machine
end

section
/-! The Compute Kernel's four steps (42_compute_kernel.md R161 to R165): what each does where its phase selects it and its
input or output is available, and that it waits where it is not. -/

namespace Sys2Proof.Machine

/-! ### The sequencer -/

/-- The sequencer's move in phase `p` (10_state.md R29). -/
theorem advance_of_phase {c : Config} {k : Kernel} {p : Phase} (hp : k.phase = p) :
    advance c k = { k with
      phase := if k.idx + 1 = c.n then nextPhase p else p
      idx := if k.idx + 1 = c.n then 0 else k.idx + 1 } := by
  rw [advance_eq, hp]

/-! ### The load steps -/

theorem exec_kLoadA_wait {s : State} (hq : s.inq = []) : exec .kLoadA s = .next s := by
  change execKLoadA s = .next s
  rw [execKLoadA, hq, ite_self]

theorem exec_kLoadA_pop {s : State} {w : StreamWord} {q : List StreamWord} (hp : s.k.phase = .loadA) (hq : s.inq = w :: q) :
    exec .kLoadA s =
      .next { s with inq := q, k := advance s.cfg { s.k with a := insertAt s.k.idx w.data s.k.a } } := by
  change execKLoadA s = _
  rw [execKLoadA, if_pos hp, hq]
  rfl

/-- Settles O22: with an empty stream the step waits, else it writes the head's payload at the index and advances. -/
theorem kLoadAStep : Obligations.KLoadAStep := by
  intro s hp
  refine ⟨exec_kLoadA_wait, fun w q hq => ⟨insertAt s.k.idx w.data s.k.a, ?_, lookup_insertAt_same ..,
    fun j hj => lookup_insertAt_other _ _ hj⟩⟩
  rw [exec_kLoadA_pop hp hq, advance_eq]
  simp only [hp, nextPhase]

theorem exec_kLoadB_wait {s : State} (hq : s.inq = []) : exec .kLoadB s = .next s := by
  change execKLoadB s = .next s
  rw [execKLoadB, hq, ite_self]

theorem exec_kLoadB_pop {s : State} {w : StreamWord} {q : List StreamWord} (hp : s.k.phase = .loadB) (hq : s.inq = w :: q) :
    exec .kLoadB s =
      .next { s with inq := q, k := advance s.cfg { s.k with b := insertAt s.k.idx w.data s.k.b } } := by
  change execKLoadB s = _
  rw [execKLoadB, if_pos hp, hq]
  rfl

/-- Settles O23: as for operand A; the word goes into operand B as it arrives. -/
theorem kLoadBStep : Obligations.KLoadBStep := by
  intro s hp
  refine ⟨exec_kLoadB_wait, fun w q hq => ⟨insertAt s.k.idx w.data s.k.b, ?_, lookup_insertAt_same ..,
    fun j hj => lookup_insertAt_other _ _ hj⟩⟩
  rw [exec_kLoadB_pop hp hq, advance_eq]
  simp only [hp, nextPhase]

/-! ### The cell step -/

/-- The accumulator and the count of draws after `m` steps over the words `x` and `y` (41_fp_numerics.md R137). -/
def accSteps (c : Config) (draws : Nat) (x y : Nat → Word) : Nat → Word × Nat
  | 0     => (0x00000000#32, draws)
  | m + 1 => mac c.macMode c.nanPolicy (accSteps c draws x y m).2 (accSteps c draws x y m).1 (x m) (y m)

/-- Over written cells the model's sum is the accumulation of their words. -/
theorem accumulate_eq_accSteps {c : Config} {a b : Cells} (draws : Nat) {ia ib m : Nat} {x y : Nat → Word}
    (h : ∀ k < m, lookup (cellIndex c ia k) a = some (x k) ∧ lookup (cellIndex c k ib) b = some (y k)) :
    accumulate c a b draws ia ib m = some (accSteps c draws x y m) := by
  induction m with
  | zero => rfl
  | succ m ih =>
    obtain ⟨hx, hy⟩ := h m (Nat.lt_succ_self m)
    exact accumulate_succ (ih fun k hk => h k (Nat.lt_succ_of_lt hk)) hx hy

theorem exec_kCell_sum {s : State} {acc : Word × Nat} (hp : s.k.phase = .compute)
    (ha : accumulate s.cfg s.k.a s.k.b s.draws (rowOf s.cfg s.k.idx) (colOf s.cfg s.k.idx) s.cfg.dim = some acc) :
    exec .kCell s =
      .next { s with draws := acc.2, k := advance s.cfg { s.k with out := insertAt s.k.idx acc.1 s.k.out } } := by
  change execKCell s = _
  rw [execKCell, if_pos hp, ha]

/-- Settles O24: row and column are written, so the sum is the accumulation of their words, and it goes to the index. -/
theorem kCellStep : Obligations.KCellStep := by
  intro s x y hp hcells
  have hsum := accumulate_eq_accSteps (ia := rowOf s.cfg s.k.idx) (ib := colOf s.cfg s.k.idx) s.draws hcells
  refine ⟨accSteps s.cfg s.draws x y, insertAt s.k.idx (accSteps s.cfg s.draws x y s.cfg.dim).1 s.k.out, rfl,
    fun _ _ => rfl, ?_, lookup_insertAt_same .., fun j hj => lookup_insertAt_other _ _ hj⟩
  rw [exec_kCell_sum hp hsum, advance_eq]
  simp only [hp, nextPhase]

/-! ### The store step -/

theorem exec_kStore_wait {s : State} (hr : ¬ roomIn s.outq s.cfg.outDepth) : exec .kStore s = .next s := by
  change execKStore s = .next s
  rw [execKStore, if_neg (mt (hasRoom_iff ..).mp hr), ite_self]

theorem exec_kStore_push {s : State} {v : Word} (hp : s.k.phase = .store) (hr : roomIn s.outq s.cfg.outDepth)
    (hv : lookup s.k.idx s.k.out = some v) :
    exec .kStore s =
      .next { s with outq := s.outq ++ [encodeWord v (lastIndex s.cfg s.k.idx)], k := advance s.cfg s.k } := by
  change execKStore s = _
  rw [execKStore, if_pos hp, if_pos ((hasRoom_iff ..).mpr hr), hv]

/-- Settles O25: with a full stream the step waits, else it pushes the encoded cell at the index and advances. -/
theorem kStoreStep : Obligations.KStoreStep := by
  intro s hp
  refine ⟨exec_kStore_wait, fun v hr hv => ?_⟩
  rw [exec_kStore_push hp hr hv, advance_of_phase hp]
  rfl

end Sys2Proof.Machine
end

section
/-! A round of the kernel (42_compute_kernel.md R160, R166): what the kernel holds when a phase has done its first elements,
kept by the phase's step and handed on to the next phase, so that `4N` steps compute `multiply_stream` of the input frame. -/

namespace Sys2Proof.Machine

/-! ### Kernel steps in sequence -/

theorem kernelSteps_add (m n : Nat) (s : State) :
    kernelSteps (m + n) s = andThen (kernelSteps m s) (kernelSteps n) := by
  induction m generalizing s with
  | zero => rw [Nat.zero_add, kernelSteps, andThen_next]
  | succ m ih =>
    rw [Nat.succ_add, kernelSteps, kernelSteps]
    cases stepKernel s with
    | next t    => exact ih t
    | fault e   => rfl
    | refused e => rfl

/-- What holds after each of `n` steps, when the step before keeps it, holds after all of them. -/
theorem kernelSteps_of_step {P : Nat → State → Prop} {n : Nat}
    (hstep : ∀ i < n, ∀ s, P i s → ∃ t, stepKernel s = .next t ∧ P (i + 1) t) {s : State} (h : P 0 s) :
    ∃ t, kernelSteps n s = .next t ∧ P n t := by
  induction n with
  | zero => exact ⟨s, rfl, h⟩
  | succ n ih =>
    obtain ⟨t, ht, hP⟩ := ih fun i hi => hstep i (Nat.lt_succ_of_lt hi)
    obtain ⟨u, hu, hQ⟩ := hstep n (Nat.lt_succ_self n) t hP
    refine ⟨u, ?_, hQ⟩
    rw [kernelSteps_add, ht, andThen_next, kernelSteps, hu]
    rfl

theorem stepKernel_of_phase {s : State} {p : Phase} (hp : s.k.phase = p) :
    stepKernel s = exec (decodeKstep (phaseCode p)) s := by
  rw [stepKernel, hp]

/-! ### What a round computes -/

/-- The payload of word `j` of a frame. -/
def payloadAt (ws : List StreamWord) (j : Nat) : Word := (ws.map decodeWord).getD j 0#32

/-- Cell `j` of the product in row-major order (42_compute_kernel.md R160). -/
def productAt (c : Config) (ws : List StreamWord) (j : Nat) : Word := productCell c ws (rowOf c j) (colOf c j)

/-- The first `n` words of `multiply_stream`. -/
def productPrefix (c : Config) (ws : List StreamWord) (n : Nat) : List StreamWord :=
  (List.range n).map fun j => encodeWord (productAt c ws j) (lastIndex c j)

theorem productPrefix_n (c : Config) (ws : List StreamWord) : productPrefix c ws c.n = multiplyStream c ws := rfl

theorem productPrefix_succ (c : Config) (ws : List StreamWord) (n : Nat) :
    productPrefix c ws (n + 1) = productPrefix c ws n ++ [encodeWord (productAt c ws n) (lastIndex c n)] := by
  simp [productPrefix, List.range_succ]

@[simp] theorem length_productPrefix (c : Config) (ws : List StreamWord) (n : Nat) : (productPrefix c ws n).length = n := by
  simp [productPrefix]

/-- The word at position `j` of a frame is the head of what is left after `j` pops. -/
theorem drop_append_eq_cons {ws : List StreamWord} {j : Nat} (h : j < ws.length) (rest : List StreamWord) :
    ∃ w, ws.drop j ++ rest = w :: (ws.drop (j + 1) ++ rest) ∧ w.data = payloadAt ws j := by
  refine ⟨ws[j], by rw [List.drop_eq_getElem_cons h, List.cons_append], ?_⟩
  simp [payloadAt, decodeWord, h]

/-- With room for `n` words, each of the first `n` finds room. -/
theorem roomIn_append {n : Nat} {q l : List StreamWord} {d : Depth} (h : roomFor n q d) (hl : l.length < n) :
    roomIn (q ++ l) d := by
  cases d with
  | unbounded => trivial
  | bounded extra =>
    simp only [roomFor, roomIn, List.length_append] at h ⊢
    omega

/-! ### The cell sum without draws -/

theorem mac_canonical (mode : MacMode) (draws : Nat) (acc a b : Word) :
    mac mode .canonical draws acc a b = ((mac mode .canonical 0 acc a b).1, draws) := by
  cases mode <;> simp [mac, fmul32, fadd32, fma32]

theorem accSteps_canonical {c : Config} (h : c.nanPolicy = .canonical) (draws : Nat) (x y : Nat → Word) (m : Nat) :
    accSteps c draws x y m = (cellSum c.macMode x y m, draws) := by
  induction m with
  | zero => rfl
  | succ m ih =>
    rw [accSteps, ih, h, mac_canonical]
    rfl

theorem cellIndex_lt {c : Config} {row col : Nat} (hr : row < c.dim) (hc : col < c.dim) : cellIndex c row col < c.n := by
  calc row * c.dim + col < (row + 1) * c.dim := by rw [Nat.succ_mul]; omega
    _ ≤ c.dim * c.dim := Nat.mul_le_mul_right _ hr

/-- A matrix has an element (00_scope.md U13). -/
theorem n_pos_of_wellFormed {c : Config} (h : c.wellFormed = true) : 0 < c.n := by
  simp only [Config.wellFormed, Bool.and_eq_true, decide_eq_true_eq] at h
  obtain ⟨⟨hdim, -⟩, -⟩ := h
  exact Nat.mul_pos (by omega) (by omega)

theorem rowOf_lt {c : Config} {j : Nat} (h : j < c.n) : rowOf c j < c.dim := Nat.div_lt_of_lt_mul h

theorem colOf_lt {c : Config} {j : Nat} (h : j < c.n) : colOf c j < c.dim :=
  Nat.mod_lt _ (Nat.pos_of_mul_pos_left (Nat.zero_lt_of_lt h))

/-! ### The kernel during a round -/

/-- The first `n` cells of a storage hold the words `f`. -/
def Holds (l : Cells) (f : Nat → Word) (n : Nat) : Prop := ∀ j < n, lookup j l = some (f j)

theorem holds_zero (l : Cells) (f : Nat → Word) : Holds l f 0 := fun j hj => absurd hj (Nat.not_lt_zero j)

/-- One more cell written at the end of the cells held. -/
theorem Holds.insertAt {l : Cells} {f : Nat → Word} {n : Nat} (h : Holds l f n) :
    Holds (insertAt n (f n) l) f (n + 1) := by
  intro j hj
  by_cases hjn : j = n
  · rw [hjn, lookup_insertAt_same]
  · rw [lookup_insertAt_other _ l hjn]
    exact h j (by omega)

/-- What the storages hold when phase `p` has done its first `n` elements of the frame `ws`. -/
def phaseHolds (c : Config) (ws : List StreamWord) (k : Kernel) (n : Nat) : Phase → Prop
  | .loadA   => Holds k.a (payloadAt ws) n
  | .loadB   => Holds k.a (payloadAt ws) c.n ∧ Holds k.b (fun j => payloadAt ws (c.n + j)) n
  | .compute =>
    Holds k.a (payloadAt ws) c.n ∧ Holds k.b (fun j => payloadAt ws (c.n + j)) c.n ∧ Holds k.out (productAt c ws) n
  | .store   => Holds k.out (productAt c ws) c.n

/-- How many words of the frame are popped when phase `p` has done its first `n` elements. -/
def popped (c : Config) (n : Nat) : Phase → Nat
  | .loadA   => n
  | .loadB   => c.n + n
  | .compute => c.n + c.n
  | .store   => c.n + c.n

/-- How many words are pushed when phase `p` has done its first `n` elements. -/
def pushed (n : Nat) : Phase → Nat
  | .loadA   => 0
  | .loadB   => 0
  | .compute => 0
  | .store   => n

/-- The state of a round that started in `s` with `ws ++ rest` in `IN`, its kernel being `k`. -/
def roundState (s : State) (ws rest : List StreamWord) (p : Phase) (n : Nat) (k : Kernel) : State :=
  { s with
    inq := ws.drop (popped s.cfg n p) ++ rest
    outq := s.outq ++ productPrefix s.cfg ws (pushed n p)
    k := k }

/-- The kernel when phase `p` has done its first `n` elements: its storages, and the sequencer, moved on after the last. -/
structure RoundKernel (c : Config) (ws : List StreamWord) (p : Phase) (n : Nat) (k : Kernel) : Prop where
  phase : k.phase = if n = c.n then nextPhase p else p
  idx : k.idx = if n = c.n then 0 else n
  holds : phaseHolds c ws k n p

/-- The state when phase `p` of a round from `s` has done its first `n` elements. -/
def RoundAt (s : State) (ws rest : List StreamWord) (p : Phase) (n : Nat) (t : State) : Prop :=
  ∃ k, t = roundState s ws rest p n k ∧ RoundKernel s.cfg ws p n k

theorem RoundKernel.sequencer {c : Config} {ws : List StreamWord} {p : Phase} {n : Nat} {k : Kernel}
    (h : RoundKernel c ws p n k) (hn : n < c.n) : k.phase = p ∧ k.idx = n :=
  ⟨by rw [h.phase, if_neg hn.ne], by rw [h.idx, if_neg hn.ne]⟩

/-- The storages do not depend on the sequencer's move. -/
theorem phaseHolds_advance {c : Config} {ws : List StreamWord} {k : Kernel} {n : Nat} {p : Phase} :
    phaseHolds c ws (advance c k) n p ↔ phaseHolds c ws k n p := by
  cases p <;> simp only [phaseHolds, advance_a, advance_b, advance_out]

theorem roundKernel_zero {c : Config} {ws : List StreamWord} {p : Phase} {k : Kernel} (hpos : 0 < c.n)
    (hp : k.phase = p) (hidx : k.idx = 0) (h : phaseHolds c ws k 0 p) : RoundKernel c ws p 0 k where
  phase := by rw [hp, if_neg hpos.ne]
  idx := by rw [hidx, if_neg hpos.ne]
  holds := h

/-- The sequencer's move after element `n`, whose work is done. -/
theorem roundKernel_advance {c : Config} {ws : List StreamWord} {p : Phase} {n : Nat} {k : Kernel} (hp : k.phase = p)
    (hn : k.idx = n) (h : phaseHolds c ws k (n + 1) p) : RoundKernel c ws p (n + 1) (advance c k) where
  phase := by rw [advance_of_phase hp, hn]
  idx := by rw [advance_of_phase hp, hn]
  holds := phaseHolds_advance.mpr h

/-! ### Each phase's step -/

section
variable {s : State} {ws rest : List StreamWord} {n : Nat} {k : Kernel}

theorem exec_kLoadA_round (hlen : ws.length = 2 * s.cfg.n) (hn : n < s.cfg.n) (hk : RoundKernel s.cfg ws .loadA n k) :
    ∃ t, exec .kLoadA (roundState s ws rest .loadA n k) = .next t ∧ RoundAt s ws rest .loadA (n + 1) t := by
  obtain ⟨hp, rfl⟩ := hk.sequencer hn
  obtain ⟨w, hw, hdata⟩ := drop_append_eq_cons (ws := ws) (j := k.idx) (by omega) rest
  have ha : Holds (insertAt k.idx w.data k.a) (payloadAt ws) (k.idx + 1) := hdata ▸ Holds.insertAt hk.holds
  exact ⟨_, exec_kLoadA_pop (s := roundState s ws rest .loadA k.idx k) hp hw, _, rfl,
    roundKernel_advance (k := { k with a := insertAt k.idx w.data k.a }) hp rfl ha⟩

theorem exec_kLoadB_round (hlen : ws.length = 2 * s.cfg.n) (hn : n < s.cfg.n) (hk : RoundKernel s.cfg ws .loadB n k) :
    ∃ t, exec .kLoadB (roundState s ws rest .loadB n k) = .next t ∧ RoundAt s ws rest .loadB (n + 1) t := by
  obtain ⟨hp, rfl⟩ := hk.sequencer hn
  obtain ⟨ha, hb⟩ := hk.holds
  obtain ⟨w, hw, hdata⟩ := drop_append_eq_cons (ws := ws) (j := s.cfg.n + k.idx) (by omega) rest
  have hb' : Holds (insertAt k.idx w.data k.b) (fun j => payloadAt ws (s.cfg.n + j)) (k.idx + 1) := hdata ▸ hb.insertAt
  exact ⟨_, exec_kLoadB_pop (s := roundState s ws rest .loadB k.idx k) hp hw, _, rfl,
    roundKernel_advance (k := { k with b := insertAt k.idx w.data k.b }) hp rfl ⟨ha, hb'⟩⟩

/-- The sum of cell `n` over the operands of the frame. -/
theorem accumulate_of_holds (hpol : s.cfg.nanPolicy = .canonical) (hn : n < s.cfg.n)
    (ha : Holds k.a (payloadAt ws) s.cfg.n) (hb : Holds k.b (fun j => payloadAt ws (s.cfg.n + j)) s.cfg.n) :
    accumulate s.cfg k.a k.b s.draws (rowOf s.cfg n) (colOf s.cfg n) s.cfg.dim = some (productAt s.cfg ws n, s.draws) := by
  rw [accumulate_eq_accSteps s.draws fun m hm =>
    ⟨ha _ (cellIndex_lt (rowOf_lt hn) hm), hb _ (cellIndex_lt hm (colOf_lt hn))⟩, accSteps_canonical hpol]
  rfl

theorem exec_kCell_round (hpol : s.cfg.nanPolicy = .canonical) (hn : n < s.cfg.n)
    (hk : RoundKernel s.cfg ws .compute n k) :
    ∃ t, exec .kCell (roundState s ws rest .compute n k) = .next t ∧ RoundAt s ws rest .compute (n + 1) t := by
  obtain ⟨hp, rfl⟩ := hk.sequencer hn
  obtain ⟨ha, hb, ho⟩ := hk.holds
  have hsum := accumulate_of_holds hpol hn ha hb
  exact ⟨_, exec_kCell_sum (s := roundState s ws rest .compute k.idx k) hp hsum, _, rfl,
    roundKernel_advance (k := { k with out := insertAt k.idx (productAt s.cfg ws k.idx) k.out }) hp rfl
      ⟨ha, hb, ho.insertAt⟩⟩

theorem exec_kStore_round (hroom : roomFor s.cfg.n s.outq s.cfg.outDepth) (hn : n < s.cfg.n)
    (hk : RoundKernel s.cfg ws .store n k) :
    ∃ t, exec .kStore (roundState s ws rest .store n k) = .next t ∧ RoundAt s ws rest .store (n + 1) t := by
  obtain ⟨hp, rfl⟩ := hk.sequencer hn
  have hroom' : roomIn (s.outq ++ productPrefix s.cfg ws k.idx) s.cfg.outDepth := roomIn_append hroom (by simpa using hn)
  refine ⟨_, exec_kStore_push (s := roundState s ws rest .store k.idx k) hp hroom' (hk.holds _ hn), advance s.cfg k, ?_,
    roundKernel_advance hp rfl hk.holds⟩
  simp only [roundState, pushed, productPrefix_succ, List.append_assoc]
  rfl

end

/-! ### The four phases -/

/-- A phase that has done all its elements leaves the next one the storages it starts from. -/
theorem phaseHolds_next {c : Config} {ws : List StreamWord} {k : Kernel} {p : Phase} (h : phaseHolds c ws k c.n p) :
    phaseHolds c ws k 0 (nextPhase p) := by
  cases p with
  | loadA => exact ⟨h, holds_zero _ _⟩
  | loadB =>
    obtain ⟨ha, hb⟩ := h
    exact ⟨ha, hb, holds_zero _ _⟩
  | compute =>
    obtain ⟨_, _, ho⟩ := h
    exact ho
  | store => exact holds_zero _ _

/-- Within a round, the end of a phase and the start of the next are one state. -/
theorem roundState_next {s : State} {ws rest : List StreamWord} {p : Phase} (hp : p ≠ .store) (k : Kernel) :
    roundState s ws rest p s.cfg.n k = roundState s ws rest (nextPhase p) 0 k := by
  cases p with
  | loadA | loadB | compute => rfl
  | store => exact absurd rfl hp

theorem RoundAt.next {s t : State} {ws rest : List StreamWord} {p : Phase} (hpos : 0 < s.cfg.n) (hp : p ≠ .store)
    (h : RoundAt s ws rest p s.cfg.n t) : RoundAt s ws rest (nextPhase p) 0 t := by
  obtain ⟨k, rfl, hk⟩ := h
  exact ⟨k, roundState_next hp k,
    roundKernel_zero hpos (hk.phase.trans (if_pos rfl)) (hk.idx.trans (if_pos rfl)) (phaseHolds_next hk.holds)⟩

/-- `N` steps do a phase. -/
theorem kernelSteps_phase {s t : State} {ws rest : List StreamWord} (p : Phase) (hpol : s.cfg.nanPolicy = .canonical)
    (hlen : ws.length = 2 * s.cfg.n) (hroom : roomFor s.cfg.n s.outq s.cfg.outDepth) (h : RoundAt s ws rest p 0 t) :
    ∃ u, kernelSteps s.cfg.n t = .next u ∧ RoundAt s ws rest p s.cfg.n u := by
  refine kernelSteps_of_step (fun n hn t ht => ?_) h
  obtain ⟨k, rfl, hk⟩ := ht
  obtain ⟨hp, -⟩ := hk.sequencer hn
  rw [stepKernel_of_phase (s := roundState s ws rest p n k) hp]
  cases p with
  | loadA   => exact exec_kLoadA_round hlen hn hk
  | loadB   => exact exec_kLoadB_round hlen hn hk
  | compute => exact exec_kCell_round hpol hn hk
  | store   => exact exec_kStore_round hroom hn hk

/-- Settles O27: the four phases one after another, each from where the phase before leaves it. -/
theorem kernelRoundIsMultiplyStream : Obligations.KernelRoundIsMultiplyStream := by
  intro s ws rest hwf hpol hphase hidx hin hlen hroom
  have hpos := n_pos_of_wellFormed hwf
  have hphases (p : Phase) {t : State} := kernelSteps_phase (t := t) (rest := rest) p hpol hlen hroom
  have h0 : RoundAt s ws rest .loadA 0 s := by
    refine ⟨s.k, ?_, roundKernel_zero hpos hphase hidx (holds_zero _ _)⟩
    simp [roundState, popped, pushed, productPrefix, ← hin]
  obtain ⟨t₁, ht₁, h₁⟩ := hphases .loadA h0
  obtain ⟨t₂, ht₂, h₂⟩ := hphases .loadB (h₁.next hpos (by decide))
  obtain ⟨t₃, ht₃, h₃⟩ := hphases .compute (h₂.next hpos (by decide))
  obtain ⟨t₄, ht₄, k', rfl, hk⟩ := hphases .store (h₃.next hpos (by decide))
  refine ⟨k', ?_, hk.phase.trans (if_pos rfl), hk.idx.trans (if_pos rfl)⟩
  have hsteps : 4 * s.cfg.n = s.cfg.n + (s.cfg.n + (s.cfg.n + s.cfg.n)) := by omega
  have hdrop : ws.drop (s.cfg.n + s.cfg.n) = [] := List.drop_eq_nil_of_le (by omega)
  rw [hsteps, kernelSteps_add, ht₁, andThen_next, kernelSteps_add, ht₂, andThen_next, kernelSteps_add, ht₃, andThen_next,
    ht₄]
  simp only [roundState, popped, pushed, productPrefix_n, hdrop, List.nil_append]

end Sys2Proof.Machine
end

section
/-! The register transactions of a channel (43_transfer_engine.md R191 to R197, R205): the operation that each selects, once
for both channels, and what the start writes do in each case of their rules. -/

namespace Sys2Proof.Machine

/-! ### Which operation a channel's transaction performs -/

theorem exec_rdCtrl (c : Chan) (s : State) : exec (rdCtrl c) s = .next (s.bind (readCtrl c s)) := by cases c <;> rfl
theorem exec_rdStatus (c : Chan) (s : State) : exec (rdStatus c) s = .next (s.bind (readStatus c s)) := by cases c <;> rfl
theorem exec_rdAddr (c : Chan) (s : State) : exec (rdAddr c) s = .next (s.bind (readAddr c s)) := by cases c <;> rfl
theorem exec_rdLen (c : Chan) (s : State) : exec (rdLen c) s = .next (s.bind (readLen c s)) := by cases c <;> rfl
theorem exec_rdXfer (c : Chan) (s : State) : exec (rdXfer c) s = .next (s.bind (readXfer c s)) := by cases c <;> rfl
theorem exec_wrCtrl (c : Chan) (v : Word) (s : State) : exec (wrCtrl c v) s = .next (writeCtrl c v s) := by cases c <;> rfl
theorem exec_wrStatus (c : Chan) (v : Word) (s : State) : exec (wrStatus c v) s = .next (writeStatus c v s) := by
  cases c <;> rfl
theorem exec_wrAddr (c : Chan) (v : Word) (s : State) : exec (wrAddr c v) s = writeAddr c v s := by cases c <;> rfl
theorem exec_wrLen (c : Chan) (v : Word) (s : State) : exec (wrLen c v) s = writeLen c v s := by cases c <;> rfl
theorem exec_wrXfer (c : Chan) (v : Word) (s : State) : exec (wrXfer c v) s = .next s := by cases c <;> rfl

/-! ### What the writes do -/

section
variable {c : Chan} {v : Word} {s : State}

theorem accepts_false_iff (ch : Channel) : accepts ch = false ↔ ch.busy = true ∨ ch.err = true := by
  rw [← Bool.not_eq_true, accepts_iff]
  cases ch.busy <;> cases ch.err <;> decide

theorem writeStatus_of_set (h : v.getLsbD 1 = true) : writeStatus c v s = s.setChan c { s.chan c with done := false } :=
  if_pos h

theorem writeStatus_of_clear (h : v.getLsbD 1 = false) : writeStatus c v s = s :=
  if_neg (Bool.eq_false_iff.mp h)

theorem writeAddr_refused (hsg : s.cfg.sgMode = true) : writeAddr c v s = .refused (.scatterGatherBuild c) := if_pos hsg

theorem writeLen_refused (hsg : s.cfg.sgMode = true) : writeLen c v s = .refused (.scatterGatherBuild c) := if_pos hsg

section
variable (hsg : s.cfg.sgMode = false)
include hsg

theorem writeAddr_ignored (ha : accepts (s.chan c) = false) : writeAddr c v s = .next s := by
  rw [writeAddr, if_neg (Bool.eq_false_iff.mp hsg), if_neg (Bool.eq_false_iff.mp ha)]

theorem writeAddr_accepted (ha : accepts (s.chan c) = true) :
    writeAddr c v s = .next (s.setChan c { s.chan c with addr := v }) := by
  rw [writeAddr, if_neg (Bool.eq_false_iff.mp hsg), if_pos ha]

theorem writeLen_ignored (ha : accepts (s.chan c) = false) : writeLen c v s = .next s := by
  rw [writeLen, if_neg (Bool.eq_false_iff.mp hsg), if_neg (Bool.eq_false_iff.mp ha)]

theorem writeLen_startFailed {code : BitVec 3} (ha : accepts (s.chan c) = true)
    (he : startError (s.chan c).addr v = some code) :
    writeLen c v s = .next (s.setChan c
      { s.chan c with len := v, xfer := 0#32, done := false, err := true, errcode := code }) := by
  obtain ⟨hb, _⟩ := (accepts_iff _).mp ha
  rw [writeLen, if_neg (Bool.eq_false_iff.mp hsg), if_pos ha]
  simp [he, raiseError, hb]

theorem writeLen_started (ha : accepts (s.chan c) = true) (he : startError (s.chan c).addr v = none) :
    writeLen c v s = .next (s.setChan c { s.chan c with len := v, xfer := 0#32, done := false, busy := true }) := by
  rw [writeLen, if_neg (Bool.eq_false_iff.mp hsg), if_pos ha]
  simp [he]

end

end

/-! ### The start checks in their order (60_exceptions.md R264) -/

section
variable {addr len : Word}

theorem startError_len (h : len = 0#32 ∨ len.toNat % 4 ≠ 0) : startError addr len = some errLen := if_pos h

theorem startError_align (h0 : len ≠ 0#32) (hl : len.toNat % 4 = 0) (ha : addr.toNat % 4 ≠ 0) :
    startError addr len = some errAlign := by
  rw [startError, if_neg (not_or.mpr ⟨h0, not_not.mpr hl⟩), if_pos ha]

theorem startError_dec (h0 : len ≠ 0#32) (hl : len.toNat % 4 = 0) (ha : addr.toNat % 4 = 0)
    (hsum : 2 ^ 32 < addr.toNat + len.toNat) : startError addr len = some errDec := by
  rw [startError, if_neg (not_or.mpr ⟨h0, not_not.mpr hl⟩), if_neg (not_not.mpr ha), if_pos hsum]

end

/-! ### The statements about single transactions -/

/-- Settles O28: a read binds the view of its register, and the two flag words are views of the channel. -/
theorem registerReads : Obligations.RegisterReads := fun c s =>
  ⟨⟨_, exec_rdCtrl c s, ctrlWord_view _⟩, ⟨_, exec_rdStatus c s, statusWord_view _ _⟩, exec_rdAddr c s, exec_rdLen c s,
    exec_rdXfer c s⟩

/-- Settles O29: the write is `writeCtrl`, whatever the state. -/
theorem Registers.writeCtrl : Obligations.WriteCtrl := exec_wrCtrl

/-- Settles O30: the write by its bit 1. -/
theorem Registers.writeStatus : Obligations.WriteStatus := by
  intro c v s
  rw [exec_wrStatus]
  exact ⟨fun h => by rw [writeStatus_of_set h], fun h => by rw [writeStatus_of_clear h]⟩

/-- Settles O31: the write by whether the channel accepts it. -/
theorem Registers.writeAddr : Obligations.WriteAddr := by
  intro c v s hsg
  rw [exec_wrAddr]
  exact ⟨fun hb he => writeAddr_accepted hsg ((accepts_iff _).mpr ⟨hb, he⟩),
    fun h => writeAddr_ignored hsg ((accepts_false_iff _).mpr h)⟩

/-- Settles O32: the write by whether the channel accepts it, then by the start checks in their order. -/
theorem writeLenStarts : Obligations.WriteLenStarts := by
  intro c v s hsg
  rw [exec_wrLen]
  refine ⟨fun h => writeLen_ignored hsg ((accepts_false_iff _).mpr h), fun hb he => ?_⟩
  have ha := (accepts_iff _).mpr ⟨hb, he⟩
  have hfail (code : BitVec 3) (hcode : startError (s.chan c).addr v = some code) := writeLen_startFailed hsg ha hcode
  exact ⟨fun h => hfail errLen (startError_len h), fun h0 hl haddr => hfail errAlign (startError_align h0 hl haddr),
    fun h0 hl haddr hsum => hfail errDec (startError_dec h0 hl haddr hsum),
    fun h0 hl haddr hsum => writeLen_started hsg ha ((startError_none_iff ..).mpr ⟨h0, hl, haddr, hsum⟩)⟩

/-- Settles O33: both writes are ignored. -/
theorem writeXferIgnored : Obligations.WriteXferIgnored := exec_wrXfer

/-- Settles O34: each of the six reads binds 0, and each of the six writes is ignored. -/
theorem reservedOffsets : Obligations.ReservedOffsets := by
  refine fun v s => ⟨fun i hi => ?_, fun i hi => ?_⟩
  · simp only [List.mem_cons, List.not_mem_nil, or_false] at hi
    obtain rfl | rfl | rfl | rfl | rfl | rfl := hi <;> rfl
  · simp only [List.mem_cons, List.not_mem_nil, or_false] at hi
    obtain rfl | rfl | rfl | rfl | rfl | rfl := hi <;> rfl

/-- Settles O35: the start writes test the build first, and the other transactions do not ask for it. -/
theorem scatterGatherBuild : Obligations.ScatterGatherBuild := by
  intro c v s hsg
  rw [exec_wrAddr, exec_wrLen, exec_rdStatus, exec_wrCtrl, exec_wrStatus]
  refine ⟨writeAddr_refused hsg, writeLen_refused hsg, ⟨_, rfl, (readStatus_sg c s).trans hsg⟩, ⟨_, rfl, ?_⟩, ⟨_, rfl, ?_⟩⟩
  · simp [writeCtrl]
  · cases hv : v.getLsbD 1
    · simp [writeStatus_of_clear hv]
    · simp [writeStatus_of_set hv]

/-- Settles O41: of the changes an operation can make to a busy channel, the ones that end its transfer set one of the flags,
which were both 0 (10_state.md R39). -/
theorem transferEndsInDoneOrError : Obligations.TransferEndsInDoneOrError := by
  intro i s t c h ⟨hinv, _⟩ hb hidle
  obtain ⟨herr, hdone, _⟩ := hinv hb
  have hch := exec_channel h c
  generalize t.chan c = ch at hch hidle ⊢
  cases hch with
  | untouched | enables _ _ | doneCleared | addressed _ _ | counted _ _ => exact absurd (hb.symm.trans hidle) (by decide)
  | started _ _ _ => cases hidle
  | startFailed _ _ _ _ => rfl
  | halted _ _ _ | overrun _ => simp [hdone]
  | completed _ => simp [herr]

end Sys2Proof.Machine
end

section
/-! The channel steps (43_transfer_engine.md R198, R199, R203): what each does where its stream lets it, and that it waits where
the stream does not. -/

namespace Sys2Proof.Machine

/-! ### The beat checks in their order (60_exceptions.md R264) -/

section
variable {c : Config} {dir : Chan} {a : Nat}

theorem beatError_unmapped (h : ∃ n < 4, mapped c (a + n) = false) : beatError c dir a = some errDec := by
  obtain ⟨n, hn, hm⟩ := h
  have hw : mappedWord c a ≠ true := fun hw => Bool.false_ne_true (hm.symm.trans ((mappedWord_iff c a).mp hw n hn))
  rw [beatError, if_pos (by simpa using hw)]

theorem beatError_busFault (hm : ∀ n < 4, mapped c (a + n) = true) (hf : busFault c dir a = true) :
    beatError c dir a = some errSlv := by
  rw [beatError, (mappedWord_iff c a).mpr hm, if_neg (by decide), if_pos hf]

theorem beatError_passes (hm : ∀ n < 4, mapped c (a + n) = true) (hf : busFault c dir a = false) :
    beatError c dir a = none := (beatError_none_iff ..).mpr ⟨(mappedWord_iff c a).mpr hm, hf⟩

end

/-- The next beat is the last exactly when it completes the count (30_encoding.md R97). -/
theorem lastBeat_iff (ch : Channel) : lastBeat ch = true ↔ ch.xfer.toNat + 4 = ch.len.toNat := by
  simp [lastBeat]

/-! ### TX.BEAT -/

section
variable {s : State}

theorem exec_txBeat_wait (hr : ¬ roomIn s.inq s.cfg.inDepth) : exec .txBeat s = .next s := by
  change execTxBeat s = .next s
  rw [execTxBeat, Bool.eq_false_iff.mpr (mt (hasRoom_iff ..).mp hr), Bool.and_false, if_neg Bool.false_ne_true]

variable (hb : s.tx.busy = true) (hr : roomIn s.inq s.cfg.inDepth)
include hb hr

theorem exec_txBeat_halt {code : BitVec 3} (he : beatError s.cfg .tx (beatAddr s.tx) = some code) :
    exec .txBeat s = .next { s with tx := { s.tx with busy := false, err := true, errcode := code } } := by
  change execTxBeat s = .next (raiseError .tx code s)
  rw [execTxBeat, hb, (hasRoom_iff ..).mpr hr, if_pos (by decide)]
  simp only [he]

theorem exec_txBeat_push (he : beatError s.cfg .tx (beatAddr s.tx) = none) :
    exec .txBeat s = .next { s with
      inq := s.inq ++ [encodeWord (Memory.readWord s.mem (beatAddr s.tx)) (lastBeat s.tx)]
      tx := if lastBeat s.tx then { s.tx with xfer := s.tx.xfer + 4#32, busy := false, done := true }
        else { s.tx with xfer := s.tx.xfer + 4#32 } } := by
  change execTxBeat s = _
  rw [execTxBeat, hb, (hasRoom_iff ..).mpr hr, if_pos (by decide)]
  simp only [he]
  cases lastBeat s.tx <;> rfl

end

/-- Settles O37: with a full stream the step waits, else it halts with the first beat error, or pushes and counts. -/
theorem txBeatStep : Obligations.TxBeatStep := by
  intro s hb
  refine ⟨exec_txBeat_wait, fun a ha hr => ?_⟩
  obtain rfl : a = beatAddr s.tx := ha
  refine ⟨fun hm => exec_txBeat_halt hb hr (beatError_unmapped hm), fun hm =>
    ⟨fun hf => exec_txBeat_halt hb hr (beatError_busFault hm hf), fun hf => ?_⟩⟩
  rw [exec_txBeat_push hb hr (beatError_passes hm hf), ← lastBeat_iff, ne_eq, ← lastBeat_iff]
  cases lastBeat s.tx <;> simp [encodeWord, idConst, destConst]

/-! ### RX.BEAT -/

section
variable {s : State}

theorem exec_rxBeat_wait (hq : s.outq = []) : exec .rxBeat s = .next s := by
  change execRxBeat s = .next s
  rw [execRxBeat, hq, ite_self]

variable {w : StreamWord} {q : List StreamWord} (hb : s.rx.busy = true) (hq : s.outq = w :: q)
include hb hq

theorem exec_rxBeat_halt {code : BitVec 3} (he : beatError s.cfg .rx (beatAddr s.rx) = some code) :
    exec .rxBeat s = .next { s with rx := { s.rx with busy := false, err := true, errcode := code } } := by
  change execRxBeat s = .next (raiseError .rx code s)
  rw [execRxBeat, if_pos hb, hq]
  simp only [he]

theorem exec_rxBeat_pop (he : beatError s.cfg .rx (beatAddr s.rx) = none) :
    exec .rxBeat s = .next { s with
      outq := q
      mem := Memory.writeWord s.mem (beatAddr s.rx) w.data
      rx := if w.last then { s.rx with xfer := s.rx.xfer + 4#32, busy := false, done := true }
        else if lastBeat s.rx then
          { s.rx with xfer := s.rx.xfer + 4#32, busy := false, err := true, errcode := errOverrun }
        else { s.rx with xfer := s.rx.xfer + 4#32 } } := by
  change execRxBeat s = _
  rw [execRxBeat, if_pos hb, hq]
  simp only [he]
  cases w.last <;> cases lastBeat s.rx <;> rfl

end

/-- Settles O38: with an empty stream the step waits, else it halts with the first beat error, or pops, stores and counts. -/
theorem rxBeatStep : Obligations.RxBeatStep := by
  intro s hb hwf
  refine ⟨exec_rxBeat_wait, fun w q a hq ha => ?_⟩
  obtain rfl : a = beatAddr s.rx := ha
  refine ⟨fun hm => exec_rxBeat_halt hb hq (beatError_unmapped hm), fun hm =>
    ⟨fun hf => exec_rxBeat_halt hb hq (beatError_busFault hm hf), fun hf =>
      ⟨_, fun n hn => Memory.readByte_writeWord_inside _ w.data hwf hn,
        fun b hout => Memory.readByte_writeWord_outside s.mem w.data hout, ?_⟩⟩⟩
  rw [exec_rxBeat_pop hb hq (beatError_passes hm hf), ← lastBeat_iff, ne_eq, ← lastBeat_iff]
  cases w.last <;> cases lastBeat s.rx <;> simp [errOverrun]

end Sys2Proof.Machine
end

section
/-! Complete transfers (43_transfer_engine.md R201, R211, R212; 44_host_procedures.md R244, R245): the two writes of a procedure
start the channel, each beat moves one word on, and the poll after the last beat returns. -/

namespace Sys2Proof.Machine

/-! ### Turns in sequence -/

/-- The state with the turns `l` decided. -/
def State.withTurns (s : State) (l : List Turn) : State := { s with sched := l }

theorem run_agent {s t : State} {a : Agent} {rest : List Turn} (h : s.sched = .agent a :: rest)
    (ht : stepAgent a (s.withTurns rest) = .next t) (n : Nat) : run (n + 1) s = run n t := by
  rw [run, step_agent h]
  exact congrArg (andThen · (run n)) ht

/-- `n` decided turns of one agent that each take `f i` to `f (i + 1)`, whatever turns are decided after them. -/
theorem run_replicate {f : Nat → State} {a : Agent} {n : Nat}
    (h : ∀ i < n, ∀ l, stepAgent a ((f i).withTurns l) = .next ((f (i + 1)).withTurns l)) (rest : List Turn) (m : Nat) :
    run (n + m) ((f 0).withTurns (List.replicate n (.agent a) ++ rest)) = run m ((f n).withTurns rest) := by
  induction n generalizing f with
  | zero => rw [Nat.zero_add, List.replicate_zero, List.nil_append]
  | succ n ih =>
    rw [Nat.add_right_comm]
    refine (run_agent (s := (f 0).withTurns _) rfl (h 0 (Nat.succ_pos n) _) _).trans ?_
    exact ih (f := fun i => f (i + 1)) fun i hi => h (i + 1) (Nat.succ_lt_succ hi)

/-! ### The channel during a transfer -/

/-- The channel when `n` of the `total` words of a transfer have been moved; the last one completes it. -/
def transferAt (ch : Channel) (addr len : Word) (total n : Nat) : Channel :=
  { ch with
    addr := addr, len := len, xfer := BitVec.ofNat 32 (4 * n), busy := decide (n < total), done := decide (n = total) }

section
variable (ch : Channel) {addr len : Word} {total n : Nat}

theorem transferAt_zero (h : 0 < total) : transferAt ch addr len total 0 =
    { ch with addr := addr, len := len, xfer := 0#32, busy := true, done := false } := by
  simp [transferAt, h, h.ne]

theorem transferAt_total : transferAt ch addr len total total =
    { ch with addr := addr, len := len, xfer := BitVec.ofNat 32 (4 * total), busy := false, done := true } := by
  simp [transferAt]

/-- A poll after the last beat sees `DONE` alone changed and finds no error. -/
theorem statusView_transferAt_total (sg : Bool) :
    isStatusView (statusWord sg (transferAt ch addr len total total)) sg { ch with busy := false, done := true } := by
  rw [transferAt_total]
  exact statusWord_view sg { ch with
    addr := addr, len := len, xfer := BitVec.ofNat 32 (4 * total), busy := false, done := true }

theorem accepts_transferAt_total (h : ch.err = false) : accepts (transferAt ch addr len total total) = true := by
  rw [transferAt_total]
  exact (accepts_iff _).mpr ⟨rfl, h⟩

theorem xfer_transferAt_succ :
    (transferAt ch addr len total n).xfer + 4#32 = (transferAt ch addr len total (n + 1)).xfer := by
  simp only [transferAt, Nat.mul_succ, BitVec.ofNat_add]

theorem transferAt_completed (h : n + 1 = total) :
    { transferAt ch addr len total n with
      xfer := (transferAt ch addr len total n).xfer + 4#32, busy := false, done := true } =
      transferAt ch addr len total (n + 1) := by
  rw [xfer_transferAt_succ]
  simp [transferAt, h]

theorem transferAt_counted (h : n + 1 < total) :
    { transferAt ch addr len total n with xfer := (transferAt ch addr len total n).xfer + 4#32 } =
      transferAt ch addr len total (n + 1) := by
  rw [xfer_transferAt_succ]
  simp [transferAt, h, h.ne, Nat.lt_of_succ_lt h, (Nat.lt_of_succ_lt h).ne]

theorem toNat_xfer_transferAt (h : 4 * n < 2 ^ 32) : (transferAt ch addr len total n).xfer.toNat = 4 * n := by
  rw [transferAt, BitVec.toNat_ofNat, Nat.mod_eq_of_lt h]

theorem beatAddr_transferAt (h : 4 * n < 2 ^ 32) :
    beatAddr (transferAt ch addr len total n) = addr.toNat + 4 * n :=
  congrArg (addr.toNat + ·) (toNat_xfer_transferAt ch h)

theorem lastBeat_transferAt (h : 4 * n < 2 ^ 32) :
    lastBeat (transferAt ch addr len total n) = decide (4 * n + 4 = len.toNat) := by
  rw [lastBeat, toNat_xfer_transferAt ch h]
  rfl

end

/-- A beat of a transfer that the platform lets pass. -/
theorem beatError_of_beatsPass {c : Config} {dir : Chan} {a words n : Nat} (h : beatsPass c dir a words) (hn : n < words) :
    beatError c dir (a + 4 * n) = none := by
  obtain ⟨hmapped, hfault⟩ := h
  exact beatError_passes (fun m hm => hmapped _ (by omega) (by omega)) (hfault n hn)

/-! ### The host at a procedure -/

/-- The host's turn performs the operation at the head of its queue. -/
theorem stepHost_op {s : State} {i : Instr} {q : List HostOp} (hs : hostSelects (encode i) = true)
    (hq : s.host.queue = .op (encode i) :: q) : stepHost s = andThen (exec i s) fun t => .next (retire t) := by
  rw [stepHost, hq, ← hostWord_of_decode hs (decode_encode i)]
  rfl

/-- `TRANSMIT` or `RECEIVE`, by channel. -/
def transferCall : Chan → Word → Word → Instr
  | .tx => .transmit
  | .rx => .receive

theorem hostSelects_transferCall (c : Chan) (addr len : Word) : hostSelects (encode (transferCall c addr len)) = true := by
  cases c <;> rfl

section
variable {c : Chan} {addr len : Word} {s : State} {q : List HostOp}

theorem exec_transferCall_addr (hp : s.host.pos = 0) : exec (transferCall c addr len) s = addrThen c addr 1 s := by
  cases c <;> simp [transferCall, exec, execTransmit, execReceive, hp]

theorem exec_transferCall_len (hp : s.host.pos = 1) : exec (transferCall c addr len) s = lenThen c len 2 s := by
  cases c <;> simp [transferCall, exec, execTransmit, execReceive, hp]

theorem exec_transferCall_poll (hp : s.host.pos = 2) :
    exec (transferCall c addr len) s = .next (pollThen c (fun t => t.ret .ok) s) := by
  cases c <;> simp [transferCall, exec, execTransmit, execReceive, hp]

/-- `s` with channel `c` being `ch`, its procedure having made `n` accesses and the turns `l` being decided. -/
def State.calling (s : State) (c : Chan) (ch : Channel) (n : Nat) (l : List Turn) : State :=
  ((s.setChan c ch).atPos n).withTurns l

section
variable (s : State) (c : Chan) (ch : Channel) (n : Nat) (l : List Turn)

@[simp] theorem calling_cfg : (s.calling c ch n l).cfg = s.cfg := setChan_cfg ..
@[simp] theorem calling_queue : (s.calling c ch n l).host.queue = s.host.queue := by cases c <;> rfl
@[simp] theorem calling_pos : (s.calling c ch n l).host.pos = n := rfl
@[simp] theorem calling_chan : (s.calling c ch n l).chan c = ch := by cases c <;> rfl

@[simp] theorem calling_setChan (x : Channel) : (s.calling c ch n l).setChan c x = s.calling c x n l := by cases c <;> rfl
@[simp] theorem calling_atPos (m : Nat) : (s.calling c ch n l).atPos m = s.calling c ch m l := rfl

@[simp] theorem retire_calling_succ : retire (s.calling c ch (n + 1) l) = s.calling c ch (n + 1) l :=
  if_neg (Nat.succ_ne_zero n)

end

variable (hq : s.host.queue = .op (encode (transferCall c addr len)) :: q)
include hq

theorem stepHost_transferCall_addr {ch : Channel} (hsg : s.cfg.sgMode = false) (ha : accepts ch = true) (l : List Turn) :
    stepHost (s.calling c ch 0 l) = .next (s.calling c { ch with addr := addr } 1 l) := by
  rw [stepHost_op (hostSelects_transferCall ..) ((calling_queue ..).trans hq), exec_transferCall_addr rfl, addrThen,
    writeAddr_accepted (by simpa using hsg) (by simpa using ha)]
  simp

theorem stepHost_transferCall_len {ch : Channel} (hsg : s.cfg.sgMode = false) (ha : accepts ch = true)
    (he : startError ch.addr len = none) (l : List Turn) :
    stepHost (s.calling c ch 1 l) =
      .next (s.calling c { ch with len := len, xfer := 0#32, done := false, busy := true } 2 l) := by
  rw [stepHost_op (hostSelects_transferCall ..) ((calling_queue ..).trans hq), exec_transferCall_len rfl, lenThen,
    writeLen_started (by simpa using hsg) (by simpa using ha) (by simpa using he)]
  simp

/-- The poll that finds the channel neither busy nor in error ends the procedure, which leaves the queue. -/
theorem stepHost_transferCall_ok (hp : s.host.pos = 2) (ha : accepts (s.chan c) = true) :
    stepHost s = .next { s with host := { s.host with queue := q, pos := 0, x := readStatus c s, ret := .ok } } := by
  obtain ⟨hb, he⟩ := (accepts_iff _).mp ha
  rw [stepHost_op (hostSelects_transferCall ..) hq, exec_transferCall_poll hp, pollThen_eq, hb, he]
  simp [retire, State.ret, State.bind, hq]

/-- The host's turn at the poll, decided. -/
theorem run_transferCall_ok {rest : List Turn} (hsched : s.sched = .agent .host :: rest) (hp : s.host.pos = 2)
    (ha : accepts (s.chan c) = true) :
    run 1 s = .next { s with
      host := { s.host with queue := q, pos := 0, x := readStatus c s, ret := .ok }
      sched := rest } := by
  cases c <;> exact run_agent (a := .host) hsched (stepHost_transferCall_ok (s := s.withTurns rest) hq hp ha) 0

/-- The procedure's two writes start a transfer that passes the start checks. -/
theorem run_transferCall_start {rest : List Turn} (hsched : s.sched = .agent .host :: .agent .host :: rest)
    (hp : s.host.pos = 0) (hsg : s.cfg.sgMode = false) (ha : accepts (s.chan c) = true)
    (he : startError addr len = none) {total : Nat} (htotal : 0 < total) (n : Nat) :
    run (n + 2) s = run n (s.calling c (transferAt (s.chan c) addr len total 0) 2 rest) := by
  have hs (l : List Turn) : s.withTurns l = s.calling c (s.chan c) 0 l := by
    rw [State.calling, setChan_self, ← hp]
    rfl
  have haddr := stepHost_transferCall_addr (ch := s.chan c) hq hsg ha (.agent .host :: rest)
  have hlen := stepHost_transferCall_len (ch := { s.chan c with addr := addr }) hq hsg ha he rest
  rw [← hs] at haddr
  rw [transferAt_zero _ htotal, run_agent hsched haddr]
  exact run_agent (s := s.calling c _ 1 (.agent .host :: rest)) (a := .host) rfl hlen n

end

end Sys2Proof.Machine
end

section
/-! One complete transmit (43_transfer_engine.md R211): after `n` beats the first `n` words of the frame are in `IN`. -/

namespace Sys2Proof.Machine

/-- The first `n` words of `transmitFrame m a words`. -/
def framePrefix (m : List Host.Cell) (a words n : Nat) : List StreamWord :=
  (List.range n).map fun j => encodeWord (Memory.readWord m (a + 4 * j)) (decide (j + 1 = words))

theorem framePrefix_words (m : List Host.Cell) (a words : Nat) : framePrefix m a words words = transmitFrame m a words := rfl

theorem framePrefix_succ (m : List Host.Cell) (a words n : Nat) : framePrefix m a words (n + 1) =
    framePrefix m a words n ++ [encodeWord (Memory.readWord m (a + 4 * n)) (decide (n + 1 = words))] := by
  simp [framePrefix, List.range_succ]

theorem length_framePrefix (m : List Host.Cell) (a words n : Nat) : (framePrefix m a words n).length = n := by
  simp [framePrefix]

/-- The state when `n` beats of the transmit that `s` starts have been made, the host being at its poll. -/
def transmitAt (s : State) (addr len : Word) (words n : Nat) : State :=
  { s with
    inq := s.inq ++ framePrefix s.mem addr.toNat words n
    tx := transferAt s.tx addr len words n
    host := { s.host with pos := 2 } }

theorem calling_eq_transmitAt (s : State) (addr len : Word) (words : Nat) (l : List Turn) :
    s.calling .tx (transferAt s.tx addr len words 0) 2 l = (transmitAt s addr len words 0).withTurns l := by
  simp [transmitAt, State.withTurns, framePrefix, State.calling, State.atPos, State.setChan]

/-- A beat with room in `IN` pushes the next word of the frame. -/
theorem stepAgent_transmitAt {s : State} {addr len : Word} {words : Nat} (hlen : len.toNat = 4 * words)
    (hpass : beatsPass s.cfg .tx addr.toNat words) (hroom : roomFor words s.inq s.cfg.inDepth) {n : Nat} (hn : n < words)
    (l : List Turn) :
    stepAgent .tx ((transmitAt s addr len words n).withTurns l) =
      .next ((transmitAt s addr len words (n + 1)).withTurns l) := by
  have hlt : 4 * n < 2 ^ 32 := by have := len.isLt; omega
  have haddr := beatAddr_transferAt s.tx (addr := addr) (len := len) (total := words) hlt
  have hlast : lastBeat (transferAt s.tx addr len words n) = decide (n + 1 = words) := by
    rw [lastBeat_transferAt s.tx hlt, hlen]
    exact decide_eq_decide.mpr (by omega)
  have hroom' : roomIn (s.inq ++ framePrefix s.mem addr.toNat words n) s.cfg.inDepth :=
    roomIn_append hroom (by rwa [length_framePrefix])
  have hpush := exec_txBeat_push (s := (transmitAt s addr len words n).withTurns l) (decide_eq_true hn) hroom'
    ((congrArg _ haddr).trans (beatError_of_beatsPass hpass hn))
  rw [stepAgent, stepChannel_tx]
  refine Eq.trans hpush ?_
  simp only [transmitAt, State.withTurns, haddr, hlast, framePrefix_succ, List.append_assoc]
  by_cases hend : n + 1 = words
  · simp only [decide_eq_true hend, if_true, transferAt_completed _ hend]
  · simp only [decide_eq_false hend, if_false, Bool.false_eq_true, transferAt_counted _ (by omega : n + 1 < words)]

/-- Settles O48: the two writes start the channel, `words` beats push the frame, and the poll finds the channel done. -/
theorem completeTransmit : Obligations.CompleteTransmit := by
  intro s addr len q rest words hsg hbusy herr haddr hlen hpos hsum hpass hroom hp hq hsched
  have ha : accepts s.tx = true := (accepts_iff _).mpr ⟨hbusy, herr⟩
  have hstart : startError addr len = none :=
    (startError_none_iff ..).mpr ⟨fun h0 => absurd hlen (by simp [h0, hpos.ne']), by omega, haddr, hsum⟩
  have hxfer : BitVec.ofNat 32 (4 * words) = len := by rw [← hlen, BitVec.ofNat_toNat, BitVec.setWidth_eq]
  refine ⟨_, statusView_transferAt_total s.tx (addr := addr) (len := len) (total := words) false, ?_⟩
  calc run (words + 3) s
    _ = run (words + 1) ((transmitAt s addr len words 0).withTurns
          (List.replicate words (.agent .tx) ++ .agent .host :: rest)) := by
        rw [← calling_eq_transmitAt]
        exact run_transferCall_start (c := .tx) hq hsched hp hsg ha hstart hpos (words + 1)
    _ = run 1 ((transmitAt s addr len words words).withTurns (.agent .host :: rest)) :=
        run_replicate (f := transmitAt s addr len words) (fun n hn => stepAgent_transmitAt hlen hpass hroom hn) _ 1
    _ = _ := run_transferCall_ok (s := (transmitAt s addr len words words).withTurns (.agent .host :: rest)) (c := .tx)
        hq rfl rfl (accepts_transferAt_total s.tx herr)
    _ = _ := by
        simp only [transmitAt, State.withTurns, transferAt_total, hxfer, hp, framePrefix_words, readStatus, chan_tx, hsg]

end Sys2Proof.Machine
end

section
/-! One complete receive (43_transfer_engine.md R201, R212): after `n` beats the first `n` payloads of the frame are in the
buffer, and the word with `last` ends the transfer whatever the length. -/

namespace Sys2Proof.Machine

/-! ### Words stored one after another -/

/-- Host memory with the words `f 0 .. f (n - 1)` written from address `a` on. -/
def storeWords (m : List Host.Cell) (a : Nat) (f : Nat → Word) : Nat → List Host.Cell
  | 0     => m
  | n + 1 => Memory.writeWord (storeWords m a f n) (a + 4 * n) (f n)

section
variable {m : List Host.Cell} {a : Nat} {f : Nat → Word}

theorem wf_storeWords (h : Memory.wf m = true) (n : Nat) : Memory.wf (storeWords m a f n) = true := by
  induction n with
  | zero => exact h
  | succ n ih => exact Memory.wf_writeWord _ _ ih

/-- Every word stored is there at the end: a later one is written above it. -/
theorem readWord_storeWords (h : Memory.wf m = true) {n j : Nat} (hj : j < n) :
    Memory.readWord (storeWords m a f n) (a + 4 * j) = f j := by
  induction n with
  | zero => exact absurd hj (Nat.not_lt_zero j)
  | succ n ih =>
    obtain hj | rfl := Nat.lt_succ_iff_lt_or_eq.mp hj
    · rw [storeWords, Memory.readWord_writeWord_outside _ _ (by omega), ih hj]
    · exact Memory.readWord_writeWord_same _ _ (wf_storeWords h j)

theorem readByte_storeWords_outside {n b : Nat} (h : b < a ∨ a + 4 * n ≤ b) :
    Memory.readByte (storeWords m a f n) b = Memory.readByte m b := by
  induction n with
  | zero => rfl
  | succ n ih => rw [storeWords, Memory.readByte_writeWord_outside _ _ (by omega), ih (by omega)]

end

/-! ### The beats -/

/-- The state when `n` beats of the receive that `s` starts have been made, the host being at its poll. -/
def receiveAt (s : State) (addr len : Word) (frame tail : List StreamWord) (n : Nat) : State :=
  { s with
    outq := frame.drop n ++ tail
    mem := storeWords s.mem addr.toNat (payloadAt frame) n
    rx := transferAt s.rx addr len frame.length n
    host := { s.host with pos := 2 } }

theorem payloadAt_eq_getElem {frame : List StreamWord} {n : Nat} (h : n < frame.length) :
    payloadAt frame n = frame[n].data := by
  simp [payloadAt, decodeWord, h]

/-- A frame ends at its only word with `last` (43_transfer_engine.md R201). -/
def IsFrame (frame : List StreamWord) : Prop :=
  ∀ (n : Nat) (h : n < frame.length), frame[n].last = decide (n + 1 = frame.length)

theorem isFrame_append {ws : List StreamWord} {w : StreamWord} (hws : ∀ u ∈ ws, u.last = false) (hw : w.last = true) :
    IsFrame (ws ++ [w]) := by
  intro n h
  rw [List.length_append, List.length_singleton] at h
  by_cases hn : n < ws.length
  · rw [List.getElem_append_left hn, hws _ (List.getElem_mem hn)]
    simp [hn.ne]
  · obtain rfl : n = ws.length := by omega
    simp [hw]

theorem calling_eq_receiveAt {s : State} {frame tail : List StreamWord} (h : s.outq = frame ++ tail) (addr len : Word)
    (l : List Turn) :
    s.calling .rx (transferAt s.rx addr len frame.length 0) 2 l = (receiveAt s addr len frame tail 0).withTurns l := by
  simp only [receiveAt, List.drop_zero, ← h]
  rfl

/-- A beat pops the next word of the frame and stores its payload. -/
theorem stepAgent_receiveAt {s : State} {addr len : Word} {frame tail : List StreamWord} (hframe : IsFrame frame)
    (hlen : 4 * frame.length ≤ len.toNat) (hpass : beatsPass s.cfg .rx addr.toNat frame.length) {n : Nat}
    (hn : n < frame.length) (l : List Turn) :
    stepAgent .rx ((receiveAt s addr len frame tail n).withTurns l) =
      .next ((receiveAt s addr len frame tail (n + 1)).withTurns l) := by
  have hlt : 4 * n < 2 ^ 32 := by have := len.isLt; omega
  have haddr := beatAddr_transferAt s.rx (addr := addr) (len := len) (total := frame.length) hlt
  have hq : frame.drop n ++ tail = frame[n] :: (frame.drop (n + 1) ++ tail) := by
    rw [List.drop_eq_getElem_cons hn, List.cons_append]
  have hpop := exec_rxBeat_pop (s := (receiveAt s addr len frame tail n).withTurns l) (decide_eq_true hn) hq
    ((congrArg _ haddr).trans (beatError_of_beatsPass hpass hn))
  rw [stepAgent, stepChannel_rx]
  refine Eq.trans hpop ?_
  simp only [receiveAt, State.withTurns, haddr, payloadAt_eq_getElem hn, hframe n hn, storeWords]
  by_cases hend : n + 1 = frame.length
  · simp only [decide_eq_true hend, if_true, transferAt_completed _ hend]
  · have hmore : lastBeat (transferAt s.rx addr len frame.length n) = false := by
      rw [lastBeat_transferAt s.rx hlt]
      exact decide_eq_false (by omega)
    simp only [decide_eq_false hend, hmore, if_false, Bool.false_eq_true,
      transferAt_counted _ (by omega : n + 1 < frame.length)]

/-- The two writes start the channel, a beat for each word of the frame stores its payload, and the poll finds the channel
done. -/
theorem run_receive {s : State} {addr len : Word} {q : List HostOp} {rest : List Turn} {frame tail : List StreamWord}
    (hframe : IsFrame frame) (hpos : 0 < frame.length) (hfits : 4 * frame.length ≤ len.toNat)
    (hstart : startError addr len = none) (hsg : s.cfg.sgMode = false) (hbusy : s.rx.busy = false)
    (herr : s.rx.err = false) (hpass : beatsPass s.cfg .rx addr.toNat frame.length) (hout : s.outq = frame ++ tail)
    (hp : s.host.pos = 0) (hq : s.host.queue = .op (encode (.receive addr len)) :: q)
    (hsched : s.sched =
      .agent .host :: .agent .host :: (List.replicate frame.length (.agent .rx) ++ .agent .host :: rest)) :
    run (frame.length + 3) s = .next { s with
      outq := tail
      mem := storeWords s.mem addr.toNat (payloadAt frame) frame.length
      rx := { s.rx with
        addr := addr, len := len, xfer := BitVec.ofNat 32 (4 * frame.length), busy := false, done := true }
      host := { s.host with
        queue := q, x := statusWord false (transferAt s.rx addr len frame.length frame.length), ret := .ok }
      sched := rest } := by
  have ha : accepts s.rx = true := (accepts_iff _).mpr ⟨hbusy, herr⟩
  calc run (frame.length + 3) s
    _ = run (frame.length + 1) ((receiveAt s addr len frame tail 0).withTurns
          (List.replicate frame.length (.agent .rx) ++ .agent .host :: rest)) := by
        rw [← calling_eq_receiveAt hout]
        exact run_transferCall_start (c := .rx) hq hsched hp hsg ha hstart hpos (frame.length + 1)
    _ = run 1 ((receiveAt s addr len frame tail frame.length).withTurns (.agent .host :: rest)) :=
        run_replicate (f := receiveAt s addr len frame tail)
          (fun n hn => stepAgent_receiveAt hframe hfits hpass hn) _ 1
    _ = _ := run_transferCall_ok
        (s := (receiveAt s addr len frame tail frame.length).withTurns (.agent .host :: rest)) (c := .rx)
        hq rfl rfl (accepts_transferAt_total s.rx herr)
    _ = _ := by
        simp only [receiveAt, State.withTurns, transferAt_total, hp, List.drop_length, List.nil_append, readStatus,
          chan_rx, hsg]

/-- Settles O49: the run of the frame `ws ++ [w]`, whose payloads are where their beats stored them. -/
theorem completeReceive : Obligations.CompleteReceive := by
  intro s addr len q rest ws tail w hsg hbusy herr haddr hlen hsum hwf hout hws hw hfits hpass hp hq hsched
  have hlength : (ws ++ [w]).length = ws.length + 1 := List.length_append
  have hstart : startError addr len = none :=
    (startError_none_iff ..).mpr ⟨fun h0 => absurd hfits (by simp [h0]), hlen, haddr, hsum⟩
  have hrun := run_receive (tail := tail) (isFrame_append hws hw) (by omega) (by rwa [hlength]) hstart hsg hbusy herr
    (by rwa [hlength]) (by rw [hout, List.append_assoc]; rfl) hp hq (by rw [hlength]; exact hsched)
  rw [hlength] at hrun
  refine ⟨_, _, statusView_transferAt_total s.rx false, hrun, fun n u hu => ?_,
    fun b hb => readByte_storeWords_outside hb⟩
  obtain ⟨hn, rfl⟩ := List.getElem?_eq_some_iff.mp hu
  rw [readWord_storeWords hwf (hlength ▸ hn), payloadAt_eq_getElem hn]

end Sys2Proof.Machine
end

section
/-! The host procedures, access by access (44_host_procedures.md R241 to R247): what an address write, a start write and a
poll do as a procedure's access, once for every procedure, and which access each position of a procedure makes. -/

namespace Sys2Proof.Machine

/-! ### A start write as an access -/

section
variable {c : Chan} {v : Word} {n : Nat} {s : State} {i : Instr}

/-- On a build without scatter-gather an address write answers. -/
theorem writeAddr_answers (hsg : s.cfg.sgMode = false) : ∃ t, writeAddr c v s = .next t := by
  cases ha : accepts (s.chan c) with
  | false => exact ⟨_, writeAddr_ignored hsg ha⟩
  | true => exact ⟨_, writeAddr_accepted hsg ha⟩

/-- On a build without scatter-gather a start write answers. -/
theorem writeLen_answers (hsg : s.cfg.sgMode = false) : ∃ t, writeLen c v s = .next t := by
  cases ha : accepts (s.chan c) with
  | false => exact ⟨_, writeLen_ignored hsg ha⟩
  | true =>
    cases he : startError (s.chan c).addr v with
    | none => exact ⟨_, writeLen_started hsg ha he⟩
    | some code => exact ⟨_, writeLen_startFailed hsg ha he⟩

theorem exec_of_addrThen (hi : exec i s = addrThen c v n s) (hsg : s.cfg.sgMode = false) :
    ∃ t, exec (wrAddr c v) s = .next t ∧ exec i s = .next (t.atPos n) := by
  obtain ⟨t, ht⟩ := writeAddr_answers (c := c) (v := v) hsg
  exact ⟨t, (exec_wrAddr c v s).trans ht, by rw [hi, addrThen, ht, andThen_next]⟩

theorem exec_of_lenThen (hi : exec i s = lenThen c v n s) (hsg : s.cfg.sgMode = false) :
    ∃ t, exec (wrLen c v) s = .next t ∧ exec i s = .next (t.atPos n) := by
  obtain ⟨t, ht⟩ := writeLen_answers (c := c) (v := v) hsg
  exact ⟨t, (exec_wrLen c v s).trans ht, by rw [hi, lenThen, ht, andThen_next]⟩

theorem addrThen_refused (hsg : s.cfg.sgMode = true) : addrThen c v n s = .refused (.scatterGatherBuild c) := by
  rw [addrThen, writeAddr_refused hsg, andThen_refused]

theorem lenThen_refused (hsg : s.cfg.sgMode = true) : lenThen c v n s = .refused (.scatterGatherBuild c) := by
  rw [lenThen, writeLen_refused hsg, andThen_refused]

/-! ### A poll as an access -/

/-- A poll reads the status; it stays while `BUSY = 1`, fails with the code read, or goes on (R247). -/
theorem exec_of_pollThen {goOn : State → State} (hi : exec i s = .next (pollThen c goOn s)) :
    ∃ v, isStatusView v s.cfg.sgMode (s.chan c) ∧
      ((s.chan c).busy = true → exec i s = .next (s.bind v)) ∧
      ((s.chan c).busy = false → (s.chan c).err = true →
        exec i s = .next ((s.bind v).ret (.transferError (s.chan c).errcode))) ∧
      ((s.chan c).busy = false → (s.chan c).err = false → exec i s = .next (goOn (s.bind v))) := by
  rw [hi, pollThen_eq]
  exact ⟨readStatus c s, statusWord_view _ _, fun hb => by rw [if_pos hb], fun hb he => by simp [hb, he],
    fun hb he => by simp [hb, he]⟩

end

/-! ### TRANSMIT and RECEIVE -/

/-- The accesses of the procedure of channel `c`: its address write, its start write, and its polls. -/
theorem transferProcedure (c : Chan) (addr len : Word) (s : State) :
    (s.host.pos = 0 → s.cfg.sgMode = false → ∃ t, exec (wrAddr c addr) s = .next t ∧
      exec (transferCall c addr len) s = .next (t.atPos 1)) ∧
    (s.host.pos = 1 → s.cfg.sgMode = false → ∃ t, exec (wrLen c len) s = .next t ∧
      exec (transferCall c addr len) s = .next (t.atPos 2)) ∧
    (s.host.pos < 2 → s.cfg.sgMode = true → exec (transferCall c addr len) s = .refused (.scatterGatherBuild c)) ∧
    (s.host.pos = 2 → ∃ v, isStatusView v s.cfg.sgMode (s.chan c) ∧
      ((s.chan c).busy = true → exec (transferCall c addr len) s = .next (s.bind v)) ∧
      ((s.chan c).busy = false → (s.chan c).err = true →
        exec (transferCall c addr len) s = .next ((s.bind v).ret (.transferError (s.chan c).errcode))) ∧
      ((s.chan c).busy = false → (s.chan c).err = false →
        exec (transferCall c addr len) s = .next ((s.bind v).ret .ok))) := by
  refine ⟨fun hp => exec_of_addrThen (exec_transferCall_addr hp), fun hp => exec_of_lenThen (exec_transferCall_len hp),
    fun hp hsg => ?_, fun hp => exec_of_pollThen (exec_transferCall_poll hp)⟩
  obtain hp | hp : s.host.pos = 0 ∨ s.host.pos = 1 := by omega
  · exact (exec_transferCall_addr hp).trans (addrThen_refused hsg)
  · exact (exec_transferCall_len hp).trans (lenThen_refused hsg)

/-- Settles O45: the accesses of the procedure of channel TX. -/
theorem transmitProcedure : Obligations.TransmitProcedure := transferProcedure .tx

/-- Settles O46: the accesses of the procedure of channel RX. -/
theorem receiveProcedure : Obligations.ReceiveProcedure := transferProcedure .rx

/-! ### OFFLOAD -/

section
variable {inbuf outbuf : Word} {s : State}

theorem exec_offload_txAddr (hp : s.host.pos = 0) : exec (.offload inbuf outbuf) s = addrThen .tx inbuf 1 s := by
  simp [exec, execOffload, hp]

theorem exec_offload_txLen (hp : s.host.pos = 1) : exec (.offload inbuf outbuf) s = lenThen .tx (inputLen s.cfg) 2 s := by
  simp [exec, execOffload, hp]

theorem exec_offload_txPoll (hp : s.host.pos = 2) :
    exec (.offload inbuf outbuf) s = .next (pollThen .tx (fun t => t.atPos 3) s) := by
  simp [exec, execOffload, hp]

theorem exec_offload_rxAddr (hp : s.host.pos = 3) : exec (.offload inbuf outbuf) s = addrThen .rx outbuf 4 s := by
  simp [exec, execOffload, hp]

theorem exec_offload_rxLen (hp : s.host.pos = 4) : exec (.offload inbuf outbuf) s = lenThen .rx (outputLen s.cfg) 5 s := by
  simp [exec, execOffload, hp]

theorem exec_offload_rxPoll (hp : s.host.pos = 5) :
    exec (.offload inbuf outbuf) s = .next (pollThen .rx (fun t => t.ret .ok) s) := by
  simp [exec, execOffload, hp]

end

/-- The buffer lengths of a well-formed build fit a register (20_memory.md R68). -/
theorem toNat_bufferLen {c : Config} (h : c.wellFormed = true) :
    (inputLen c).toNat = 8 * c.n ∧ (outputLen c).toNat = 4 * c.n := by
  simp only [Config.wellFormed, Bool.and_eq_true, decide_eq_true_eq] at h
  obtain ⟨-, hn⟩ := h
  rw [inputLen, outputLen, BitVec.toNat_ofNat, BitVec.toNat_ofNat]
  omega

/-- Settles O47: the accesses of TRANSMIT, then those of RECEIVE, each at its own position. -/
theorem offloadProcedure : Obligations.OffloadProcedure := by
  intro inbuf outbuf s hwf
  obtain ⟨hin, hout⟩ := toNat_bufferLen hwf
  refine ⟨fun hp => exec_of_addrThen (exec_offload_txAddr hp), fun hp hsg => ?_, fun hp hsg => ?_,
    fun hp => exec_of_pollThen (exec_offload_txPoll hp), fun hp => exec_of_addrThen (exec_offload_rxAddr hp),
    fun hp hsg => ?_, fun hp hsg => ?_, fun hp => exec_of_pollThen (exec_offload_rxPoll hp)⟩
  · exact ⟨_, (exec_of_lenThen (exec_offload_txLen hp) hsg).imp fun _ ht => ⟨hin, ht⟩⟩
  · obtain hp | hp := hp
    · exact (exec_offload_txAddr hp).trans (addrThen_refused hsg)
    · exact (exec_offload_txLen hp).trans (lenThen_refused hsg)
  · exact ⟨_, (exec_of_lenThen (exec_offload_rxLen hp) hsg).imp fun _ ht => ⟨hout, ht⟩⟩
  · obtain hp | hp := hp
    · exact (exec_offload_rxAddr hp).trans (addrThen_refused hsg)
    · exact (exec_offload_rxLen hp).trans (lenThen_refused hsg)

/-! ### INIT, IS_SG and DISABLE_IRQ -/

/-- A test of `SG` reads the status; it fails the procedure on a scatter-gather build, or goes on (R241). -/
theorem exec_of_checkSgThen {c : Chan} {n : Nat} {s : State} {i : Instr} (hi : exec i s = .next (checkSgThen c n s)) :
    ∃ v, isStatusView v s.cfg.sgMode (s.chan c) ∧
      (s.cfg.sgMode = true → exec i s = .next ((s.bind v).ret .configurationError)) ∧
      (s.cfg.sgMode = false → exec i s = .next ((s.bind v).atPos n)) := by
  rw [hi, checkSgThen_eq]
  exact ⟨readStatus c s, statusWord_view _ _, fun hsg => by rw [if_pos hsg], fun hsg => by simp [hsg]⟩

section
variable {s : State}

theorem exec_init_absent (hp : s.host.pos = 0) (hb : s.cfg.btcPresent = false) :
    exec .init s = .next (s.ret .configurationError) := by
  simp [exec, execInit, hp, hb]

theorem exec_init_txSg (hp : s.host.pos = 0) (hb : s.cfg.btcPresent = true) :
    exec .init s = .next (checkSgThen .tx 1 s) := by
  simp [exec, execInit, hp, hb]

theorem exec_init_rxSg (hp : s.host.pos = 1) : exec .init s = .next (checkSgThen .rx 2 s) := by
  simp [exec, execInit, hp]

theorem exec_init_txCtrl (hp : s.host.pos = 2) : exec .init s = .next ((writeCtrl .tx 0#32 s).atPos 3) := by
  simp [exec, execInit, hp]

theorem exec_init_rxCtrl (hp : s.host.pos = 3) : exec .init s = .next ((writeCtrl .rx 0#32 s).ret .ok) := by
  simp [exec, execInit, hp]

end

/-- At position 0 a procedure that returns leaves the position as it is. -/
theorem ret_of_pos_zero {s : State} (hp : s.host.pos = 0) (r : Ret) :
    s.ret r = { s with host := { s.host with ret := r } } := by
  rw [State.ret, ← hp]

/-- Settles O42: each position's access, the two tests of `SG` before the two writes. -/
theorem initProcedure : Obligations.InitProcedure := by
  intro s
  refine ⟨fun hp hb => ?_, fun hp hb => ?_, fun hp => exec_of_checkSgThen (exec_init_rxSg hp), exec_init_txCtrl,
    exec_init_rxCtrl⟩
  · rw [exec_init_absent hp hb, ret_of_pos_zero hp]
  · obtain ⟨v, hv, hfail, hgo⟩ := exec_of_checkSgThen (exec_init_txSg hp hb)
    refine ⟨v, hv, fun hsg => ?_, hgo⟩
    rw [hfail hsg, ret_of_pos_zero (s := s.bind v) hp]
    rfl

/-- Settles O43: the call reads bit 8 of the status, which no call changes. -/
theorem isSgProcedure : Obligations.IsSgProcedure := by
  intro s
  have hcall : exec .isSg s = .next ((s.bind (readStatus .tx s)).ret (.bool s.cfg.sgMode)) := by
    rw [← readStatus_sg .tx s]
    rfl
  refine ⟨readStatus .tx s, statusWord_view _ _, hcall, ?_⟩
  rw [hcall, ← readStatus_sg .tx s]
  rfl

@[simp] theorem chan_ret (s : State) (r : Ret) (d : Chan) : (s.ret r).chan d = s.chan d := by cases d <;> rfl

/-- Settles O44: the call is a write of 0 to the channel's `c_CTRL`, which lowers the request line. -/
theorem disableIrqProcedure : Obligations.DisableIrqProcedure := by
  intro c s
  refine ⟨(writeCtrl c 0#32 s).ret .ok, rfl, ?_, ?_, fun d hd => ?_, ?_⟩
  · simp [writeCtrl]
  · simp [writeCtrl, irq]
  · rw [chan_ret, writeCtrl, chan_setChan_other s c d _ hd]
  · simp [writeCtrl]

end Sys2Proof.Machine
end

section
/-! The host's loads and stores (20_memory.md R60, R61, R77): in host memory, at a register's address, and outside both. -/

namespace Sys2Proof.Machine

/-! ### Where an address lies -/

theorem inRegisterBlock_false_iff (c : Config) (a : Nat) :
    inRegisterBlock c a = false ↔ ¬ (btcBase c ≤ a ∧ a < btcBase c + 0x40) := by
  rw [← inRegisterBlock_iff, Bool.not_eq_true]

theorem touchesRegisterBlock_false_iff (c : Config) (a : Nat) :
    touchesRegisterBlock c a = false ↔ ∀ n < 4, inRegisterBlock c (a + n) = false := by
  rw [← Bool.not_eq_true, touchesRegisterBlock_iff]
  simp

/-- Mapped memory lies outside the register block (20_memory.md R67). -/
theorem inRegisterBlock_of_mapped {c : Config} {a : Nat} (h : mapped c a = true) : inRegisterBlock c a = false := by
  simp only [mapped, Bool.and_eq_true, Bool.not_eq_true'] at h
  exact h.2

theorem mappedWord_false_of {c : Config} {a : Nat} (h : ∃ n < 4, mapped c (a + n) = false) : mappedWord c a = false := by
  obtain ⟨n, hn, hm⟩ := h
  rw [← Bool.not_eq_true, mappedWord_iff]
  exact fun hall => Bool.false_ne_true (hm.symm.trans (hall n hn))

/-! ### Outside the register block -/

section
variable {s : State} {a : Word}

theorem hostLoad_of_untouched (h : touchesRegisterBlock s.cfg a.toNat = false) :
    hostLoad a s = if mappedWord s.cfg a.toNat then .next (s.bind (Memory.readWord s.mem a.toNat))
      else .fault (.hostAccessOutsideMemory a) := by
  have hb : inRegisterBlock s.cfg a.toNat = false := (touchesRegisterBlock_false_iff ..).mp h 0 (by decide)
  simp only [hostLoad, hb, h, Bool.false_eq_true, if_false]

theorem hostStore_of_untouched (v : Word) (h : touchesRegisterBlock s.cfg a.toNat = false) :
    hostStore a v s = if mappedWord s.cfg a.toNat then .next { s with mem := Memory.writeWord s.mem a.toNat v }
      else .fault (.hostAccessOutsideMemory a) := by
  have hb : inRegisterBlock s.cfg a.toNat = false := (touchesRegisterBlock_false_iff ..).mp h 0 (by decide)
  simp only [hostStore, hb, h, Bool.false_eq_true, if_false]

theorem hostLoadByte_of_outside (h : inRegisterBlock s.cfg a.toNat = false) :
    hostLoadByte a s = if mapped s.cfg a.toNat then .next (s.bind ((Memory.readByte s.mem a.toNat).setWidth 32))
      else .fault (.hostAccessOutsideMemory a) := by
  rw [hostLoadByte, h, if_neg Bool.false_ne_true]

theorem hostStoreByte_of_outside (v : Byte) (h : inRegisterBlock s.cfg a.toNat = false) :
    hostStoreByte a v s = if mapped s.cfg a.toNat then .next { s with mem := Memory.writeByte s.mem a.toNat v }
      else .fault (.hostAccessOutsideMemory a) := by
  rw [hostStoreByte, h, if_neg Bool.false_ne_true]

end

/-! ### At a register's address -/

section
variable {s : State} {a : Word} {off : BitVec 6} (ha : a.toNat = btcBase s.cfg + off.toNat)
include ha

theorem inRegisterBlock_of_offset : inRegisterBlock s.cfg a.toNat = true := by
  have hoff : off.toNat < 0x40 := off.isLt
  exact (inRegisterBlock_iff ..).mpr ⟨by omega, by omega⟩

theorem blockOffset_of_offset : blockOffset s.cfg a = off := by
  rw [blockOffset, ha, Nat.add_sub_cancel_left, BitVec.ofNat_toNat, BitVec.setWidth_eq]

theorem hostLoad_of_offset : hostLoad a s = hostWord (encodeRead off) s := by
  rw [hostLoad, if_pos (inRegisterBlock_of_offset ha), blockOffset_of_offset ha]

theorem hostStore_of_offset (v : Word) : hostStore a v s = hostWord (encodeWrite off v) s := by
  rw [hostStore, if_pos (inRegisterBlock_of_offset ha), blockOffset_of_offset ha]

end

/-- A register read answers in every state (43_transfer_engine.md R191). -/
theorem exec_read_answers {off : BitVec 6} {i : Instr} (h : decodeRead off = .ok i) (s : State) :
    ∃ t, exec i s = .next t := by
  unfold decodeRead at h
  split at h <;> cases h <;> exact ⟨_, rfl⟩

/-- The name of a read is bound among the names bound before it. -/
theorem nameResult_of_exec {i : Instr} {s t : State} (h : exec i s = .next t) (x : Nat) :
    nameResult x (exec i s) = .next { t with host := { t.host with env := insertAt x t.host.x s.host.env } } := by
  have hs := exec_steering h
  simp only [State.steering, Prod.mk.injEq] at hs
  obtain ⟨-, -, -, -, henv⟩ := hs
  rw [h, nameResult, andThen_next, State.bindName, henv]

theorem hostWord_read {reg : BitVec 6} {i : Instr} (h : decode (encodeRead reg) = .ok i) (s : State) :
    hostWord (encodeRead reg) s = exec i s := hostWord_of_decode (w := encodeRead reg) rfl h s

theorem hostWord_write {reg : BitVec 6} {v : Word} {i : Instr} (h : decode (encodeWrite reg v) = .ok i) (s : State) :
    hostWord (encodeWrite reg v) s = exec i s := hostWord_of_decode (w := encodeWrite reg v) rfl h s

/-- Settles O52: a mapped access is the memory's, one at a register's address is the register's, one outside both faults. -/
theorem hostLoadsAndStores : Obligations.HostLoadsAndStores := by
  intro s a v x hwf
  refine ⟨fun hm => ?_, fun off hoff ha => ?_, fun hout hm => ?_, fun hm => ?_, fun hm hout => ?_⟩
  · have hu : touchesRegisterBlock s.cfg a.toNat = false :=
      (touchesRegisterBlock_false_iff ..).mpr fun n hn => inRegisterBlock_of_mapped (hm n hn)
    have hw : mappedWord s.cfg a.toNat = true := (mappedWord_iff ..).mpr hm
    refine ⟨?_, _, ?_, Memory.readWord_writeWord_same a.toNat v hwf,
      fun b hb => Memory.readByte_writeWord_outside s.mem v hb⟩
    · rw [hostOp, withValue_num, hostLoad_of_untouched hu, if_pos hw]
      rfl
    · rw [hostOp, withValue_num, withValue_num, hostStore_of_untouched v hu, if_pos hw]
  · obtain ⟨⟨i, hi⟩, j, hj⟩ := aligned_offset_selects v hoff
    have hi' := (decode_encodeRead off).trans hi
    have hj' := (decode_encodeWrite off v).trans hj
    obtain ⟨t, ht⟩ := exec_read_answers hi s
    refine ⟨⟨j, hj', ?_⟩, i, t, hi', ht, ?_⟩
    · rw [hostOp, withValue_num, withValue_num, hostStore_of_offset ha, hostWord_write hj']
    · rw [hostOp, withValue_num, hostLoad_of_offset ha, hostWord_read hi', nameResult_of_exec ht]
  · have hu : touchesRegisterBlock s.cfg a.toNat = false :=
      (touchesRegisterBlock_false_iff ..).mpr fun n hn => (inRegisterBlock_false_iff ..).mpr (hout n hn)
    have hw := mappedWord_false_of hm
    refine ⟨?_, ?_⟩
    · rw [hostOp, withValue_num, hostLoad_of_untouched hu, hw]
      rfl
    · rw [hostOp, withValue_num, withValue_num, hostStore_of_untouched v hu, hw]
      rfl
  · have hb := inRegisterBlock_of_mapped hm
    refine ⟨?_, _, ?_, (Memory.readByte_writeByte_same a.toNat _ hwf).trans (BitVec.setWidth_eq_extractLsb' (by decide)),
      fun b hne => Memory.readByte_writeByte_other s.mem _ hne⟩
    · rw [hostOp, withValue_num, hostLoadByte_of_outside hb, if_pos hm]
      rfl
    · rw [hostOp, withValue_num, withValue_num, hostStoreByte_of_outside _ hb, if_pos hm]
  · have hb := (inRegisterBlock_false_iff ..).mpr hout
    refine ⟨?_, ?_⟩
    · rw [hostOp, withValue_num, hostLoadByte_of_outside hb, hm]
      rfl
    · rw [hostOp, withValue_num, withValue_num, hostStoreByte_of_outside _ hb, hm]
      rfl

end Sys2Proof.Machine
end

section
/-! The host's turn (44_host_procedures.md R240) and the lines of its program (30_encoding.md R101): what each form of an
operation performs where its names are bound, and that an unbound name is refused where its value is needed (log 23). -/

namespace Sys2Proof.Machine

/-! ### The turn -/

theorem retire_of_pos_zero {t : State} (h : t.host.pos = 0) :
    retire t = { t with host := { t.host with queue := t.host.queue.tail } } := if_pos h

theorem retire_of_pos_ne_zero {t : State} (h : t.host.pos ≠ 0) : retire t = t := if_neg h

/-- The host's turn is the operation at the head of its queue, which then leaves the queue unless it is under way. -/
theorem step_host {s : State} {rest : List Turn} {op : HostOp} {q : List HostOp} (hs : s.sched = .agent .host :: rest)
    (hq : s.host.queue = op :: q) : step s = andThen (hostOp op { s with sched := rest }) fun t => .next (retire t) := by
  rw [step_agent hs, stepAgent, stepHost, hq]

/-! ### Lines that need values -/

theorem hostOp_call {s : State} {p : Proc} {args : List Value} {ws : List Word} {i : Instr}
    (hws : valuesOf s.host.env args = some ws) (hi : decode (.pseudo p ws) = .ok i) :
    hostOp (.call p args) s = exec i s := by
  rw [hostOp, hws, withBound_some, hostWord_of_decode (w := .pseudo p ws) rfl hi]

section
variable {s t : State} {x : Nat} {reg : BitVec 6} {i : Instr} (hi : decode (encodeRead reg) = .ok i)
  (ht : exec i s = .next t)
include hi ht

theorem hostOp_rd : hostOp (.rd x reg) s =
    .next { t with host := { t.host with env := insertAt x t.host.x s.host.env } } := by
  rw [hostOp, hostWord_read hi, nameResult_of_exec ht]

theorem hostOp_poll {mask want : Value} : hostOp (.poll x reg mask want) s =
    withBound (valueOf (insertAt x t.host.x s.host.env) mask) fun m =>
      withBound (valueOf (insertAt x t.host.x s.host.env) want) fun w =>
        .next { t with host := { t.host with
          env := insertAt x t.host.x s.host.env, pos := if t.host.x &&& m = w then 0 else 1 } } := by
  rw [hostOp, hostPoll, hostWord_read hi, nameResult_of_exec ht]
  rfl

end

/-! ### Lines that stop the program -/

section
variable {s : State} {v mask want : Value} {a m w : Word} (hv : valueOf s.host.env v = some a)
  (hm : valueOf s.host.env mask = some m) (hw : valueOf s.host.env want = some w)
include hv hm hw

theorem hostOp_failIf_masked (kind : FailKind) : hostOp (.failIf (.masked v mask want) kind) s =
    if a &&& m = w then failAs kind s else .next s := by
  rw [hostOp, withCond, withValue_some hv, withValue_some hm, withValue_some hw]
  simp only [decide_eq_true_eq]

end

theorem hostOp_failIf_absent (s : State) (kind : FailKind) : hostOp (.failIf .absent kind) s =
    if s.cfg.btcPresent = false then failAs kind s else .next s := by
  rw [hostOp, withCond]
  cases s.cfg.btcPresent <;> rfl

theorem failAs_transferError {s : State} {st : Value} {c : Word} (h : valueOf s.host.env st = some c) :
    failAs (.transferError st) s = .next (s.failWith (.transferError (c.extractLsb' 4 3))) := withValue_some h _

theorem failAs_unbound {s : State} {st : Value} (h : valueOf s.host.env st = none) :
    failAs (.transferError st) s = .refused .unboundName := withValue_none h _

/-! ### Unbound names -/

/-- A value needed after another that may itself be unbound: either name is refused. -/
theorem withBound_unbound {α : Type} (o : Option α) {f : α → Result} (hf : ∀ w, f w = .refused .unboundName) :
    withBound o f = .refused .unboundName := by
  cases o with
  | some w => exact hf w
  | none => rfl

theorem hostOp_failIf_unbound {s : State} {v a b c : Value} (hv : valueOf s.host.env v = none)
    (h : v = a ∨ v = b ∨ v = c) (kind : FailKind) : hostOp (.failIf (.masked a b c) kind) s = .refused .unboundName := by
  rw [hostOp, withCond]
  obtain rfl | rfl | rfl := h
  · exact withValue_none hv _
  · exact withBound_unbound _ fun _ => withValue_none hv _
  · exact withBound_unbound _ fun _ => withBound_unbound _ fun _ => withValue_none hv _

/-- Settles O5: the turn, then each form of an operation by the values its line needs. -/
theorem hostStepRunsQueueHead : Obligations.HostStepRunsQueueHead := by
  refine ⟨fun s rest op q hs hq => ?_, fun s w i hsel hi => hostWord_of_decode hsel hi s, fun s reg v w i hv hi => ?_,
    fun s t x reg i hi ht => ?_, fun s p args ws i => hostOp_call, fun s v mask want st a m w c hv hm hw hst => ?_,
    fun s => ?_, fun s v hv => ?_, fun s => ⟨fun code => rfl, fun c busy => rfl⟩⟩
  · rw [step_host hs hq]
    refine ⟨fun t ht => ⟨fun hp => ?_, fun hp => ?_⟩, fun e he => by rw [he, andThen_fault],
      fun e he => by rw [he, andThen_refused]⟩
    · rw [ht, andThen_next, retire_of_pos_zero hp]
    · rw [ht, andThen_next, retire_of_pos_ne_zero hp]
  · rw [hostOp, withValue_some hv, hostWord_write hi]
  · refine ⟨insertAt x t.host.x s.host.env, lookup_insertAt_same .., fun y hy => lookup_insertAt_other _ _ hy,
      hostOp_rd hi ht, fun mask want m w hm hw => ?_, fun mask want h => ?_⟩
    · rw [hostOp_poll hi ht, hm, hw, withBound_some, withBound_some]
    · rw [hostOp_poll hi ht]
      obtain h | h := h
      · rw [h, withBound_none]
      · exact withBound_unbound _ fun _ => by rw [h, withBound_none]
  · refine ⟨fun hne kind => ?_, fun heq => ⟨?_, ?_⟩⟩
    · rw [hostOp_failIf_masked hv hm hw, if_neg hne]
    · rw [hostOp_failIf_masked hv hm hw, if_pos heq]
      rfl
    · rw [hostOp_failIf_masked hv hm hw, if_pos heq, failAs_transferError hst]
      rfl
  · refine ⟨fun hb kind => ?_, fun hb => ⟨?_, fun st c hst => ?_⟩⟩
    · rw [hostOp_failIf_absent, if_neg (ne_of_eq_of_ne hb (by decide))]
    · rw [hostOp_failIf_absent, if_pos hb]
      rfl
    · rw [hostOp_failIf_absent, if_pos hb, failAs_transferError hst]
      rfl
  · refine ⟨fun reg => withValue_none hv _, fun u => ⟨withValue_none hv _, ?_, withValue_none hv _, ?_⟩,
      fun x => ⟨withValue_none hv _, withValue_none hv _⟩, fun p args hmem => ?_,
      fun a b c kind h => hostOp_failIf_unbound hv h kind, fun a b c x m ha hb hc => ?_, fun hb => ?_⟩
    · exact withBound_unbound _ fun _ => withValue_none hv _
    · exact withBound_unbound _ fun _ => withValue_none hv _
    · rw [hostOp, valuesOf_none hv hmem, withBound_none]
    · rw [hostOp_failIf_masked ha hb hc, if_pos rfl, failAs_unbound hv]
    · rw [hostOp_failIf_absent, if_pos hb, failAs_unbound hv]

end Sys2Proof.Machine
end

section
/-! An OFFLOAD under way (44_host_procedures.md R246, R248): what the hardware holds after so many accesses of the procedure,
words sent, steps of the kernel and words received, whichever agents took the turns. -/

namespace Sys2Proof.Machine

/-! ### What a stream holds -/

/-- What is left in a stream of the words `l` when `j` of them have been pushed and `i` popped. -/
def segment (l : List StreamWord) (i j : Nat) : List StreamWord := (l.take j).drop i

section
variable {l : List StreamWord} {i j : Nat}

theorem segment_of_le (h : j ≤ i) : segment l i j = [] :=
  List.drop_eq_nil_of_le ((List.length_take_le j l).trans h)

theorem segment_pop (hi : i < j) (hj : j ≤ l.length) : segment l i j = l[i] :: segment l (i + 1) j := by
  rw [segment, List.drop_eq_getElem_cons (by rw [List.length_take]; omega), List.getElem_take]
  rfl

theorem segment_push (hi : i ≤ j) (hj : j < l.length) : segment l i (j + 1) = segment l i j ++ [l[j]] := by
  rw [segment, List.take_succ_eq_append_getElem hj, List.drop_append_of_le_length (by rw [List.length_take]; omega)]
  rfl

theorem segment_isEmpty (hj : j ≤ l.length) : (!(segment l i j).isEmpty) = true ↔ i < j := by
  by_cases h : i < j
  · simp [segment_pop h hj, h]
  · simp [segment_of_le (Nat.le_of_not_lt h), h]

end

theorem length_transmitFrame (m : List Host.Cell) (a words : Nat) : (transmitFrame m a words).length = words := by
  simp [transmitFrame]

theorem getElem_transmitFrame {m : List Host.Cell} {a words n : Nat} (h : n < (transmitFrame m a words).length) :
    (transmitFrame m a words)[n] = encodeWord (Memory.readWord m (a + 4 * n)) (decide (n + 1 = words)) := by
  simp [transmitFrame]

theorem length_multiplyStream (c : Config) (ws : List StreamWord) : (multiplyStream c ws).length = c.n := by
  simp [multiplyStream]

theorem getElem_multiplyStream {c : Config} {ws : List StreamWord} {n : Nat} (h : n < (multiplyStream c ws).length) :
    (multiplyStream c ws)[n] = encodeWord (productAt c ws n) (lastIndex c n) := by
  simp [multiplyStream, productAt]

/-! ### What a channel holds -/

/-- Channel `ch` when a procedure has made `p` of its accesses (the address write, the start write, polls) and `n` of the
`total` words have been moved. -/
def channelDuring (ch : Channel) (addr len : Word) (total n : Nat) : Nat → Channel
  | 0     => ch
  | 1     => { ch with addr := addr }
  | _ + 2 => transferAt ch addr len total n

section
variable {ch : Channel} {addr len : Word} {total n p : Nat}

theorem channelDuring_busy (h : ch.busy = false) :
    (channelDuring ch addr len total n p).busy = true ↔ 2 ≤ p ∧ n < total := by
  match p with
  | 0 | 1 => simp [channelDuring, h]
  | p + 2 => simp [channelDuring, transferAt]

theorem channelDuring_err : (channelDuring ch addr len total n p).err = ch.err := by
  match p with
  | 0 | 1 | p + 2 => rfl

/-- The channel takes a write before the start and after the last word. -/
theorem channelDuring_accepts (h : accepts ch = true) (hp : p < 2 ∨ total ≤ n) :
    accepts (channelDuring ch addr len total n p) = true := by
  obtain ⟨hb, he⟩ := (accepts_iff ch).mp h
  refine (accepts_iff _).mpr ⟨?_, channelDuring_err.trans he⟩
  rw [Bool.eq_false_iff, ne_eq, channelDuring_busy hb]
  omega

/-- A beat that is marked last exactly on the final word counts it, and the final word completes the transfer. -/
theorem transferAt_succ (h : n < total) :
    (if n + 1 = total then
      { transferAt ch addr len total n with
        xfer := (transferAt ch addr len total n).xfer + 4#32, busy := false, done := true }
    else { transferAt ch addr len total n with xfer := (transferAt ch addr len total n).xfer + 4#32 }) =
      transferAt ch addr len total (n + 1) := by
  split
  · next hend => exact transferAt_completed ch hend
  · next hend => exact transferAt_counted ch (by omega)

/-- The next beat is the last of a transfer exactly on its final word. -/
theorem lastBeat_transferAt_iff (hlen : len.toNat = 4 * total) (h : n < total) :
    lastBeat (transferAt ch addr len total n) = decide (n + 1 = total) := by
  have hlt : 4 * n < 2 ^ 32 := by have := len.isLt; omega
  rw [lastBeat_transferAt ch hlt, hlen]
  exact decide_eq_decide.mpr (by omega)

/-- A beat of a transfer that the platform lets pass meets no error. -/
theorem beatError_transferAt {c : Config} {dir : Chan} (hlen : len.toNat = 4 * total)
    (hpass : beatsPass c dir addr.toNat total) (h : n < total) :
    beatAddr (transferAt ch addr len total n) = addr.toNat + 4 * n ∧
      beatError c dir (beatAddr (transferAt ch addr len total n)) = none := by
  have haddr := beatAddr_transferAt ch (addr := addr) (len := len) (total := total) (n := n)
    (by have := len.isLt; omega)
  exact ⟨haddr, haddr ▸ beatError_of_beatsPass hpass h⟩

end

/-! ### What the kernel holds -/

/-- The number of the step that phase `p` makes for its element `n`, of the `4N` steps of a round. -/
def kernelIndex (c : Config) (n : Nat) : Phase → Nat
  | .loadA   => n
  | .loadB   => c.n + n
  | .compute => 2 * c.n + n
  | .store   => 3 * c.n + n

/-- The kernel when it has made `m` steps of a round over the frame `ws`. -/
def KernelAt (c : Config) (ws : List StreamWord) (m : Nat) (k : Kernel) : Prop :=
  ∃ p n, n ≤ c.n ∧ m = kernelIndex c n p ∧ RoundKernel c ws p n k

section
variable {c : Config} {ws : List StreamWord} {k : Kernel} {m : Nat}

theorem RoundKernel.next {p : Phase} (hpos : 0 < c.n) (h : RoundKernel c ws p c.n k) : RoundKernel c ws (nextPhase p) 0 k :=
  roundKernel_zero hpos (h.phase.trans (if_pos rfl)) (h.idx.trans (if_pos rfl)) (phaseHolds_next h.holds)

/-- Before the end of a round some phase has an element left. -/
theorem KernelAt.position (hpos : 0 < c.n) (h : KernelAt c ws m k) (hm : m < 4 * c.n) :
    ∃ p n, n < c.n ∧ m = kernelIndex c n p ∧ RoundKernel c ws p n k := by
  obtain ⟨p, n, hn, rfl, hk⟩ := h
  obtain hn | rfl := Nat.lt_or_eq_of_le hn
  · exact ⟨p, n, hn, rfl, hk⟩
  · refine ⟨nextPhase p, 0, hpos, ?_, hk.next hpos⟩
    cases p <;> simp only [kernelIndex, nextPhase] at hm ⊢ <;> omega

/-- After the `4N` steps of a round the kernel is where it began. -/
theorem KernelAt.round_over (hpos : 0 < c.n) (h : KernelAt c ws (4 * c.n) k) : k.phase = .loadA ∧ k.idx = 0 := by
  obtain ⟨p, n, hn, hm, hk⟩ := h
  obtain ⟨rfl, rfl⟩ : p = .store ∧ n = c.n := by
    cases p <;> simp only [kernelIndex] at hm
    case store => exact ⟨rfl, by omega⟩
    case loadA | loadB | compute => omega
  exact ⟨hk.phase.trans (if_pos rfl), hk.idx.trans (if_pos rfl)⟩

end

/-! ### The state -/

/-- How far an OFFLOAD is: the accesses it has made, 6 when it has returned; the words sent to `IN`; the steps of the kernel;
the words received from `OUT`. -/
structure OffloadCounts where
  pos      : Nat
  sent     : Nat
  steps    : Nat
  received : Nat

/-- The counts that an OFFLOAD over matrices of `n` elements can have: words are sent once TX is started and all of them
before its poll ends, and likewise received; no word is popped before it is pushed. -/
def OffloadCounts.Valid (n : Nat) (g : OffloadCounts) : Prop :=
  g.pos ≤ 6 ∧ g.sent ≤ 2 * n ∧ (g.pos < 2 → g.sent = 0) ∧ (3 ≤ g.pos → g.sent = 2 * n) ∧
    min g.steps (2 * n) ≤ g.sent ∧ g.steps ≤ 4 * n ∧ g.received ≤ g.steps - 3 * n ∧
    (g.pos < 5 → g.received = 0) ∧ (g.pos = 6 → g.received = n)

/-- The frame that OFFLOAD sends (20_memory.md R68). -/
def inputFrame (s : State) (inbuf : Word) : List StreamWord := transmitFrame s.mem inbuf.toNat (2 * s.cfg.n)

/-- The state of the hardware when the OFFLOAD that starts in `s` has the counts `g`. -/
structure OffloadAt (s : State) (inbuf outbuf : Word) (g : OffloadCounts) (t : State) : Prop where
  valid : g.Valid s.cfg.n
  cfg : t.cfg = s.cfg
  tx : t.tx = channelDuring s.tx inbuf (inputLen s.cfg) (2 * s.cfg.n) g.sent g.pos
  inq : t.inq = segment (inputFrame s inbuf) (min g.steps (2 * s.cfg.n)) g.sent
  kernel : KernelAt s.cfg (inputFrame s inbuf) g.steps t.k
  outq : t.outq = segment (multiplyStream s.cfg (inputFrame s inbuf)) g.received (g.steps - 3 * s.cfg.n)
  rx : t.rx = channelDuring s.rx outbuf (outputLen s.cfg) s.cfg.n g.received (g.pos - 3)
  mem : t.mem = storeWords s.mem outbuf.toNat (productAt s.cfg (inputFrame s inbuf)) g.received

/-- What R248 asks of the state in which OFFLOAD is called, and of its operands. -/
structure OffloadReady (s : State) (inbuf outbuf : Word) : Prop where
  wf : s.cfg.wellFormed = true
  sg : s.cfg.sgMode = false
  policy : s.cfg.nanPolicy = .canonical
  txAccepts : accepts s.tx = true
  rxAccepts : accepts s.rx = true
  txStart : startError inbuf (inputLen s.cfg) = none
  rxStart : startError outbuf (outputLen s.cfg) = none
  txPass : beatsPass s.cfg .tx inbuf.toNat (2 * s.cfg.n)
  rxPass : beatsPass s.cfg .rx outbuf.toNat s.cfg.n

section
variable {s t : State} {inbuf outbuf : Word} {g : OffloadCounts}

theorem OffloadReady.toNat_inputLen (hr : OffloadReady s inbuf outbuf) : (inputLen s.cfg).toNat = 4 * (2 * s.cfg.n) := by
  rw [(toNat_bufferLen hr.wf).1, ← Nat.mul_assoc]

theorem OffloadReady.toNat_outputLen (hr : OffloadReady s inbuf outbuf) : (outputLen s.cfg).toNat = 4 * s.cfg.n :=
  (toNat_bufferLen hr.wf).2

theorem length_inputFrame (s : State) (inbuf : Word) : (inputFrame s inbuf).length = 2 * s.cfg.n := length_transmitFrame ..

/-- The hardware does not depend on the host's fields and the schedule. -/
theorem OffloadAt.withHost (h : OffloadAt s inbuf outbuf g t) (ho : HostSide) (l : List Turn) :
    OffloadAt s inbuf outbuf g { t with host := ho, sched := l } :=
  ⟨h.valid, h.cfg, h.tx, h.inq, h.kernel, h.outq, h.rx, h.mem⟩

/-! ### TX's turn -/

theorem OffloadAt.tx_enabled_iff (hr : OffloadReady s inbuf outbuf) (h : OffloadAt s inbuf outbuf g t) :
    agentEnabled .tx t = true ↔ (g.pos = 2 ∧ g.sent < 2 * s.cfg.n) ∧ roomIn t.inq s.cfg.inDepth := by
  obtain ⟨-, -, -, hall, -⟩ := h.valid
  rw [agentEnabled, Bool.and_eq_true, h.tx, channelDuring_busy ((accepts_iff _).mp hr.txAccepts).1, hasRoom_iff, h.cfg]
  exact and_congr_left fun _ => by omega

/-- An enabled beat sends the next word of the frame; memory is as it was, since nothing has been received yet. -/
theorem OffloadAt.txBeat (hr : OffloadReady s inbuf outbuf) (h : OffloadAt s inbuf outbuf g t)
    (he : agentEnabled .tx t = true) : ∃ u, stepAgent .tx t = .next u ∧ u.host = t.host ∧
      OffloadAt s inbuf outbuf { g with sent := g.sent + 1 } u := by
  obtain ⟨⟨hp, hs⟩, hroom⟩ := (h.tx_enabled_iff hr).mp he
  obtain ⟨pos, sent, steps, received⟩ := g
  obtain rfl : pos = 2 := hp
  have hv := h.valid
  have hmem := h.mem
  have htx : t.tx = transferAt s.tx inbuf (inputLen s.cfg) (2 * s.cfg.n) sent := h.tx
  simp only [OffloadCounts.Valid] at hv hs
  have hnone : received = 0 := by omega
  have hpopped : min steps (2 * s.cfg.n) ≤ sent := by omega
  simp only [hnone, storeWords] at hmem
  obtain ⟨haddr, herr⟩ := beatError_transferAt (ch := s.tx) hr.toNat_inputLen hr.txPass hs
  have hlen : sent < (inputFrame s inbuf).length := by rwa [length_inputFrame]
  have hpush := exec_txBeat_push (s := t) (by rw [htx]; exact decide_eq_true hs) (h.cfg ▸ hroom)
    (by rw [htx, h.cfg]; exact herr)
  refine ⟨_, (stepChannel_tx t).trans hpush, rfl, ?_, h.cfg, ?_, ?_, h.kernel, h.outq, h.rx, h.mem⟩
  · simp only [OffloadCounts.Valid]
    omega
  · rw [htx, lastBeat_transferAt_iff hr.toNat_inputLen hs]
    simp only [decide_eq_true_eq, transferAt_succ hs]
    rfl
  · have hword : (inputFrame s inbuf)[sent] = encodeWord (Memory.readWord t.mem (beatAddr t.tx)) (lastBeat t.tx) := by
      rw [htx, lastBeat_transferAt_iff hr.toNat_inputLen hs, haddr, hmem]
      exact getElem_transmitFrame _
    rw [← hword, h.inq]
    exact (segment_push hpopped hlen).symm

/-! ### RX's turn -/

theorem OffloadAt.rx_enabled_iff (hr : OffloadReady s inbuf outbuf) (h : OffloadAt s inbuf outbuf g t) :
    agentEnabled .rx t = true ↔ g.pos = 5 ∧ g.received < g.steps - 3 * s.cfg.n := by
  have hv := h.valid
  have hlen := length_multiplyStream s.cfg (inputFrame s inbuf)
  simp only [OffloadCounts.Valid] at hv
  rw [agentEnabled, Bool.and_eq_true, h.rx, channelDuring_busy ((accepts_iff _).mp hr.rxAccepts).1, h.outq,
    segment_isEmpty (by omega)]
  omega

/-- An enabled beat stores the next cell of the product. -/
theorem OffloadAt.rxBeat (hr : OffloadReady s inbuf outbuf) (h : OffloadAt s inbuf outbuf g t)
    (he : agentEnabled .rx t = true) : ∃ u, stepAgent .rx t = .next u ∧ u.host = t.host ∧
      OffloadAt s inbuf outbuf { g with received := g.received + 1 } u := by
  obtain ⟨hp, hs⟩ := (h.rx_enabled_iff hr).mp he
  obtain ⟨pos, sent, steps, received⟩ := g
  obtain rfl : pos = 5 := hp
  have hv := h.valid
  have hrx : t.rx = transferAt s.rx outbuf (outputLen s.cfg) s.cfg.n received := h.rx
  simp only [OffloadCounts.Valid] at hv hs
  have hn : received < s.cfg.n := by omega
  have hlen := length_multiplyStream s.cfg (inputFrame s inbuf)
  obtain ⟨haddr, herr⟩ := beatError_transferAt (ch := s.rx) hr.toNat_outputLen hr.rxPass hn
  have hq := h.outq.trans (segment_pop hs (by omega))
  rw [getElem_multiplyStream] at hq
  have hpop := exec_rxBeat_pop (s := t) (by rw [hrx]; exact decide_eq_true hn) hq (by rw [hrx, h.cfg]; exact herr)
  refine ⟨_, (stepChannel_rx t).trans hpop, rfl, ?_, h.cfg, h.tx, h.inq, h.kernel, rfl, ?_, ?_⟩
  · simp only [OffloadCounts.Valid]
    omega
  · rw [hrx, lastBeat_transferAt_iff hr.toNat_outputLen hn]
    simp only [encodeWord, lastIndex, decide_eq_true_eq]
    refine Eq.trans ?_ (transferAt_succ hn)
    split <;> rfl
  · rw [hrx, haddr, h.mem]
    rfl

/-! ### The kernel's turn -/

theorem OffloadAt.kernel_enabled_iff (hr : OffloadReady s inbuf outbuf) (h : OffloadAt s inbuf outbuf g t) :
    agentEnabled .kernel t = true ↔ g.steps < 4 * s.cfg.n ∧ (g.steps < 2 * s.cfg.n → g.steps < g.sent) ∧
      (3 * s.cfg.n ≤ g.steps → roomIn t.outq s.cfg.outDepth) := by
  have hpos := n_pos_of_wellFormed hr.wf
  have hv := h.valid
  have hlen := length_inputFrame s inbuf
  simp only [OffloadCounts.Valid] at hv
  have hinq : (!t.inq.isEmpty) = true ↔ min g.steps (2 * s.cfg.n) < g.sent := by
    rw [h.inq, segment_isEmpty (by omega)]
  by_cases hm : g.steps < 4 * s.cfg.n
  · obtain ⟨p, n, hn, hi, hk⟩ := h.kernel.position hpos hm
    obtain ⟨hp, -⟩ := hk.sequencer hn
    cases p <;> simp only [kernelIndex] at hi <;> simp only [agentEnabled, hp]
    case loadA | loadB => rw [hinq]; omega
    case compute => exact ⟨fun _ => ⟨hm, by omega, by omega⟩, fun _ => trivial⟩
    case store =>
      rw [hasRoom_iff, h.cfg]
      exact ⟨fun hroom => ⟨hm, fun _ => by omega, fun _ => hroom⟩, fun ⟨_, _, hroom⟩ => hroom (by omega)⟩
  · obtain ⟨hp, -⟩ := KernelAt.round_over hpos ((by omega : g.steps = 4 * s.cfg.n) ▸ h.kernel)
    simp only [agentEnabled, hp]
    rw [hinq]
    omega

/-- The head of `IN` while a load phase has a word to pop. -/
theorem OffloadAt.inq_head (h : OffloadAt s inbuf outbuf g t) (hlt : g.steps < g.sent) :
    ∃ w, t.inq = w :: segment (inputFrame s inbuf) (min (g.steps + 1) (2 * s.cfg.n)) g.sent ∧
      w.data = payloadAt (inputFrame s inbuf) g.steps := by
  have hv := h.valid
  have hlen := length_inputFrame s inbuf
  simp only [OffloadCounts.Valid] at hv
  have hj : g.steps < (inputFrame s inbuf).length := by omega
  refine ⟨(inputFrame s inbuf)[g.steps], ?_, (payloadAt_eq_getElem hj).symm⟩
  rw [h.inq, min_eq_left (by omega), min_eq_left (by omega)]
  exact segment_pop hlt (by omega)

/-- The sequencer's move after an element of a phase. -/
theorem OffloadAt.advance (h : OffloadAt s inbuf outbuf g t) {p : Phase} {k : Kernel} (hp : k.phase = p)
    (hk : phaseHolds s.cfg (inputFrame s inbuf) k (k.idx + 1) p) :
    RoundKernel s.cfg (inputFrame s inbuf) p (k.idx + 1) (advance t.cfg k) := by
  rw [h.cfg]
  exact roundKernel_advance hp rfl hk

section
variable {n : Nat} (hn : n < s.cfg.n) (h : OffloadAt s inbuf outbuf g t)
include hn h

theorem OffloadAt.exec_kLoadA (hi : g.steps = kernelIndex s.cfg n .loadA) (hlt : g.steps < g.sent)
    (hk : RoundKernel s.cfg (inputFrame s inbuf) .loadA n t.k) :
    ∃ k, exec .kLoadA t = .next { t with
        inq := segment (inputFrame s inbuf) (min (g.steps + 1) (2 * s.cfg.n)) g.sent, k := k } ∧
      RoundKernel s.cfg (inputFrame s inbuf) .loadA (n + 1) k := by
  obtain ⟨hp, rfl⟩ := hk.sequencer hn
  obtain ⟨w, hq, hw⟩ := h.inq_head hlt
  rw [hi, kernelIndex] at hw
  have ha : Holds (insertAt t.k.idx w.data t.k.a) (payloadAt (inputFrame s inbuf)) (t.k.idx + 1) :=
    hw ▸ Holds.insertAt hk.holds
  exact ⟨_, exec_kLoadA_pop hp hq, h.advance (k := { t.k with a := insertAt t.k.idx w.data t.k.a }) hp ha⟩

theorem OffloadAt.exec_kLoadB (hi : g.steps = kernelIndex s.cfg n .loadB) (hlt : g.steps < g.sent)
    (hk : RoundKernel s.cfg (inputFrame s inbuf) .loadB n t.k) :
    ∃ k, exec .kLoadB t = .next { t with
        inq := segment (inputFrame s inbuf) (min (g.steps + 1) (2 * s.cfg.n)) g.sent, k := k } ∧
      RoundKernel s.cfg (inputFrame s inbuf) .loadB (n + 1) k := by
  obtain ⟨hp, rfl⟩ := hk.sequencer hn
  obtain ⟨w, hq, hw⟩ := h.inq_head hlt
  obtain ⟨ha, hb⟩ := hk.holds
  rw [hi, kernelIndex] at hw
  have hb' : Holds (insertAt t.k.idx w.data t.k.b) (fun j => payloadAt (inputFrame s inbuf) (s.cfg.n + j)) (t.k.idx + 1) :=
    hw ▸ hb.insertAt
  exact ⟨_, exec_kLoadB_pop hp hq, h.advance (k := { t.k with b := insertAt t.k.idx w.data t.k.b }) hp ⟨ha, hb'⟩⟩

theorem OffloadAt.exec_kCell (hpol : s.cfg.nanPolicy = .canonical)
    (hk : RoundKernel s.cfg (inputFrame s inbuf) .compute n t.k) :
    ∃ k, exec .kCell t = .next { t with k := k } ∧ RoundKernel s.cfg (inputFrame s inbuf) .compute (n + 1) k := by
  obtain ⟨hp, rfl⟩ := hk.sequencer hn
  obtain ⟨ha, hb, ho⟩ := hk.holds
  have hsum : accumulate t.cfg t.k.a t.k.b t.draws (rowOf t.cfg t.k.idx) (colOf t.cfg t.k.idx) t.cfg.dim =
      some (productAt s.cfg (inputFrame s inbuf) t.k.idx, t.draws) := by
    rw [← h.cfg] at hpol hn ha hb ⊢
    exact accumulate_of_holds hpol hn ha hb
  exact ⟨_, exec_kCell_sum hp hsum, h.advance
    (k := { t.k with out := insertAt t.k.idx (productAt s.cfg (inputFrame s inbuf) t.k.idx) t.k.out }) hp
    ⟨ha, hb, ho.insertAt⟩⟩

theorem OffloadAt.exec_kStore (hi : g.steps = kernelIndex s.cfg n .store) (hroom : roomIn t.outq s.cfg.outDepth)
    (hk : RoundKernel s.cfg (inputFrame s inbuf) .store n t.k) :
    ∃ k, exec .kStore t = .next { t with
        outq := segment (multiplyStream s.cfg (inputFrame s inbuf)) g.received (g.steps + 1 - 3 * s.cfg.n), k := k } ∧
      RoundKernel s.cfg (inputFrame s inbuf) .store (n + 1) k := by
  obtain ⟨hp, rfl⟩ := hk.sequencer hn
  have hv := h.valid
  have hlen := length_multiplyStream s.cfg (inputFrame s inbuf)
  simp only [kernelIndex] at hi
  simp only [OffloadCounts.Valid] at hv
  have hpushed : t.outq ++ [encodeWord (productAt s.cfg (inputFrame s inbuf) t.k.idx) (lastIndex t.cfg t.k.idx)] =
      segment (multiplyStream s.cfg (inputFrame s inbuf)) g.received (g.steps + 1 - 3 * s.cfg.n) := by
    rw [h.cfg, h.outq, ← getElem_multiplyStream (by omega), (by omega : g.steps - 3 * s.cfg.n = t.k.idx),
      ← segment_push (by omega) (by omega), (by omega : g.steps + 1 - 3 * s.cfg.n = t.k.idx + 1)]
  have hpush := exec_kStore_push hp (h.cfg ▸ hroom) (hk.holds _ hn)
  rw [hpushed] at hpush
  exact ⟨_, hpush, h.advance hp hk.holds⟩

end

/-- An enabled step of the kernel is the next of its round. -/
theorem OffloadAt.kernelStep (hr : OffloadReady s inbuf outbuf) (h : OffloadAt s inbuf outbuf g t)
    (he : agentEnabled .kernel t = true) : ∃ u, stepAgent .kernel t = .next u ∧ u.host = t.host ∧
      OffloadAt s inbuf outbuf { g with steps := g.steps + 1 } u := by
  obtain ⟨hm, hin, hout⟩ := (h.kernel_enabled_iff hr).mp he
  have hv := h.valid
  simp only [OffloadCounts.Valid] at hv
  have hv' : OffloadCounts.Valid s.cfg.n { g with steps := g.steps + 1 } := by
    simp only [OffloadCounts.Valid]
    omega
  obtain ⟨p, n, hn, hi, hk⟩ := h.kernel.position (n_pos_of_wellFormed hr.wf) hm
  have hstep := stepKernel_of_phase (hk.sequencer hn).1
  have hnext {k : Kernel} (hk' : RoundKernel s.cfg (inputFrame s inbuf) p (n + 1) k) :
      KernelAt s.cfg (inputFrame s inbuf) (g.steps + 1) k := ⟨p, n + 1, hn, by rw [hi]; cases p <;> rfl, hk'⟩
  have hinq (hle : 2 * s.cfg.n ≤ g.steps) :
      t.inq = segment (inputFrame s inbuf) (min (g.steps + 1) (2 * s.cfg.n)) g.sent := by
    rw [h.inq, (by omega : min (g.steps + 1) (2 * s.cfg.n) = min g.steps (2 * s.cfg.n))]
  have houtq (hlt : g.steps < 3 * s.cfg.n) :
      t.outq = segment (multiplyStream s.cfg (inputFrame s inbuf)) g.received (g.steps + 1 - 3 * s.cfg.n) := by
    rw [h.outq, (by omega : g.steps + 1 - 3 * s.cfg.n = g.steps - 3 * s.cfg.n)]
  have hi' := hi
  cases p <;> simp only [kernelIndex] at hi'
  case loadA =>
    obtain ⟨k, hexec, hk'⟩ := h.exec_kLoadA hn hi (hin (by omega)) hk
    exact ⟨_, hstep.trans hexec, rfl, hv', h.cfg, h.tx, rfl, hnext hk', houtq (by omega), h.rx, h.mem⟩
  case loadB =>
    obtain ⟨k, hexec, hk'⟩ := h.exec_kLoadB hn hi (hin (by omega)) hk
    exact ⟨_, hstep.trans hexec, rfl, hv', h.cfg, h.tx, rfl, hnext hk', houtq (by omega), h.rx, h.mem⟩
  case compute =>
    obtain ⟨k, hexec, hk'⟩ := h.exec_kCell hn hr.policy hk
    exact ⟨_, hstep.trans hexec, rfl, hv', h.cfg, h.tx, hinq (by omega), hnext hk', houtq (by omega), h.rx, h.mem⟩
  case store =>
    obtain ⟨k, hexec, hk'⟩ := h.exec_kStore hn hi (hout (by omega)) hk
    exact ⟨_, hstep.trans hexec, rfl, hv', h.cfg, h.tx, hinq (by omega), hnext hk', rfl, h.rx, h.mem⟩

end

end Sys2Proof.Machine
end

section
/-! OFFLOAD on every schedule (44_host_procedures.md R246, R248): the host's accesses, what any agent's turn leaves of a call,
and that a call that has not returned can always go on. -/

namespace Sys2Proof.Machine

/-! ### The accesses -/

section
variable {c : Chan} {ch : Channel} {addr len : Word} {total n p : Nat} {t : State} (ha : accepts ch = true)
  (hsg : t.cfg.sgMode = false)
include ha hsg

theorem addrThen_channelDuring (hc : t.chan c = channelDuring ch addr len total n 0) :
    addrThen c addr p t = .next ((t.setChan c (channelDuring ch addr len total n 1)).atPos p) := by
  have hc' : t.chan c = ch := hc
  rw [addrThen, writeAddr_accepted hsg (by rwa [hc']), hc', andThen_next]
  rfl

theorem lenThen_channelDuring (hstart : startError addr len = none) (htotal : 0 < total)
    (hc : t.chan c = channelDuring ch addr len total n 1) :
    lenThen c len p t = .next ((t.setChan c (channelDuring ch addr len total 0 2)).atPos p) := by
  have hc' : t.chan c = { ch with addr := addr } := hc
  rw [lenThen, writeLen_started hsg (by rwa [hc']) (by rwa [hc']), hc', andThen_next, channelDuring,
    transferAt_zero _ htotal]

end

theorem pollThen_of_accepts {c : Chan} {t : State} (goOn : State → State) (ha : accepts (t.chan c) = true) :
    pollThen c goOn t = goOn (t.bind (readStatus c t)) := by
  obtain ⟨hb, he⟩ := (accepts_iff _).mp ha
  rw [pollThen_eq, hb, he, if_neg Bool.false_ne_true, if_neg Bool.false_ne_true]

theorem pollThen_of_busy {c : Chan} {t : State} (goOn : State → State) (hb : (t.chan c).busy = true) :
    pollThen c goOn t = t.bind (readStatus c t) := by
  rw [pollThen_eq, if_pos hb]

section
variable {s t : State} {inbuf outbuf : Word} {q : List HostOp} {g : OffloadCounts}

/-- Counts that differ in an access alone are possible ones where sending and receiving allow it. -/
theorem OffloadCounts.Valid.access {n : Nat} (hv : g.Valid n) (hp : g.pos < 6) (htx : g.pos = 2 → g.sent = 2 * n)
    (hrx : g.pos = 5 → g.received = n) : OffloadCounts.Valid n { g with pos := g.pos + 1 } := by
  simp only [OffloadCounts.Valid] at hv ⊢
  omega

/-- Each access but the last moves the call on by one position, the poll of TX when all words have been sent. -/
theorem OffloadAt.access (hr : OffloadReady s inbuf outbuf) (h : OffloadAt s inbuf outbuf g t) (hpos : t.host.pos = g.pos)
    (hp : g.pos < 5) (htx : g.pos = 2 → g.sent = 2 * s.cfg.n) :
    ∃ u : State, exec (.offload inbuf outbuf) t = .next (u.atPos (g.pos + 1)) ∧
      OffloadAt s inbuf outbuf { g with pos := g.pos + 1 } (u.atPos (g.pos + 1)) := by
  have hn := n_pos_of_wellFormed hr.wf
  have hsg : t.cfg.sgMode = false := h.cfg ▸ hr.sg
  have hv' := h.valid.access (by omega) htx (by omega)
  obtain ⟨pos, sent, steps, received⟩ := g
  have hv := h.valid
  simp only [OffloadCounts.Valid] at hv
  match pos, hp with
  | 0, _ =>
    exact ⟨_, (exec_offload_txAddr hpos).trans (addrThen_channelDuring hr.txAccepts hsg h.tx), hv', h.cfg, rfl, h.inq,
      h.kernel, h.outq, h.rx, h.mem⟩
  | 1, _ =>
    obtain rfl : sent = 0 := by omega
    have hexec := exec_offload_txLen (inbuf := inbuf) (outbuf := outbuf) hpos
    rw [h.cfg, lenThen_channelDuring (c := .tx) (n := 0) hr.txAccepts hsg hr.txStart (Nat.mul_pos Nat.two_pos hn) h.tx]
      at hexec
    exact ⟨_, hexec, hv', h.cfg, rfl, h.inq, h.kernel, h.outq, h.rx, h.mem⟩
  | 2, _ =>
    have ha : accepts (t.chan .tx) = true := by
      rw [chan_tx, h.tx]
      exact channelDuring_accepts hr.txAccepts (.inr (htx rfl).ge)
    exact ⟨_, (exec_offload_txPoll hpos).trans (congrArg _ (pollThen_of_accepts _ ha)), hv', h.cfg, h.tx, h.inq,
      h.kernel, h.outq, h.rx, h.mem⟩
  | 3, _ =>
    exact ⟨_, (exec_offload_rxAddr hpos).trans (addrThen_channelDuring hr.rxAccepts hsg h.rx), hv', h.cfg, h.tx, h.inq,
      h.kernel, h.outq, rfl, h.mem⟩
  | 4, _ =>
    obtain rfl : received = 0 := by omega
    have hexec := exec_offload_rxLen (inbuf := inbuf) (outbuf := outbuf) hpos
    rw [h.cfg, lenThen_channelDuring (c := .rx) (n := 0) hr.rxAccepts hsg hr.rxStart hn h.rx] at hexec
    exact ⟨_, hexec, hv', h.cfg, h.tx, h.inq, h.kernel, h.outq, rfl, h.mem⟩

/-- The poll of RX returns when all words have been received. -/
theorem OffloadAt.lastAccess (hr : OffloadReady s inbuf outbuf) (h : OffloadAt s inbuf outbuf g t)
    (hpos : t.host.pos = g.pos) (hp : g.pos = 5) (hrx : g.received = s.cfg.n) :
    ∃ v, exec (.offload inbuf outbuf) t = .next ((t.bind v).ret .ok) ∧
      OffloadAt s inbuf outbuf { g with pos := 6 } ((t.bind v).ret .ok) := by
  have hv' := h.valid.access (by omega) (by omega) fun _ => hrx
  obtain ⟨pos, sent, steps, received⟩ := g
  obtain rfl : pos = 5 := hp
  have ha : accepts (t.chan .rx) = true := by
    rw [chan_rx, h.rx]
    exact channelDuring_accepts hr.rxAccepts (.inr hrx.ge)
  exact ⟨_, (exec_offload_rxPoll hpos).trans (congrArg _ (pollThen_of_accepts _ ha)), hv', h.cfg, h.tx, h.inq,
    h.kernel, h.outq, h.rx, h.mem⟩

/-- A poll of a channel with words left to move reads its status and no more. -/
theorem OffloadAt.poll (hr : OffloadReady s inbuf outbuf) (h : OffloadAt s inbuf outbuf g t) (hpos : t.host.pos = g.pos)
    (hp : g.pos = 2 ∧ g.sent < 2 * s.cfg.n ∨ g.pos = 5 ∧ g.received < s.cfg.n) :
    ∃ v, exec (.offload inbuf outbuf) t = .next (t.bind v) := by
  obtain ⟨hp, hs⟩ | ⟨hp, hs⟩ := hp
  · have hb : t.tx.busy = true := by
      rw [h.tx, channelDuring_busy ((accepts_iff _).mp hr.txAccepts).1]
      omega
    exact ⟨_, (exec_offload_txPoll (hpos.trans hp)).trans (congrArg _ (pollThen_of_busy (c := .tx) _ hb))⟩
  · have hb : t.rx.busy = true := by
      rw [h.rx, channelDuring_busy ((accepts_iff _).mp hr.rxAccepts).1]
      omega
    exact ⟨_, (exec_offload_rxPoll (hpos.trans hp)).trans (congrArg _ (pollThen_of_busy (c := .rx) _ hb))⟩

/-! ### The host's turn -/

/-- The machine when the OFFLOAD that the host of `s` calls has the counts `g`; `q` is the program after the call. -/
structure Offloading (s : State) (inbuf outbuf : Word) (q : List HostOp) (g : OffloadCounts) (t : State) : Prop where
  hardware : OffloadAt s inbuf outbuf g t
  queue : t.host.queue = if g.pos = 6 then q else .op (encode (.offload inbuf outbuf)) :: q
  pos : t.host.pos = if g.pos = 6 then 0 else g.pos
  returned : g.pos = 6 → t.host.ret = .ok

theorem Offloading.withTurns (h : Offloading s inbuf outbuf q g t) (l : List Turn) :
    Offloading s inbuf outbuf q g (t.withTurns l) :=
  ⟨h.hardware.withHost t.host l, h.queue, h.pos, h.returned⟩

/-- While the call is under way the host's turn is its next access. -/
theorem Offloading.stepHost_eq (h : Offloading s inbuf outbuf q g t) (hp : g.pos < 6) :
    t.host.pos = g.pos ∧ t.host.queue = .op (encode (.offload inbuf outbuf)) :: q ∧
      stepHost t = andThen (exec (.offload inbuf outbuf) t) fun u => .next (retire u) := by
  have hq := h.queue.trans (if_neg hp.ne)
  exact ⟨h.pos.trans (if_neg hp.ne), hq, stepHost_op rfl hq⟩

/-- The host's turn makes an access where the hardware has done what the access waits for. -/
theorem Offloading.hostMoves (hr : OffloadReady s inbuf outbuf) (h : Offloading s inbuf outbuf q g t) (hp : g.pos < 6)
    (htx : g.pos = 2 → g.sent = 2 * s.cfg.n) (hrx : g.pos = 5 → g.received = s.cfg.n) :
    ∃ u, stepHost t = .next u ∧ Offloading s inbuf outbuf q { g with pos := g.pos + 1 } u := by
  obtain ⟨hpos, hq, hstep⟩ := h.stepHost_eq hp
  rw [hstep]
  by_cases h5 : g.pos = 5
  · obtain ⟨v, hexec, hat⟩ := h.hardware.lastAccess hr hpos h5 (hrx h5)
    rw [hexec, andThen_next, retire_of_pos_zero rfl, h5]
    exact ⟨_, rfl, hat.withHost _ t.sched, congrArg List.tail hq, rfl, fun _ => rfl⟩
  · obtain ⟨u, hexec, hat⟩ := h.hardware.access hr hpos (by omega) htx
    have hs := exec_steering hexec
    simp only [State.steering, Prod.mk.injEq] at hs
    obtain ⟨-, -, -, hqueue, -⟩ := hs
    have hne : g.pos + 1 ≠ 6 := by omega
    rw [hexec, andThen_next, retire_of_pos_ne_zero (Nat.succ_ne_zero g.pos)]
    exact ⟨_, rfl, hat, (hqueue.trans hq).trans (if_neg hne).symm, (if_neg hne).symm, fun h6 => absurd h6 hne⟩

/-- Elsewhere it is a poll that leaves the call where it is. -/
theorem Offloading.hostPolls (hr : OffloadReady s inbuf outbuf) (h : Offloading s inbuf outbuf q g t)
    (hp : g.pos = 2 ∧ g.sent < 2 * s.cfg.n ∨ g.pos = 5 ∧ g.received < s.cfg.n) :
    ∃ u, stepHost t = .next u ∧ Offloading s inbuf outbuf q g u := by
  obtain ⟨hpos, hq, hstep⟩ := h.stepHost_eq (by omega)
  obtain ⟨v, hexec⟩ := h.hardware.poll hr hpos hp
  have hne : (t.bind v).host.pos ≠ 0 := by
    change t.host.pos ≠ 0
    omega
  rw [hstep, hexec, andThen_next, retire_of_pos_ne_zero hne]
  exact ⟨_, rfl, h.hardware.withHost _ t.sched, h.queue, h.pos, h.returned⟩

/-! ### A turn of the hardware -/

/-- The counts after an enabled turn of the hardware. -/
def OffloadCounts.move (g : OffloadCounts) : Agent → OffloadCounts
  | .host   => { g with pos := g.pos + 1 }
  | .tx     => { g with sent := g.sent + 1 }
  | .rx     => { g with received := g.received + 1 }
  | .kernel => { g with steps := g.steps + 1 }

theorem Offloading.hardwareMoves (hr : OffloadReady s inbuf outbuf) (h : Offloading s inbuf outbuf q g t) {a : Agent}
    (ha : a ≠ .host) (he : agentEnabled a t = true) :
    ∃ u, stepAgent a t = .next u ∧ Offloading s inbuf outbuf q (g.move a) u := by
  have hpos : (g.move a).pos = g.pos := by
    cases a with
    | host => exact absurd rfl ha
    | tx | rx | kernel => rfl
  obtain ⟨u, hu, hhost, hat⟩ :
      ∃ u, stepAgent a t = .next u ∧ u.host = t.host ∧ OffloadAt s inbuf outbuf (g.move a) u := by
    cases a with
    | host => exact absurd rfl ha
    | tx => exact h.hardware.txBeat hr he
    | rx => exact h.hardware.rxBeat hr he
    | kernel => exact h.hardware.kernelStep hr he
  exact ⟨u, hu, hat, by rw [hhost, hpos, h.queue], by rw [hhost, hpos, h.pos], by rw [hhost, hpos]; exact h.returned⟩

/-! ### Any turn -/

/-- The host is past the start of the program `q`: some operation of it has ended or is under way. -/
def Past (q : List HostOp) (h : HostSide) : Prop := h.queue.length < q.length ∨ h.queue.length = q.length ∧ h.pos ≠ 0

/-- A host operation leaves the queue as it is, or empties it. -/
theorem hostOp_queue {op : HostOp} {u : State} (h : hostOp op t = .next u) :
    u.host.queue = t.host.queue ∨ u.host.queue = [] := by
  obtain ⟨_, hw⟩ | ⟨_, _, v, hw, rfl⟩ | ⟨_, _, _, _, v, _, _, hw, _, rfl⟩ | ⟨_, _, rfl⟩ | ⟨_, _, _, rfl⟩ |
    ⟨_, _, _, rfl⟩ | rfl | ⟨_, rfl⟩ := hostOp_next h
  · exact .inl (hostWord_host hw).1
  · exact .inl (hostWord_host hw).1
  · exact .inl (hostWord_host hw).1
  · exact .inl rfl
  · exact .inl rfl
  · exact .inl rfl
  · exact .inl rfl
  · exact .inr rfl

/-- The host's turn at the head of a program takes it past its start. -/
theorem past_of_stepHost {u : State} (h : stepHost t = .next u) (hq : t.host.queue ≠ []) : Past t.host.queue u.host := by
  obtain ⟨hnil, _⟩ | ⟨op, r, v, hcons, hv, rfl⟩ := stepHost_next h
  · exact absurd hnil hq
  · have hlen : v.host.queue.length ≤ t.host.queue.length := by
      obtain hvq | hvq := hostOp_queue hv
      · rw [hvq]
      · rw [hvq]
        exact Nat.zero_le _
    have hpos : 0 < t.host.queue.length := List.length_pos_iff.mpr hq
    by_cases hp : v.host.pos = 0
    · rw [retire_of_pos_zero hp, Past, List.length_tail]
      omega
    · rw [retire_of_pos_ne_zero hp, Past]
      omega

theorem Past.step {u : State} (h : Past q t.host) {a : Agent} (hu : stepAgent a t = .next u) : Past q u.host := by
  have hkept {i : Instr} (hi : i ∈ hardwareSteps) (hx : exec i t = .next u) : Past q u.host := by
    rwa [exec_host_of_hardwareStep hi hx]
  cases a with
  | host =>
    by_cases hq : t.host.queue = []
    · obtain ⟨_, rfl⟩ | ⟨op, r, v, hcons, _, _⟩ := stepHost_next hu
      · exact h
      · exact absurd (hcons.symm.trans hq) (List.cons_ne_nil op r)
    · have hlater := past_of_stepHost hu hq
      simp only [Past] at h hlater ⊢
      omega
  | tx => exact hkept (i := .txBeat) (by decide) ((stepChannel_tx t).symm.trans hu)
  | rx => exact hkept (i := .rxBeat) (by decide) ((stepChannel_rx t).symm.trans hu)
  | kernel => exact hkept (decodeKstep_mem_hardwareSteps t.k.phase) hu

/-- Any agent's turn leaves the call somewhere, or takes a host whose call has returned on in its program. -/
theorem Offloading.step (hr : OffloadReady s inbuf outbuf) (h : Offloading s inbuf outbuf q g t) {a : Agent} {u : State}
    (hu : stepAgent a t = .next u) : (∃ g', Offloading s inbuf outbuf q g' u) ∨ Past q u.host := by
  have hv := h.hardware.valid
  simp only [OffloadCounts.Valid] at hv
  have hturn {g' : OffloadCounts} (hex : ∃ v, stepAgent a t = .next v ∧ Offloading s inbuf outbuf q g' v) :
      (∃ g', Offloading s inbuf outbuf q g' u) ∨ Past q u.host := by
    obtain ⟨v, hv, hat⟩ := hex
    cases hv.symm.trans hu
    exact .inl ⟨g', hat⟩
  by_cases ha : a = .host
  · subst ha
    by_cases hpoll : g.pos = 2 ∧ g.sent < 2 * s.cfg.n ∨ g.pos = 5 ∧ g.received < s.cfg.n
    · exact hturn (h.hostPolls hr hpoll)
    · by_cases hp : g.pos < 6
      · exact hturn (h.hostMoves hr hp (by omega) (by omega))
      · have hq : t.host.queue = q := h.queue.trans (if_pos (by omega))
        by_cases hnil : t.host.queue = []
        · exact hturn ⟨t, by rw [stepAgent, stepHost, hnil], h⟩
        · exact .inr (hq ▸ past_of_stepHost hu hnil)
  · cases he : agentEnabled a t with
    | true => exact hturn (h.hardwareMoves hr ha he)
    | false => exact hturn ⟨t, stepAgent_not_enabled he, h⟩

/-! ### A call that has not returned can go on -/

/-- How many accesses, words sent, steps of the kernel and words received are left of a call. -/
def OffloadCounts.left (n : Nat) (g : OffloadCounts) : Nat :=
  (6 - g.pos) + (2 * n - g.sent) + (4 * n - g.steps) + (n - g.received)

theorem roomIn_nil (d : Depth) : roomIn [] d := (hasRoom_iff [] d).mp (hasRoom_nil d)

/-- Some agent's turn brings a call that has not returned nearer to its end: the host's, unless its poll waits; then TX's
where `IN` is empty and RX's where `OUT` is not, else the kernel's. -/
theorem OffloadCounts.Valid.exists_move (hr : OffloadReady s inbuf outbuf) (hv : g.Valid s.cfg.n) (hp : g.pos < 6) :
    ∃ a, (g.move a).Valid s.cfg.n ∧ (g.move a).left s.cfg.n < g.left s.cfg.n ∧
      ∀ t, Offloading s inbuf outbuf q g t →
        ∃ u, stepAgent a t = .next u ∧ Offloading s inbuf outbuf q (g.move a) u := by
  have hn := n_pos_of_wellFormed hr.wf
  simp only [Valid, left] at hv ⊢
  by_cases hpoll : g.pos = 2 ∧ g.sent < 2 * s.cfg.n ∨ g.pos = 5 ∧ g.received < s.cfg.n
  · by_cases htx : g.pos = 2 ∧ g.sent ≤ g.steps
    · refine ⟨.tx, by simp only [move]; omega, by simp only [move]; omega, fun t h => h.hardwareMoves hr (by decide) ?_⟩
      refine (h.hardware.tx_enabled_iff hr).mpr ⟨by omega, ?_⟩
      rw [h.hardware.inq, segment_of_le (by omega)]
      exact roomIn_nil _
    · by_cases hrx : g.pos = 5 ∧ g.received < g.steps - 3 * s.cfg.n
      · exact ⟨.rx, by simp only [move]; omega, by simp only [move]; omega,
          fun t h => h.hardwareMoves hr (by decide) ((h.hardware.rx_enabled_iff hr).mpr hrx)⟩
      · refine ⟨.kernel, by simp only [move]; omega, by simp only [move]; omega,
          fun t h => h.hardwareMoves hr (by decide) ?_⟩
        refine (h.hardware.kernel_enabled_iff hr).mpr ⟨by omega, by omega, fun hstore => ?_⟩
        rw [h.hardware.outq, segment_of_le (by omega)]
        exact roomIn_nil _
  · exact ⟨.host, by simp only [move]; omega, by simp only [move]; omega,
      fun t h => h.hostMoves hr hp (by omega) (by omega)⟩

/-- A step of an agent uses its turn up, whatever turns come after it. -/
theorem run_cons {a : Agent} {u : State} {l : List Turn} (hu : stepAgent a (t.withTurns l) = .next u) (m : Nat) :
    run (m + 1) (t.withTurns (.agent a :: l)) = run m (u.withTurns l) := by
  have hsched : u.sched = l := (stepAgent_schedule hu).2.1
  rw [State.withTurns, ← hsched]
  exact run_agent (by rw [hsched]) (hsched ▸ hu) m

/-- Turns of the agents that lead a call to its return, from every state with its counts. -/
theorem exists_turns (hr : OffloadReady s inbuf outbuf) (n : Nat) {g : OffloadCounts} (hv : g.Valid s.cfg.n)
    (hn : g.left s.cfg.n ≤ n) :
    ∃ turns : List Turn, (∀ u ∈ turns, u ≠ .reset) ∧ ∀ t, Offloading s inbuf outbuf q g t →
      ∃ u, run turns.length (t.withTurns turns) = .next u ∧ ∃ g', g'.pos = 6 ∧ Offloading s inbuf outbuf q g' u := by
  induction n generalizing g with
  | zero =>
    have hpos : g.pos = 6 := by
      simp only [OffloadCounts.Valid, OffloadCounts.left] at hv hn
      omega
    exact ⟨[], fun _ hu => absurd hu List.not_mem_nil, fun t h => ⟨_, rfl, g, hpos, h.withTurns []⟩⟩
  | succ n ih =>
    by_cases hp : g.pos < 6
    · obtain ⟨a, hv', hlt, hmove⟩ := hv.exists_move (q := q) hr hp
      obtain ⟨turns, hturns, hrun⟩ := ih hv' (by omega)
      refine ⟨.agent a :: turns, List.forall_mem_cons.mpr ⟨Turn.noConfusion, hturns⟩, fun t h => ?_⟩
      obtain ⟨u, hu, hat⟩ := hmove _ (h.withTurns turns)
      rw [List.length_cons, run_cons hu]
      exact hrun u hat
    · have hpos : g.pos = 6 := by
        simp only [OffloadCounts.Valid] at hv
        omega
      exact ⟨[], fun _ hu => absurd hu List.not_mem_nil, fun t h => ⟨_, rfl, g, hpos, h.withTurns []⟩⟩

end

/-! ### Runs without a reset -/

/-- What every agent's step keeps, whatever turns are decided after it, holds at the end of a run without a reset. -/
theorem run_keeps {P : State → Prop} (hturns : ∀ t l, P t → P (t.withTurns l))
    (hstep : ∀ a t u, P t → stepAgent a t = .next u → P u) {turns : List Turn} (hno : ∀ u ∈ turns, u ≠ .reset)
    {t u : State} (ht : P t) (h : run turns.length (t.withTurns turns) = .next u) : P u := by
  induction turns generalizing t with
  | nil =>
    cases h
    exact hturns t [] ht
  | cons v l ih =>
    obtain ⟨hv, hl⟩ := List.forall_mem_cons.mp hno
    cases v with
    | reset => exact absurd rfl hv
    | agent a =>
      obtain ⟨w, hw, _⟩ := andThen_eq_next h
      have hw' : stepAgent a (t.withTurns l) = .next w := hw
      rw [List.length_cons, run_cons hw'] at h
      exact ih hl (hstep a _ w (hturns t l ht) hw') h

/-! ### The result -/

theorem cellSum_congr {mode : MacMode} {x x' y y' : Nat → Word} {m : Nat} (h : ∀ k < m, x k = x' k ∧ y k = y' k) :
    cellSum mode x y m = cellSum mode x' y' m := by
  induction m with
  | zero => rfl
  | succ m ih =>
    obtain ⟨hx, hy⟩ := h m (Nat.lt_succ_self m)
    rw [cellSum, cellSum, ih fun k hk => h k (Nat.lt_succ_of_lt hk), hx, hy]

theorem rowOf_cellIndex {c : Config} {i j : Nat} (hj : j < c.dim) : rowOf c (cellIndex c i j) = i := by
  rw [rowOf, cellIndex, Nat.mul_comm, Nat.mul_add_div (Nat.zero_lt_of_lt hj), Nat.div_eq_of_lt hj, Nat.add_zero]

theorem colOf_cellIndex {c : Config} {i j : Nat} (hj : j < c.dim) : colOf c (cellIndex c i j) = j := by
  rw [colOf, cellIndex, Nat.mul_comm, Nat.mul_add_mod, Nat.mod_eq_of_lt hj]

section
variable {s t : State} {inbuf outbuf : Word} {q : List HostOp} {g : OffloadCounts}

theorem payloadAt_inputFrame {n : Nat} (hn : n < 2 * s.cfg.n) :
    payloadAt (inputFrame s inbuf) n = Memory.readWord s.mem (inbuf.toNat + 4 * n) := by
  have hlen : n < (inputFrame s inbuf).length := by rwa [length_inputFrame]
  rw [payloadAt_eq_getElem hlen]
  exact congrArg StreamWord.data (getElem_transmitFrame hlen)

/-- The product of the frame sent is that of the matrices in the input buffer (20_memory.md R68). -/
theorem productAt_inputFrame {i j : Nat} (hi : i < s.cfg.dim) (hj : j < s.cfg.dim) :
    productAt s.cfg (inputFrame s inbuf) (cellIndex s.cfg i j) = memoryProduct s.cfg s.mem inbuf.toNat i j := by
  rw [productAt, rowOf_cellIndex hj, colOf_cellIndex hj]
  refine cellSum_congr fun k hk => ⟨?_, ?_⟩
  · have hlt := cellIndex_lt hi hk
    exact payloadAt_inputFrame (by omega)
  · have hlt := cellIndex_lt hk hj
    refine (payloadAt_inputFrame (by omega)).trans ?_
    rw [Nat.mul_add, ← Nat.add_assoc]

/-- The preconditions of R248, by what the model's steps ask. -/
theorem offloadReady (hquiet : s.Quiescent) (hinv : s.Inv) (hsg : s.cfg.sgMode = false)
    (hpol : s.cfg.nanPolicy = .canonical) (hin : inbuf.toNat % 4 = 0) (hout : outbuf.toNat % 4 = 0)
    (hinEnd : inbuf.toNat + 8 * s.cfg.n ≤ 2 ^ 32) (houtEnd : outbuf.toNat + 4 * s.cfg.n ≤ 2 ^ 32)
    (htx : beatsPass s.cfg .tx inbuf.toNat (2 * s.cfg.n)) (hrx : beatsPass s.cfg .rx outbuf.toNat s.cfg.n) :
    OffloadReady s inbuf outbuf := by
  obtain ⟨-, -, -, -, htb, hte, hrb, hre⟩ := hquiet
  obtain ⟨hwf, -⟩ := hinv
  obtain ⟨hinLen, houtLen⟩ := toNat_bufferLen hwf
  have hn := n_pos_of_wellFormed hwf
  have hstart {addr len : Word} {k : Nat} (hlen : len.toNat = 4 * k) (hk : 0 < k) (ha : addr.toNat % 4 = 0)
      (hend : addr.toNat + len.toNat ≤ 2 ^ 32) : startError addr len = none := by
    refine (startError_none_iff ..).mpr ⟨fun h0 => ?_, by omega, ha, hend⟩
    rw [h0, BitVec.toNat_ofNat] at hlen
    omega
  exact ⟨hwf, hsg, hpol, (accepts_iff _).mpr ⟨htb, hte⟩, (accepts_iff _).mpr ⟨hrb, hre⟩,
    hstart (k := 2 * s.cfg.n) (by omega) (by omega) hin (by omega), hstart houtLen hn hout (by omega), htx, hrx⟩

/-- A call begins with nothing done. -/
theorem offloading_start (hquiet : s.Quiescent) (hwf : s.cfg.wellFormed = true) (hpos : s.host.pos = 0)
    (hq : s.host.queue = .op (encode (.offload inbuf outbuf)) :: q) :
    Offloading s inbuf outbuf q ⟨0, 0, 0, 0⟩ s := by
  obtain ⟨hphase, hidx, hinq, houtq, -⟩ := hquiet
  have hkernel : KernelAt s.cfg (inputFrame s inbuf) 0 s.k :=
    ⟨.loadA, 0, Nat.zero_le _, rfl, roundKernel_zero (n_pos_of_wellFormed hwf) hphase hidx (holds_zero _ _)⟩
  refine ⟨⟨?_, rfl, rfl, ?_, hkernel, ?_, rfl, rfl⟩, hq, hpos, fun h => absurd h (by decide)⟩
  · simp [OffloadCounts.Valid]
  · rw [hinq, segment_of_le (Nat.zero_le _)]
  · rw [houtq, segment_of_le (Nat.zero_sub _).le]

/-- When a call has returned all words have been moved and the machine is between rounds again. -/
theorem Offloading.quiescent (hr : OffloadReady s inbuf outbuf) (h : Offloading s inbuf outbuf q g t) (hp : g.pos = 6) :
    t.Quiescent ∧ t.tx = transferAt s.tx inbuf (inputLen s.cfg) (2 * s.cfg.n) (2 * s.cfg.n) ∧
      t.rx = transferAt s.rx outbuf (outputLen s.cfg) s.cfg.n s.cfg.n ∧
      t.mem = storeWords s.mem outbuf.toNat (productAt s.cfg (inputFrame s inbuf)) s.cfg.n := by
  have hn := n_pos_of_wellFormed hr.wf
  obtain ⟨hv, -, htx, hinq, hkernel, houtq, hrx, hmem⟩ := h.hardware
  obtain ⟨hsent, hsteps, hreceived⟩ : g.sent = 2 * s.cfg.n ∧ g.steps = 4 * s.cfg.n ∧ g.received = s.cfg.n := by
    simp only [OffloadCounts.Valid] at hv
    omega
  rw [hp, hsent] at htx
  rw [hsteps, hsent, segment_of_le (by omega)] at hinq
  rw [hsteps] at hkernel
  rw [hsteps, hreceived, segment_of_le (by omega)] at houtq
  rw [hp, hreceived] at hrx
  rw [hreceived] at hmem
  obtain ⟨hphase, hidx⟩ := hkernel.round_over hn
  have htx' : accepts t.tx = true := htx ▸ channelDuring_accepts hr.txAccepts (.inr le_rfl)
  have hrx' : accepts t.rx = true := hrx ▸ channelDuring_accepts hr.rxAccepts (.inr le_rfl)
  obtain ⟨htb, hte⟩ := (accepts_iff _).mp htx'
  obtain ⟨hrb, hre⟩ := (accepts_iff _).mp hrx'
  exact ⟨⟨hphase, hidx, hinq, houtq, htb, hte, hrb, hre⟩, htx, hrx, hmem⟩

/-- At the end of a run without a reset a host that stands at the start of `q` has returned from the call. -/
theorem Offloading.returned_of_run (hr : OffloadReady s inbuf outbuf) (h : Offloading s inbuf outbuf q g s)
    {turns : List Turn} (hno : ∀ u ∈ turns, u ≠ .reset) (hrun : run turns.length (s.withTurns turns) = .next t) (htq : t.host.queue = q)
    (htp : t.host.pos = 0) : ∃ g', g'.pos = 6 ∧ Offloading s inbuf outbuf q g' t := by
  have hend : (∃ g', Offloading s inbuf outbuf q g' t) ∨ Past q t.host :=
    run_keeps (P := fun t => (∃ g', Offloading s inbuf outbuf q g' t) ∨ Past q t.host)
      (fun _ l h => h.imp_left fun ⟨g', hg⟩ => ⟨g', hg.withTurns l⟩)
      (fun _ _ _ h hu => h.elim (fun ⟨_, hg⟩ => hg.step hr hu) fun hpast => .inr (hpast.step hu))
      hno (.inl ⟨g, h⟩) hrun
  obtain ⟨g', h'⟩ | hpast := hend
  · refine ⟨g', ?_, h'⟩
    by_contra hne
    exact List.cons_ne_self _ _ ((h'.queue.trans (if_neg hne)).symm.trans htq)
  · simp only [Past, htq, htp] at hpast
    omega

end

/-- Settles O50: every turn of an agent leaves the call somewhere on its way; a call that has returned has moved every word;
and the turns that go on lead to its return. -/
theorem offloadComputesProduct : Obligations.OffloadComputesProduct := by
  intro s inbuf outbuf q hquiet hinv hsg hpol hin hout hinEnd houtEnd htx hrx hpos hq
  have hr := offloadReady hquiet hinv hsg hpol hin hout hinEnd houtEnd htx hrx
  have hstart := offloading_start hquiet hr.wf hpos hq
  refine ⟨fun turns t hno hrun htq htp => ?_, ?_⟩
  · obtain ⟨g, hp, h⟩ := hstart.returned_of_run hr hno hrun htq htp
    obtain ⟨hquiet', htx', hrx', hmem⟩ := h.quiescent hr hp
    obtain ⟨-, -, -, -, -, -, ⟨hwf, -⟩, -⟩ := hinv
    have hlen := (inputLen s.cfg).isLt
    rw [hr.toNat_inputLen] at hlen
    refine ⟨h.returned hp, hquiet', fun hnil => ⟨htq.trans hnil, htp, hquiet'⟩, ?_, ?_, ?_, ?_, fun i j hi hj => ?_,
      fun b hb => ?_⟩
    · rw [htx', transferAt_total]
    · rw [hrx', transferAt_total]
    · rw [htx', toNat_xfer_transferAt _ hlen]
      omega
    · rw [hrx', toNat_xfer_transferAt _ (by omega)]
    · rw [hmem, readWord_storeWords hwf (cellIndex_lt hi hj), productAt_inputFrame hi hj]
    · rw [hmem, readByte_storeWords_outside hb]
  · obtain ⟨turns, hno, hrun⟩ := exists_turns hr _ hstart.hardware.valid le_rfl
    obtain ⟨t, ht, g, hp, h⟩ := hrun s hstart
    exact ⟨turns, t, hno, ht, h.queue.trans (if_pos hp), h.pos.trans (if_pos hp)⟩

end Sys2Proof.Machine
end

section
/-! A channel's error state (60_exceptions.md R265, R267): how it is entered, and that no operation leaves it. -/

namespace Sys2Proof.Machine

/-- Raising an error on a channel leaves the other channel alone. -/
theorem raiseError_chan_other {c d : Chan} (hd : d ≠ c) (code : BitVec 3) (s : State) :
    (raiseError c code s).chan d = s.chan d := chan_setChan_other s c d _ hd

/-- A raised error shows on the request line of a channel that has it enabled. -/
theorem irq_raiseError {c : Chan} {s : State} (hie : (s.chan c).ieErr = true) (code : BitVec 3) :
    irq ((raiseError c code s).chan c) = true := by
  rw [raiseError_chan]
  exact (irq_iff _).mpr (.inr ⟨hie, rfl⟩)

/-- Settles O39: the channel itself by its new value, everything else by what `raiseError` leaves unchanged. -/
theorem errorEntry : Obligations.ErrorEntry := by
  intro c d code s
  have hother : d ≠ c → (raiseError c code s).chan d = s.chan d := fun hd => raiseError_chan_other hd code s
  have hirq : (s.chan c).ieErr = true → irq ((raiseError c code s).chan c) = true := fun hie => irq_raiseError hie code
  rw [raiseError_chan] at hirq ⊢
  exact ⟨rfl, rfl, rfl, rfl, rfl, rfl, rfl, rfl, rfl, hother, raiseError_k .., raiseError_inq .., raiseError_outq ..,
    raiseError_mem .., hirq⟩

/-- The changes that could end an error or move a halted channel's fields all ask for a busy channel or for one that accepts a
start; what is left are the writes of the enables and of `DONE`. -/
theorem ChannelChange.keeps_error {i : Instr} {c : Chan} {ch ch' : Channel} (h : ChannelChange i c ch ch')
    (he : ch.err = true) (hidle : ch.busy = false) :
    ch'.err = true ∧ ch'.busy = false ∧ ch'.errcode = ch.errcode ∧ ch'.addr = ch.addr ∧ ch'.len = ch.len ∧
      ch'.xfer = ch.xfer := by
  have hrefuses : accepts ch ≠ true := fun ha => Bool.false_ne_true (((accepts_iff ch).mp ha).2.symm.trans he)
  have hnotBusy : ch.busy ≠ true := fun hb => Bool.false_ne_true (hidle.symm.trans hb)
  cases h with
  | untouched | enables _ _ | doneCleared => exact ⟨he, hidle, rfl, rfl, rfl, rfl⟩
  | addressed _ ha | startFailed _ _ ha _ | started _ ha _ => exact absurd ha hrefuses
  | halted _ hb _ | counted hb _ | completed hb | overrun hb => exact absurd hb hnotBusy

/-- Settles O40: none of the changes an operation can make to a channel reaches what an error leaves there. -/
theorem errorIsSticky : Obligations.ErrorIsSticky := fun _ _ _ c h => (exec_channel h c).keeps_error

end Sys2Proof.Machine
end

section
/-! Reads of unwritten storage cells (70_reset_and_hazards.md R292): where a kernel step faults, and that under the invariant
every kernel step answers a next state. -/

namespace Sys2Proof.Machine

/-! ### The faults -/

/-- A cell sum has no value exactly when a cell of its row or its column is unwritten. -/
theorem accumulate_eq_none_iff (c : Config) (a b : Cells) (draws ia ib m : Nat) :
    accumulate c a b draws ia ib m = none ↔
      ∃ k < m, lookup (cellIndex c ia k) a = none ∨ lookup (cellIndex c k ib) b = none := by
  rw [← Option.not_isSome_iff_eq_none, accumulate_isSome]
  simp only [not_forall, Classical.not_and_iff_not_or_not, Option.not_isSome_iff_eq_none, exists_prop]

theorem exec_kCell_fault {s : State} (hp : s.k.phase = .compute)
    (hsum : accumulate s.cfg s.k.a s.k.b s.draws (rowOf s.cfg s.k.idx) (colOf s.cfg s.k.idx) s.cfg.dim = none) :
    exec .kCell s = .fault .unwrittenCell := by
  change execKCell s = _
  rw [execKCell, if_pos hp, hsum]

theorem exec_kStore_fault {s : State} (hp : s.k.phase = .store) (hr : roomIn s.outq s.cfg.outDepth)
    (hv : lookup s.k.idx s.k.out = none) : exec .kStore s = .fault .unwrittenCell := by
  change execKStore s = _
  rw [execKStore, if_pos hp, if_pos ((hasRoom_iff ..).mpr hr), hv]

/-! ### The steps that answer -/

section
variable {s : State}

/-- A kernel step whose phase is not selected leaves the state unchanged (00_scope.md R9). -/
theorem exec_kLoadA_unselected (hp : s.k.phase ≠ .loadA) : exec .kLoadA s = .next s := if_neg hp

theorem exec_kLoadB_unselected (hp : s.k.phase ≠ .loadB) : exec .kLoadB s = .next s := if_neg hp

theorem exec_kCell_unselected (hp : s.k.phase ≠ .compute) : exec .kCell s = .next s := if_neg hp

theorem exec_kStore_unselected (hp : s.k.phase ≠ .store) : exec .kStore s = .next s := if_neg hp

theorem exec_kLoadA_answers : ∃ t, exec .kLoadA s = .next t := by
  by_cases hp : s.k.phase = .loadA
  · cases hq : s.inq with
    | nil => exact ⟨_, exec_kLoadA_wait hq⟩
    | cons w q => exact ⟨_, exec_kLoadA_pop hp hq⟩
  · exact ⟨_, exec_kLoadA_unselected hp⟩

theorem exec_kLoadB_answers : ∃ t, exec .kLoadB s = .next t := by
  by_cases hp : s.k.phase = .loadB
  · cases hq : s.inq with
    | nil => exact ⟨_, exec_kLoadB_wait hq⟩
    | cons w q => exact ⟨_, exec_kLoadB_pop hp hq⟩
  · exact ⟨_, exec_kLoadB_unselected hp⟩

/-- With both operands written, the sum of every cell has a value. -/
theorem accumulate_isSome_of_written {c : Config} {a b : Cells} (ha : written a c.n) (hb : written b c.n) (draws : Nat)
    {n : Nat} (hn : n < c.n) : (accumulate c a b draws (rowOf c n) (colOf c n) c.dim).isSome = true :=
  (accumulate_isSome ..).mpr fun _ hk =>
    ⟨ha _ (cellIndex_lt (rowOf_lt hn) hk), hb _ (cellIndex_lt hk (colOf_lt hn))⟩

/-- In COMPUTE both operands are written, so the sum has a value (42_compute_kernel.md R167). -/
theorem exec_kCell_answers (hk : Kernel.Inv s.cfg s.k) : ∃ t, exec .kCell s = .next t := by
  obtain ⟨hidx, _, _, _, hw⟩ := (kernelInv_iff ..).mp hk
  by_cases hp : s.k.phase = .compute
  · rw [hp] at hw
    obtain ⟨ha, hb, _⟩ := hw
    obtain ⟨acc, hacc⟩ := Option.isSome_iff_exists.mp (accumulate_isSome_of_written ha hb s.draws hidx)
    exact ⟨_, exec_kCell_sum hp hacc⟩
  · exact ⟨_, exec_kCell_unselected hp⟩

/-- In STORE all of the result is written, so the cell at the index has a value (42_compute_kernel.md R167). -/
theorem exec_kStore_answers (hk : Kernel.Inv s.cfg s.k) : ∃ t, exec .kStore s = .next t := by
  obtain ⟨hidx, _, _, _, hw⟩ := (kernelInv_iff ..).mp hk
  by_cases hp : s.k.phase = .store
  · rw [hp] at hw
    obtain ⟨v, hv⟩ := Option.isSome_iff_exists.mp (hw _ hidx)
    by_cases hr : roomIn s.outq s.cfg.outDepth
    · exact ⟨_, exec_kStore_push hp hr hv⟩
    · exact ⟨_, exec_kStore_wait hr⟩
  · exact ⟨_, exec_kStore_unselected hp⟩

end

/-- Settles O26: an unwritten cell leaves the sum, or the word to push, without a value; under the invariant what the phase
reads is written. -/
theorem unwrittenCellReadFaults : Obligations.UnwrittenCellReadFaults := by
  refine ⟨fun s k hp hk hcell => exec_kCell_fault hp ?_, fun s => exec_kStore_fault, fun s i hs hi => ?_⟩
  · exact (accumulate_eq_none_iff ..).mpr ⟨k, hk, hcell⟩
  · obtain ⟨_, hinv, _⟩ := hs
    obtain rfl | rfl | rfl | rfl := hi
    · exact exec_kLoadA_answers
    · exact exec_kLoadB_answers
    · exact exec_kCell_answers hinv
    · exact exec_kStore_answers hinv

end Sys2Proof.Machine
end

section
/-! The state after reset (10_state.md R43, 70_reset_and_hazards.md R294): the invariant holds there part by part. -/

namespace Sys2Proof.Machine

theorem cellsWf_nil (c : Config) : cellsWf c [] := ⟨rfl, fun _ he => absurd he List.not_mem_nil⟩

theorem streamInv_nil (d : Depth) : StreamInv [] d := by
  refine ⟨fun _ hw => absurd hw List.not_mem_nil, ?_⟩
  cases d with
  | unbounded => trivial
  | bounded extra => exact Nat.zero_le _

theorem channelInv_reset : Channel.Inv Channel.reset := by
  refine ⟨fun hbusy => ?_, fun herr => ?_, fun _ => rfl⟩
  · cases hbusy
  · cases herr

/-- The reset sequencer stands at the first element of a phase that reads no storage. -/
theorem kernelInv_reset {c : Config} (hn : 0 < c.n) : Kernel.Inv c Kernel.reset :=
  ⟨hn, cellsWf_nil c, cellsWf_nil c, cellsWf_nil c, written_zero _⟩

theorem memInv_nil : MemInv [] := ⟨rfl, fun _ he => absurd he List.not_mem_nil⟩

theorem hostInv_reset : HostSide.Inv HostSide.reset := ⟨rfl, Nat.le_refl 0⟩

theorem resetOf_quiescent (c : Config) : (State.resetOf c).Quiescent := ⟨rfl, rfl, rfl, rfl, rfl, rfl, rfl, rfl⟩

theorem resetOf_inv {c : Config} (hc : c.wellFormed = true) : (State.resetOf c).Inv :=
  ⟨hc, kernelInv_reset (n_pos_of_wellFormed hc), streamInv_nil _, streamInv_nil _, channelInv_reset, channelInv_reset,
    memInv_nil, hostInv_reset⟩

theorem resetOf_chan (c : Config) (d : Chan) : (State.resetOf c).chan d = Channel.reset := by
  cases d <;> rfl

/-- Of a channel after reset the status shows `SG` alone (43_transfer_engine.md R191). -/
theorem statusWord_reset (sg : Bool) : statusWord sg Channel.reset = if sg then 0x100#32 else 0#32 := by
  cases sg <;> rfl

theorem readStatus_resetOf (c : Config) (d : Chan) :
    readStatus d (State.resetOf c) = if c.sgMode then 0x100#32 else 0#32 := by
  rw [readStatus, resetOf_chan]
  exact statusWord_reset c.sgMode

theorem thisHardware_wellFormed : Config.thisHardware.wellFormed = true := by decide

/-- Settles O54: this hardware's build is well formed, and the reset state of any such build has every part of the invariant. -/
theorem resetIsQuiescentAndGood : Obligations.ResetIsQuiescentAndGood :=
  ⟨resetOf_quiescent _, resetOf_inv thisHardware_wellFormed, rfl, fun c hc =>
    ⟨resetOf_quiescent c, resetOf_inv hc, fun d => ⟨statusWord_view .., readStatus_resetOf c d⟩⟩⟩

end Sys2Proof.Machine
end
